-- ==== Sys2Proof/Word.lean ====
section
/-! DEFINITION. The two bit-vector types of the model. -/

namespace Sys2Proof

/-- A host-visible register and a command word: 64 bits (10_state.md R20, 30_encoding.md R90). -/
abbrev Reg := BitVec 64

/-- A buffer word or a code word of `W` bits (00_scope.md R8, `1 ≤ W ≤ 64`), held in the low `W` bits of 64.
Bit 0 is the least significant bit and bit `W - 1` the high-order bit (R10). -/
abbrev Word := BitVec 64

end Sys2Proof
end

