-- ==== Sys2Proof/Config.lean ====
section
/-! DEFINITION. What one implementation of the block fixes (its parameters, 00_scope.md R8), and the free value that
stands for everything the spec leaves unspecified. -/

namespace Sys2Proof

/-- `ceil(a / b)` on natural numbers (00_scope.md R11). -/
def ceilDiv (a b : Nat) : Nat := (a + b - 1) / b

/-- The parameters of one instance of the block (00_scope.md R8; `base` is the OPEN parameter `BASE` of 20_memory.md
R61). They are read-only for the whole life of the instance (10_state.md R21). -/
structure Params where
  /-- `W`, bits per buffer word and per code word. -/
  w : Nat
  /-- `ARRAY_SIZE`, words per storage block. -/
  arraySize : Nat
  /-- `NUM_BLOCKS`, storage blocks of the buffer. -/
  numBlocks : Nat
  /-- `SYM_W`, bits per symbol. -/
  symW : Nat
  /-- `MAX_NODES`, entries of the node table. -/
  maxNodes : Nat
  /-- `L_MAX`, longest code in bits. -/
  lMax : Nat
  /-- `BASE`, byte address of the register window. -/
  base : Nat
  deriving DecidableEq, Repr

/-- `CAP_WORDS = NUM_BLOCKS * ARRAY_SIZE` (R8). -/
def Params.capWords (c : Params) : Nat := c.numBlocks * c.arraySize

/-- `CODE_WORDS = ceil(L_MAX / W)` (R8). -/
def Params.codeWords (c : Params) : Nat := ceilDiv c.lMax c.w

/-- `NDATA = max(CODE_WORDS, 2)` (R8). -/
def Params.ndata (c : Params) : Nat := max c.codeWords 2

/-- The legal ranges of R8, and `BASE` 512-byte aligned (20_memory.md R61). -/
structure Params.Legal (c : Params) : Prop where
  w : 1 ≤ c.w ∧ c.w ≤ 64
  arraySize : 1 ≤ c.arraySize
  numBlocks : 1 ≤ c.numBlocks
  capWords : c.capWords ≤ 2 ^ 32
  symW : 1 ≤ c.symW ∧ c.symW ≤ 16
  maxNodes : 3 ≤ c.maxNodes ∧ c.maxNodes ≤ 65536
  lMax : 1 ≤ c.lMax
  codeWords : c.codeWords ≤ 32
  base : c.base % 512 = 0

/-- The reference configuration of R8. `base` is DESIGN CHOICE (unsafe, log 3): the spec gives `BASE` no reference. -/
def Params.reference : Params where
  w := 64
  arraySize := 1024
  numBlocks := 16
  symW := 8
  maxNodes := 512
  lMax := 256
  base := 0

/-- FREE VALUE (log 1): the `n`-th unspecified 64-bit value. It stands for the word a read of an unwritten buffer word
returns (10_state.md R46) and for a host read that the spec leaves unspecified while BUSY = 1 (20_memory.md R62). It has
no body, so nothing is known of any of its values. -/
opaque Config.freeValue : Nat → Reg

end Sys2Proof
end

