-- ==== Sys2Proof/Syntax.lean ====
section
/-! DEFINITION. The commands of the block: one constructor per row of spec/opcode_table.json, with the operands that its
format carries (30_encoding.md R92, R93). An operand is the number in its field, unsigned and unscaled (R91). -/

namespace Sys2Proof

/-- A command. `sym`, and the `len` of `encBits`, come from field A (16 bits). `node`, `index`, and the `len` of
`writeCode`, come from field B (32 bits). -/
inductive Instr where
  /-- 0x00, format Z: no operation (R120). -/
  | nop
  /-- 0x01, format Z: soft reset (R121). -/
  | reset
  /-- 0x02, format Z: end the session and clear the error (R122). -/
  | abort
  /-- 0x03, format N: invalidate the tree and the code table (R141). -/
  | clrTables
  /-- 0x04, format B: write one node-table entry from DATA[0] (R143). -/
  | writeNode (node : Nat)
  /-- 0x05, format B: name the tree's root (R142). -/
  | setRoot (node : Nat)
  /-- 0x06, format AB: write one code-table entry from DATA (R146). -/
  | writeCode (sym len : Nat)
  /-- 0x07, format B: store one buffer word from DATA[0] (R160). -/
  | bufWrite (index : Nat)
  /-- 0x08, format B: copy one buffer word into DATA[0] (R161). -/
  | bufRead (index : Nat)
  /-- 0x09, format N: declare the buffer's length (R162). -/
  | setLength
  /-- 0x10, format N: start an encode session (R186). -/
  | encInit
  /-- 0x11, format A: append the code of one symbol (R187). -/
  | encSym (sym : Nat)
  /-- 0x12, format A: append a code given in DATA (R188). -/
  | encBits (len : Nat)
  /-- 0x13, format N: end the encode session (R189). -/
  | encEnd
  /-- 0x20, format N: start a decode session (R212). -/
  | decInit
  /-- 0x21, format N: consume one bit (R213). -/
  | decBit
  /-- 0x22, format N: consume bits until a symbol is emitted (R214). -/
  | decSym
  /-- 0x23, format N: end the decode session (R215). -/
  | decEnd
  deriving DecidableEq, Repr

end Sys2Proof
end

