-- ==== Sys2Proof/WellFormed.lean ====
section
/-! DEFINITION. When a command has an encoding: each operand fits the field that carries it (30_encoding.md R90, R92).
Range checks that depend on the parameters (a node index below MAX_NODES, …) are the command's own and belong to its
meaning, since a command that fails one is executed and raises an error. -/

namespace Sys2Proof

/-- The value fits field A, `cmd[31:16]` (R90). -/
def fitsFieldA (n : Nat) : Bool := decide (n < 2 ^ 16)

/-- The value fits field B, `cmd[63:32]` (R90). -/
def fitsFieldB (n : Nat) : Bool := decide (n < 2 ^ 32)

/-- Every operand fits its field. -/
def Instr.wf : Instr → Bool
  | .nop => true
  | .reset => true
  | .abort => true
  | .clrTables => true
  | .writeNode node => fitsFieldB node
  | .setRoot node => fitsFieldB node
  | .writeCode sym len => fitsFieldA sym && fitsFieldB len
  | .bufWrite index => fitsFieldB index
  | .bufRead index => fitsFieldB index
  | .setLength => true
  | .encInit => true
  | .encSym sym => fitsFieldA sym
  | .encBits len => fitsFieldA len
  | .encEnd => true
  | .decInit => true
  | .decBit => true
  | .decSym => true
  | .decEnd => true

end Sys2Proof
end

