-- ==== Sys2Proof/Decode.lean ====
section
/-! DEFINITION. The command word (30_encoding.md): its fields, the decoder (total on 64-bit words, rejecting by name)
and the encoder, both written from R90 to R95. -/

namespace Sys2Proof

/-- The five formats of R92. -/
inductive Format where
  | z | n | a | b | ab
  deriving DecidableEq, Repr

/-- Why a word is no command. Both make the block raise BAD_COMMAND outside FAULT (R96). -/
inductive DecodeError where
  /-- A reserved OPC (R94). -/
  | reservedOpcode
  /-- A 1 in a must-be-zero bit of the opcode's format (R95). -/
  | reservedBits
  deriving DecidableEq, Repr

/-- OPC, `cmd[7:0]` (R90). -/
def opcField (w : Reg) : Nat := (w.extractLsb' 0 8).toNat

/-- A, `cmd[31:16]`, zero-extended (R90, R91). -/
def fieldA (w : Reg) : Nat := (w.extractLsb' 16 16).toNat

/-- B, `cmd[63:32]`, zero-extended (R90, R91). -/
def fieldB (w : Reg) : Nat := (w.extractLsb' 32 32).toNat

/-- The must-be-zero bits of each format (R92). -/
def Format.mustBeZero : Format → Reg
  | .z => 0x0000000000000000#64
  | .n => 0xFFFFFFFFFFFFFF00#64
  | .a => 0xFFFFFFFF0000FF00#64
  | .b => 0x00000000FFFFFF00#64
  | .ab => 0x000000000000FF00#64

/-- The OPC of each command (R93). -/
def Instr.opc : Instr → Nat
  | .nop => 0x00
  | .reset => 0x01
  | .abort => 0x02
  | .clrTables => 0x03
  | .writeNode _ => 0x04
  | .setRoot _ => 0x05
  | .writeCode _ _ => 0x06
  | .bufWrite _ => 0x07
  | .bufRead _ => 0x08
  | .setLength => 0x09
  | .encInit => 0x10
  | .encSym _ => 0x11
  | .encBits _ => 0x12
  | .encEnd => 0x13
  | .decInit => 0x20
  | .decBit => 0x21
  | .decSym => 0x22
  | .decEnd => 0x23

/-- The format of each command (R93). -/
def Instr.format : Instr → Format
  | .nop => .z
  | .reset => .z
  | .abort => .z
  | .clrTables => .n
  | .writeNode _ => .b
  | .setRoot _ => .b
  | .writeCode _ _ => .ab
  | .bufWrite _ => .b
  | .bufRead _ => .b
  | .setLength => .n
  | .encInit => .n
  | .encSym _ => .a
  | .encBits _ => .a
  | .encEnd => .n
  | .decInit => .n
  | .decBit => .n
  | .decSym => .n
  | .decEnd => .n

/-- The command that an OPC and the two fields name, if the OPC is not reserved (R93, R94). -/
def commandOf (opc a b : Nat) : Option Instr :=
  match opc with
  | 0x00 => some .nop
  | 0x01 => some .reset
  | 0x02 => some .abort
  | 0x03 => some .clrTables
  | 0x04 => some (.writeNode b)
  | 0x05 => some (.setRoot b)
  | 0x06 => some (.writeCode a b)
  | 0x07 => some (.bufWrite b)
  | 0x08 => some (.bufRead b)
  | 0x09 => some .setLength
  | 0x10 => some .encInit
  | 0x11 => some (.encSym a)
  | 0x12 => some (.encBits a)
  | 0x13 => some .encEnd
  | 0x20 => some .decInit
  | 0x21 => some .decBit
  | 0x22 => some .decSym
  | 0x23 => some .decEnd
  | _ => none

/-- The decode steps of R96 that do not depend on the mode: reserved opcode first, then reserved bits. -/
def decode (w : Reg) : Except DecodeError Instr :=
  match commandOf (opcField w) (fieldA w) (fieldB w) with
  | none => .error .reservedOpcode
  | some i => if w &&& i.format.mustBeZero = 0#64 then .ok i else .error .reservedBits

/-- The value of field A in a command's word; 0 where the format has no A (R92, R93). -/
def Instr.valueA : Instr → Nat
  | .writeCode sym _ => sym
  | .encSym sym => sym
  | .encBits len => len
  | .nop | .reset | .abort | .clrTables | .writeNode _ | .setRoot _ | .bufWrite _ | .bufRead _ | .setLength => 0
  | .encInit | .encEnd | .decInit | .decBit | .decSym | .decEnd => 0

/-- The value of field B in a command's word; 0 where the format has no B (R92, R93). -/
def Instr.valueB : Instr → Nat
  | .writeNode node => node
  | .setRoot node => node
  | .writeCode _ len => len
  | .bufWrite index => index
  | .bufRead index => index
  | .nop | .reset | .abort | .clrTables | .setLength => 0
  | .encInit | .encSym _ | .encBits _ | .encEnd | .decInit | .decBit | .decSym | .decEnd => 0

/-- The word `OPC | (A << 16) | (B << 32)`, every other bit 0 (30_encoding.md R99). For a well-formed command no field
overflows into another. -/
def encode (i : Instr) : Reg :=
  BitVec.ofNat 64 i.opc ||| (BitVec.ofNat 64 i.valueA <<< 16) ||| (BitVec.ofNat 64 i.valueB <<< 32)

/-- The command word whose low `nbits` bits are those of `w`, every higher bit 0. A command word is delivered by one
64-bit CMD write, so it has no byte order of its own (R98, 20_memory.md R69). -/
def tableWord (nbits w : Nat) : Reg := BitVec.ofNat 64 (w % 2 ^ nbits)

/-- The command the decoder reads from a table row's word (spec/opcode_table.json numbers bit 0 as R10 does). -/
def decodeTableWord (nbits w : Nat) : Option Instr :=
  match decode (tableWord nbits w) with
  | .ok i => some i
  | .error _ => none

end Sys2Proof
end

