-- ==== Sys2Proof/Machine/State.lean ====
section
/-! DEFINITION. The state of the machine as plain data: the block (10_state.md), its host's side of the register bus
(00_scope.md R17), and the reasons a step can stop. -/

namespace Sys2Proof.Machine

/-- STATUS.MODE (R23, R42). -/
inductive Mode where
  | idle | encode | decode | fault
  deriving DecidableEq, Repr

/-- STATUS.ERR (60_exceptions.md R240). `emptyInput` is reserved and never raised; codes 11 to 15 do not exist. -/
inductive ErrCode where
  | noError | emptyInput | codeNotFound | truncatedCode | zeroLengthCode | degenerateTree | badTree | bufferOverflow
  | lengthMismatch | badCommand | wrongMode
  deriving DecidableEq, Repr

/-- A node-table entry (R33). SYM is meaningful for a LEAF only, LEFT and RIGHT for an INTERNAL only, so each kind holds
the fields that have a meaning (log 10). KIND 3 is never stored. -/
inductive Node where
  | invalid
  | leaf (sym : BitVec 16)
  | internal (left right : BitVec 16)
  deriving DecidableEq, Repr

/-- A code-table entry with VALID = 1 (R36). `words` holds CODE_WORDS words of W bits. -/
structure CodeEntry where
  len : Nat
  words : List Word
  deriving DecidableEq, Repr

/-- The buffer RAM (R31): the words something has written, by word index, in the canonical form `Memory.wf` (log 9). -/
abbrev Memory := List (Nat × Word)

/-- What the host program does next (R17, 30_encoding.md R99, R100). Addresses are byte addresses; `bytes` is the width
of the access. -/
inductive HostOp where
  /-- `RD`: read the register at `addr`. -/
  | read (addr bytes : Nat)
  /-- `WR`: write `v` to the register at `addr`. -/
  | write (addr bytes : Nat) (v : Reg)
  /-- `WAIT`: read STATUS until BUSY is 0 (R100, 70_reset_and_hazards.md R273). -/
  | wait
  /-- `CHECK`: read STATUS; the program fails if ERR is not 0 (R100). -/
  | check
  deriving DecidableEq, Repr

/-- Who moves at one step of the schedule (70_reset_and_hazards.md R274, 93_implementation_defined.md I7; log 5). -/
inductive Turn where
  /-- The host performs its next register access. -/
  | host
  /-- The block executes the latched command, if there is one. -/
  | block
  /-- The reset input is driven to this level (R270). -/
  | rst (level : Bool)
  deriving DecidableEq, Repr

/-- The whole machine. The fields down to `codes` are the block's (R20 to R41); BUSY is not a field, since it is 1
exactly when `pending` holds a word (R41), and CMD is not, since it reads as 0 (R22). -/
structure State where
  /-- CFG_* (R21): the parameters, constant. -/
  cfg : Params
  /-- PENDING (R41): the command latch. -/
  pending : Option Reg
  /-- STATUS.MODE (R42). -/
  mode : Mode
  /-- STATUS.SYM_VALID (R43). -/
  symValid : Bool
  /-- STATUS.EOS (R43). -/
  eos : Bool
  /-- STATUS.OVR (R43). -/
  ovr : Bool
  /-- STATUS.ERR (R23). -/
  err : ErrCode
  /-- ERR_CMD (R24). -/
  errCmd : Reg
  /-- DATA[0..NDATA-1] (R25). -/
  data : List Reg
  /-- TOTAL (R27). -/
  total : Reg
  /-- FILL (R28). -/
  fill : Reg
  /-- WORD_COUNT (R29). -/
  wordCount : Reg
  /-- BLOCK_COUNT (R30). -/
  blockCount : Reg
  /-- ROOT (R35). -/
  root : Reg
  /-- CURSOR (R37). -/
  cursor : Reg
  /-- BIT_POS (R38). -/
  bitPos : Reg
  /-- OUT_SYM (R39). -/
  outSym : Reg
  /-- COUNT (R40). -/
  count : Reg
  /-- The buffer RAM (R31). -/
  buf : Memory
  /-- The node table (R33): the entries that are not INVALID, by index, indices strictly rising. -/
  nodes : List (Nat × Node)
  /-- The code table (R36): the entries with VALID = 1, by symbol, symbols strictly rising. -/
  codes : List (Nat × CodeEntry)
  /-- The level of the reset input `rst` (70_reset_and_hazards.md R270). -/
  rst : Bool
  /-- The host's remaining accesses, in program order (20_memory.md R73). -/
  host : List HostOp
  /-- The schedule: who moves at each coming step (log 5). -/
  turns : List Turn
  /-- The values the host's reads have returned, oldest first (R62). -/
  responses : List Reg
  /-- The MODEL's own counter of free values drawn (R46, R62; log 2). -/
  draws : Nat
  deriving DecidableEq, Repr

/-- What stops the machine. -/
inductive Fault where
  /-- Raised by an append or a decoder bit step whose buffer word index is not below CAP_WORDS, an address that does not
  exist (20_memory.md R66). No state that meets the block's invariants reaches it. Safe (log 12). -/
  | bufferIndexOutOfRange
  /-- Raised by a decoder bit step with BIT_POS not below TOTAL, for which 44_decoder.md R210 gives no effect ("It is
  called only when … BIT_POS < TOTAL"). No state that meets the block's invariants reaches it. Safe (log 13). -/
  | walkPastEnd
  /-- Raised by the host program's CHECK when it reads a STATUS with ERR not 0: the program fails (30_encoding.md
  R100). Safe (log 14). -/
  | checkFailed
  deriving DecidableEq, Repr

/-- What the model gives no meaning to. -/
inductive Refusal where
  /-- Raised by the dispatcher for a command that has no meaning yet. Safe. -/
  | notModelled (mnemonic : String)
  /-- Raised by a host access that is not 64 bits wide (20_memory.md R64: "A model refuses such an access"). Safe. -/
  | accessWidth
  /-- Raised by a host access outside the 0x200-byte window (R64). Safe. -/
  | accessOutsideWindow
  /-- Raised by a host access at an offset that is not a multiple of 8 (R64). Safe. -/
  | accessMisaligned
  /-- Raised by a host access while `rst` is asserted (70_reset_and_hazards.md R270: "a model refuses them"). Safe. -/
  | accessDuringReset
  deriving DecidableEq, Repr

/-- The outcome of a step or of a command. -/
abbrev Result := Host.Outcome State Fault Refusal

/-- The reset state of a block with parameters `c` (R44), with an empty host program. Buffer word 0 is 0 and the other
words are unwritten: `Memory.unlisted` says so of an empty memory. -/
def State.resetWith (c : Params) : State where
  cfg := c
  pending := none
  mode := .idle
  symValid := false
  eos := false
  ovr := false
  err := .noError
  errCmd := 0#64
  data := List.replicate c.ndata 0#64
  total := 0#64
  fill := 0#64
  wordCount := 1#64
  blockCount := 1#64
  root := 0#64
  cursor := 0#64
  bitPos := 0#64
  outSym := 0#64
  count := 0#64
  buf := []
  nodes := []
  codes := []
  rst := false
  host := []
  turns := []
  responses := []
  draws := 0

/-- The machine right after reset, in the reference configuration (R8, R44). -/
def State.reset : State := State.resetWith Params.reference

end Sys2Proof.Machine
end

