-- ==== Sys2Proof/Machine/Cells.lean ====
section
/-! DEFINITION. A sparse table as a list of (index, entry) pairs with strictly rising indices, and the buffer RAM, the
node table and the code table built from it. Each has one canonical form, so equal contents are equal data. -/

namespace Sys2Proof.Machine

/-- The entry listed at index `i`. -/
def cellGet {α : Type} : List (Nat × α) → Nat → Option α
  | [], _ => none
  | (j, v) :: rest, i => if i = j then some v else cellGet rest i

/-- List `v` at index `i`, in place of what was listed there. -/
def cellSet {α : Type} : List (Nat × α) → Nat → α → List (Nat × α)
  | [], i, v => [(i, v)]
  | (j, u) :: rest, i, v =>
    if i < j then (i, v) :: (j, u) :: rest
    else if i = j then (i, v) :: rest
    else (j, u) :: cellSet rest i v

/-- Take index `i` off the list. -/
def cellErase {α : Type} : List (Nat × α) → Nat → List (Nat × α)
  | [], _ => []
  | (j, u) :: rest, i => if i = j then cellErase rest i else (j, u) :: cellErase rest i

/-- Every index of the list is above `i`. -/
def cellsAbove {α : Type} (i : Nat) : List (Nat × α) → Bool
  | [] => true
  | (j, _) :: rest => decide (i < j) && cellsAbove i rest

/-- The indices rise strictly. -/
def cellsRising {α : Type} : List (Nat × α) → Bool
  | [] => true
  | (j, _) :: rest => cellsAbove j rest && cellsRising rest

/-- Every listed pair passes the test. -/
def cellsAll {α : Type} (p : Nat → α → Bool) : List (Nat × α) → Bool
  | [] => true
  | (j, v) :: rest => p j v && cellsAll p rest

/-- What a buffer word that is not listed holds: reset writes 0 to word 0 and leaves every other word unwritten
(10_state.md R44, R46). -/
def Memory.unlisted (i : Nat) : Option Word := if i = 0 then some 0#64 else none

/-- The value of buffer word `i`, or `none` if nothing has written it since reset (R46, 20_memory.md R66). -/
def Memory.read (m : Memory) (i : Nat) : Option Word :=
  match cellGet m i with
  | some v => some v
  | none => Memory.unlisted i

/-- Store `v` at buffer word `i`, keeping the canonical form (R66). -/
def Memory.write (m : Memory) (i : Nat) (v : Word) : Memory :=
  if Memory.unlisted i = some v then cellErase m i else cellSet m i v

/-- The canonical form: indices strictly rising, and no entry equal to what an unlisted word holds. -/
def Memory.wf (m : Memory) : Bool :=
  cellsRising m && cellsAll (fun i v => decide (Memory.unlisted i ≠ some v)) m

/-- `Node(i)` (R33): an index that is not listed is INVALID. -/
def nodeGet (t : List (Nat × Node)) (i : Nat) : Node :=
  match cellGet t i with
  | some q => q
  | none => .invalid

/-- Write `Node(i)` whole; an INVALID entry is taken off the list. -/
def nodeSet (t : List (Nat × Node)) (i : Nat) (q : Node) : List (Nat × Node) :=
  if q = .invalid then cellErase t i else cellSet t i q

/-- The canonical form of the node table. -/
def nodesWf (t : List (Nat × Node)) : Bool :=
  cellsRising t && cellsAll (fun _ q => decide (q ≠ .invalid)) t

/-- `Code(s)` (R36): `none` is an entry with VALID = 0. -/
def codeGet (t : List (Nat × CodeEntry)) (s : Nat) : Option CodeEntry := cellGet t s

/-- Write `Code(s)` whole, with VALID = 1. -/
def codeSet (t : List (Nat × CodeEntry)) (s : Nat) (e : CodeEntry) : List (Nat × CodeEntry) := cellSet t s e

end Sys2Proof.Machine
end

