-- ==== Sys2Proof/Machine/Operands.lean ====
section
/-! DEFINITION. Operand forms: W-bit words and their arithmetic (00_scope.md R10 to R16), the code words and the node
entry that commands read from DATA (10_state.md R25, R34). -/

namespace Sys2Proof.Machine

/-- The W-bit word with every bit 1. -/
def lowMask (w : Nat) : Word := BitVec.ofNat 64 (2 ^ w - 1)

/-- `v[W-1:0]`: the low W bits of a 64-bit value (R25). -/
def wordOf (w : Nat) (v : Reg) : Word := v &&& lowMask w

/-- `x >> s` on W-bit words (R11): 0 for `s ≥ W`, since a W-bit word is below `2^W`. -/
def wordShr (x : Word) (s : Nat) : Word := x >>> s

/-- `x << s` on W-bit words, truncated to W bits (R11): 0 for `s ≥ W` (R12). -/
def wordShl (w : Nat) (x : Word) (s : Nat) : Word := (x <<< s) &&& lowMask w

/-- `hi_mask(n)`, for `n ≤ W`: the W-bit word whose top `n` bits are 1 (R11). -/
def hiMask (w n : Nat) : Word := BitVec.ofNat 64 (2 ^ w - 2 ^ (w - n))

/-- `mask_code` from code word `i` on: keep the bits of the words that are among the first `len` code bits (R16). -/
def maskCodeFrom (w len : Nat) : Nat → List Word → List Word
  | _, [] => []
  | i, c :: rest =>
    (if (i + 1) * w ≤ len then c else if i * w < len then c &&& hiMask w (len - i * w) else 0#64)
      :: maskCodeFrom w len (i + 1) rest

/-- `mask_code(c, len)` (R16). -/
def maskCode (w len : Nat) (c : List Word) : List Word := maskCodeFrom w len 0 c

/-- Code bit `k` of the code words `c`: bit `W-1-(k mod W)` of `c[k div W]` (R15). -/
def codeBit (w : Nat) (c : List Word) (k : Nat) : Bool := (c.getD (k / w) 0#64).getLsbD (w - 1 - k % w)

/-- DATA[i]; a DATA register that does not exist reads as 0, like any unmapped offset (20_memory.md R65). -/
def dataGet (s : State) (i : Nat) : Reg := s.data.getD i 0#64

/-- Write DATA[i]; a DATA register that does not exist discards the write (R65). -/
def dataSet (s : State) (i : Nat) (v : Reg) : State := { s with data := s.data.set i v }

/-- The code words `c[k] = DATA[k][W-1:0]`, `k < CODE_WORDS`, as a command reads them (R25, 41_tables.md R146). -/
def dataCode (s : State) : List Word := (s.data.take s.cfg.codeWords).map (wordOf s.cfg.w)

/-- KIND of a node-entry word, `e[63:62]` (R34). -/
def nodeKind (e : Reg) : Nat := (e.extractLsb' 62 2).toNat

/-- The reserved bits of a node-entry word, `e[61:48]` (R34). -/
def nodeReserved (e : Reg) : BitVec 14 := e.extractLsb' 48 14

/-- SYM of a node-entry word, `e[47:32]` (R34). -/
def nodeSym (e : Reg) : BitVec 16 := e.extractLsb' 32 16

/-- LEFT of a node-entry word, `e[31:16]` (R34). -/
def nodeLeft (e : Reg) : BitVec 16 := e.extractLsb' 16 16

/-- RIGHT of a node-entry word, `e[15:0]` (R34). -/
def nodeRight (e : Reg) : BitVec 16 := e.extractLsb' 0 16

/-- `node_word_ok(e)` (41_tables.md R144). -/
def nodeWordOk (c : Params) (e : Reg) : Bool :=
  decide (nodeReserved e = 0#14) &&
  match nodeKind e with
  | 0 => decide (nodeSym e = 0#16) && decide (nodeLeft e = 0#16) && decide (nodeRight e = 0#16)
  | 1 => decide ((nodeSym e).toNat < 2 ^ c.symW) && decide (nodeLeft e = 0#16) && decide (nodeRight e = 0#16)
  | 2 => decide (nodeSym e = 0#16) && decide ((nodeLeft e).toNat < c.maxNodes) &&
      decide ((nodeRight e).toNat < c.maxNodes)
  | _ => false

/-- The entry that WRITE_NODE stores for an entry word that passes `nodeWordOk` (R143). -/
def nodeOfWord (e : Reg) : Node :=
  match nodeKind e with
  | 1 => .leaf (nodeSym e)
  | 2 => .internal (nodeLeft e) (nodeRight e)
  | _ => .invalid

/-- The node that a register names: `Node(r)` for a 64-bit index (R33). -/
def nodeAt (s : State) (r : Reg) : Node := nodeGet s.nodes r.toNat

end Sys2Proof.Machine
end

