-- ==== Sys2Proof/Machine/Flags.lean ====
section
/-! DEFINITION. STATUS (10_state.md R23): its fields' codes, the word the host reads, and the flag updates that several
commands share (R43). -/

namespace Sys2Proof.Machine

/-- STATUS.MODE's two bits (R23). -/
def Mode.code : Mode → Nat
  | .idle => 0
  | .encode => 1
  | .decode => 2
  | .fault => 3

/-- STATUS.ERR's four bits (60_exceptions.md R240). -/
def ErrCode.code : ErrCode → Nat
  | .noError => 0
  | .emptyInput => 1
  | .codeNotFound => 2
  | .truncatedCode => 3
  | .zeroLengthCode => 4
  | .degenerateTree => 5
  | .badTree => 6
  | .bufferOverflow => 7
  | .lengthMismatch => 8
  | .badCommand => 9
  | .wrongMode => 10

/-- BUSY is 1 exactly when PENDING holds a word (R41). -/
def busy (s : State) : Bool := s.pending.isSome

/-- The value of STATUS: BUSY bit 0, MODE bits 2:1, SYM_VALID bit 3, EOS bit 4, OVR bit 5, ERR bits 11:8, every other
bit 0 (R23). -/
def statusWord (s : State) : Reg :=
  BitVec.ofNat 64 ((busy s).toNat + s.mode.code * 2 + s.symValid.toNat * 8 + s.eos.toNat * 16 + s.ovr.toNat * 32 +
    s.err.code * 256)

/-- The session flags that ENC_INIT clears and DEC_INIT sets: SYM_VALID to 0 and EOS to `e` (R43). -/
def startFlags (e : Bool) (s : State) : State := { s with symValid := false, eos := e }

/-- SYM_VALID <- 0, the start of every DEC_BIT and DEC_SYM (R43). -/
def clearSymValid (s : State) : State := { s with symValid := false }

/-- All three flags to 0, as ABORT leaves them (R43, 40_control.md R122). -/
def clearFlags (s : State) : State := { s with symValid := false, eos := false, ovr := false }

/-- OVR <- 1, a dropped host write (60_exceptions.md R250). -/
def setOvr (s : State) : State := { s with ovr := true }

end Sys2Proof.Machine
end

