-- ==== Sys2Proof/Machine/Ops.lean ====
section
/-! DEFINITION. The operations that commands share: buffer reads and writes (20_memory.md R66), the error mechanism
(60_exceptions.md R242) and the return from it, the mode check (30_encoding.md R96, R97), and the reset
(70_reset_and_hazards.md R270). -/

namespace Sys2Proof.Machine

/-- A fresh unspecified 64-bit value, and the state with the draw counted (10_state.md R46, log 1). -/
def drawFree (s : State) : Reg × State := (Config.freeValue s.draws, { s with draws := s.draws + 1 })

/-- `BufRead(i)` (R66). A word nothing has written since reset reads as a free W-bit value, drawn anew at each read
(R46). -/
def bufRead (s : State) (i : Nat) : Word × State :=
  match Memory.read s.buf i with
  | some v => (v, s)
  | none => (wordOf s.cfg.w (drawFree s).1, (drawFree s).2)

/-- `BufWrite(i, v)`: store the W-bit value `v` at word `i` (R66). -/
def bufWrite (s : State) (i : Nat) (v : Word) : State := { s with buf := Memory.write s.buf i (wordOf s.cfg.w v) }

/-- Set TOTAL and FILL, and with them WORD_COUNT and BLOCK_COUNT = ceil(WORD_COUNT / ARRAY_SIZE) (10_state.md R30). -/
def setExtent (s : State) (total fill words : Nat) : State :=
  { s with
    total := BitVec.ofNat 64 total
    fill := BitVec.ofNat 64 fill
    wordCount := BitVec.ofNat 64 words
    blockCount := BitVec.ofNat 64 (ceilDiv words s.cfg.arraySize) }

/-- COUNT <- COUNT + 1, modulo 2^64 (R40). -/
def countUp (s : State) : State := { s with count := s.count + 1#64 }

/-- TAKING AN ERROR (R242): `raise e` during the execution of the command word `cmd`. BUSY is cleared by the end of
the command, as for any completed command. -/
def raise (e : ErrCode) (cmd : Reg) (s : State) : State :=
  { s with err := e, errCmd := cmd, symValid := false, mode := .fault }

/-- THE RETURN FROM AN ERROR (40_control.md R122, 60_exceptions.md R248): the effect of ABORT. -/
def clearError (s : State) : State :=
  clearFlags { s with mode := .idle, err := .noError, errCmd := 0#64 }

/-- Command `i` raises `e`. Its command word is `encode i`: only commands whose format fixes every bit of the word raise
(log 11). -/
def fail (e : ErrCode) (i : Instr) (s : State) : Result := .next (raise e (encode i) s)

/-- The modes in which a command is legal (R97). -/
def legalIn : Instr → Mode → Bool
  | .nop, _ => true
  | .reset, _ => true
  | .abort, _ => true
  | .clrTables, m => m == .idle
  | .writeNode _, m => m == .idle
  | .setRoot _, m => m == .idle
  | .writeCode _ _, m => m == .idle
  | .bufWrite _, m => m == .idle
  | .bufRead _, m => m == .idle || m == .encode || m == .decode
  | .setLength, m => m == .idle
  | .encInit, m => m == .idle || m == .encode || m == .decode
  | .encSym _, m => m == .encode
  | .encBits _, m => m == .encode
  | .encEnd, m => m == .encode
  | .decInit, m => m == .idle || m == .encode || m == .decode
  | .decBit, m => m == .decode
  | .decSym, m => m == .decode
  | .decEnd, m => m == .decode

/-- The mode steps of R96, around the effect of a command of format N, A, B or AB: in FAULT the command is ignored
(60_exceptions.md R244), in a mode where it is not legal it raises WRONG_MODE, else it does `effect`. -/
def whenLegal (i : Instr) (s : State) (effect : Result) : Result :=
  if s.mode = .fault then .next s
  else if legalIn i s.mode then effect
  else fail .wrongMode i s

/-- Every piece of the block's state at its reset value (R270, R271); the parameters stay, and the host's side is not
the block's. -/
def resetBlock (s : State) : State :=
  { State.resetWith s.cfg with
    rst := s.rst
    host := s.host
    turns := s.turns
    responses := s.responses
    draws := s.draws }

/-- The end of a command: PENDING <- empty, BUSY <- 0 (R274). -/
def endCommand (s : State) : State := { s with pending := none }

/-- The end of a command on an outcome; a fault or a refusal stays. -/
def complete : Result → Result
  | .next s => .next (endCommand s)
  | .fault f => .fault f
  | .refused r => .refused r

end Sys2Proof.Machine
end

