-- ==== Sys2Proof/Machine/Bus.lean ====
section
/-! DEFINITION. The register window (20_memory.md): the register map of R61, which accesses are admitted (R64), what a
read returns (R62) and what a write does (R63), and the host's moves. -/

namespace Sys2Proof.Machine

/-- The registers of the window (R61). -/
inductive RegName where
  | cfgW | cfgSymW | cfgArraySize | cfgNumBlocks | cfgMaxNodes | cfgLMax | cfgCodeWords
  | cmd | status | errCmd | total | fill | wordCount | blockCount | root | bitPos | cursor | outSym | count
  | data (i : Nat)
  deriving DecidableEq, Repr

/-- The size of the window in bytes (R60). -/
def windowBytes : Nat := 0x200

/-- Where the DATA registers begin (R61). -/
def dataOffset : Nat := 0x100

/-- The register at a byte offset; `none` is an unmapped offset (R61). -/
def regAt (c : Params) (off : Nat) : Option RegName :=
  if dataOffset ≤ off then
    if (off - dataOffset) % 8 = 0 ∧ (off - dataOffset) / 8 < c.ndata then some (.data ((off - dataOffset) / 8))
    else none
  else match off with
  | 0x000 => some .cfgW
  | 0x008 => some .cfgSymW
  | 0x010 => some .cfgArraySize
  | 0x018 => some .cfgNumBlocks
  | 0x020 => some .cfgMaxNodes
  | 0x028 => some .cfgLMax
  | 0x030 => some .cfgCodeWords
  | 0x040 => some .cmd
  | 0x048 => some .status
  | 0x050 => some .errCmd
  | 0x080 => some .total
  | 0x088 => some .fill
  | 0x090 => some .wordCount
  | 0x098 => some .blockCount
  | 0x0A0 => some .root
  | 0x0A8 => some .bitPos
  | 0x0B0 => some .cursor
  | 0x0B8 => some .outSym
  | 0x0C0 => some .count
  | _ => none

/-- The byte offset of a register (R61). -/
def RegName.offset : RegName → Nat
  | .cfgW => 0x000
  | .cfgSymW => 0x008
  | .cfgArraySize => 0x010
  | .cfgNumBlocks => 0x018
  | .cfgMaxNodes => 0x020
  | .cfgLMax => 0x028
  | .cfgCodeWords => 0x030
  | .cmd => 0x040
  | .status => 0x048
  | .errCmd => 0x050
  | .total => 0x080
  | .fill => 0x088
  | .wordCount => 0x090
  | .blockCount => 0x098
  | .root => 0x0A0
  | .bitPos => 0x0A8
  | .cursor => 0x0B0
  | .outSym => 0x0B8
  | .count => 0x0C0
  | .data i => dataOffset + 8 * i

/-- The current value of a register; CMD reads as 0 (10_state.md R20 to R22). -/
def regValue (s : State) : RegName → Reg
  | .cfgW => BitVec.ofNat 64 s.cfg.w
  | .cfgSymW => BitVec.ofNat 64 s.cfg.symW
  | .cfgArraySize => BitVec.ofNat 64 s.cfg.arraySize
  | .cfgNumBlocks => BitVec.ofNat 64 s.cfg.numBlocks
  | .cfgMaxNodes => BitVec.ofNat 64 s.cfg.maxNodes
  | .cfgLMax => BitVec.ofNat 64 s.cfg.lMax
  | .cfgCodeWords => BitVec.ofNat 64 s.cfg.codeWords
  | .cmd => 0#64
  | .status => statusWord s
  | .errCmd => s.errCmd
  | .total => s.total
  | .fill => s.fill
  | .wordCount => s.wordCount
  | .blockCount => s.blockCount
  | .root => s.root
  | .bitPos => s.bitPos
  | .cursor => s.cursor
  | .outSym => s.outSym
  | .count => s.count
  | .data i => dataGet s i

/-- The registers whose reads are defined while BUSY = 1: STATUS and the CFG registers (R62). -/
def definedWhileBusy : RegName → Bool
  | .cfgW | .cfgSymW | .cfgArraySize | .cfgNumBlocks | .cfgMaxNodes | .cfgLMax | .cfgCodeWords => true
  | .status => true
  | .cmd | .errCmd | .total | .fill | .wordCount | .blockCount | .root | .bitPos | .cursor | .outSym | .count => false
  | .data _ => false

/-- The offset of an admitted access: 64 bits wide, inside the window, at a multiple of 8 (R64). Any other access is
refused by name. -/
def admitAccess (c : Params) (addr bytes : Nat) : Except Refusal Nat :=
  if bytes ≠ 8 then .error .accessWidth
  else if addr < c.base ∨ c.base + windowBytes ≤ addr then .error .accessOutsideWindow
  else if (addr - c.base) % 8 ≠ 0 then .error .accessMisaligned
  else .ok (addr - c.base)

/-- `Read(off)` (R62): the value, and the state, which only a free value's draw changes. -/
def busRead (s : State) (off : Nat) : Reg × State :=
  match regAt s.cfg off with
  | some r => if busy s = false ∨ definedWhileBusy r = true then (regValue s r, s) else drawFree s
  | none => if busy s = false then (0#64, s) else drawFree s

/-- `Write(off, v)` (R63): dropped with OVR set while BUSY = 1, else a CMD write latches the command, a DATA write
stores, and any other write is ignored. -/
def busWrite (s : State) (off : Nat) (v : Reg) : State :=
  if busy s then setOvr s
  else match regAt s.cfg off with
  | some .cmd => { s with pending := some v }
  | some (.data i) => dataSet s i v
  | _ => s

/-- The host receives a read's value. -/
def respond (s : State) (v : Reg) : State := { s with responses := s.responses ++ [v] }

/-- One access of the host program, already taken off it. A `wait` whose STATUS read shows BUSY = 1 is put back, so it
reads again at the host's next turn (R100). -/
def hostAccess (op : HostOp) (s : State) : Result :=
  match op with
  | .read addr bytes =>
    match admitAccess s.cfg addr bytes with
    | .ok off => .next (respond (busRead s off).2 (busRead s off).1)
    | .error r => .refused r
  | .write addr bytes v =>
    match admitAccess s.cfg addr bytes with
    | .ok off => .next (busWrite s off v)
    | .error r => .refused r
  | .wait =>
    if busy s then .next { respond s (statusWord s) with host := .wait :: s.host }
    else .next (respond s (statusWord s))
  | .check => if s.err = .noError then .next (respond s (statusWord s)) else .fault .checkFailed

/-- While `rst` is asserted every piece of the block's state takes its reset value (70_reset_and_hazards.md R270). -/
def holdReset (s : State) : State := if s.rst then resetBlock s else s

/-- The host's turn: its next access, refused while `rst` is asserted (R270), or nothing if its program has ended. -/
def hostTurn (s : State) : Result :=
  match s.host with
  | [] => .next (holdReset s)
  | op :: rest => if s.rst then .refused .accessDuringReset else hostAccess op { s with host := rest }

/-- The reset input is driven to `level` (R270): the reset state holds while it is asserted, and remains when it is
deasserted. -/
def driveReset (level : Bool) (s : State) : State :=
  if level || s.rst then { resetBlock s with rst := level } else s

/-- Byte lane `k` of a register's value, bits `8k+7:8k` (20_memory.md R69). -/
def byteLane (v : Reg) (k : Nat) : BitVec 8 := v.extractLsb' (8 * k) 8

/-- Stream byte `q` of a buffer word, for `W` a multiple of 8 and `q < W/8`: bits `W-1-8q : W-8-8q` (R70). -/
def streamByte (w : Nat) (v : Word) (q : Nat) : BitVec 8 := v.extractLsb' (w - 8 - 8 * q) 8

end Sys2Proof.Machine
end

