-- ==== Sys2Proof/Machine/Buffer.lean ====
section
/-! DEFINITION. The buffer commands BUF_WRITE, BUF_READ and SET_LENGTH (42_buffer.md). -/

namespace Sys2Proof.Machine

/-- BUF_WRITE (R160). -/
def execBufWrite (index : Nat) (s : State) : Result :=
  whenLegal (.bufWrite index) s <|
    if s.cfg.capWords ≤ index then fail .badCommand (.bufWrite index) s
    else .next (bufWrite s index (dataGet s 0))

/-- BUF_READ (R161). A word is held zero-extended, so `zext_64` is the identity on it. -/
def execBufRead (index : Nat) (s : State) : Result :=
  whenLegal (.bufRead index) s <|
    if s.cfg.capWords ≤ index then fail .badCommand (.bufRead index) s
    else .next (dataSet (bufRead s index).2 0 (bufRead s index).1)

/-- SET_LENGTH (R162). -/
def execSetLength (s : State) : Result :=
  whenLegal .setLength s <|
    let t := (dataGet s 0).toNat
    let f := (dataGet s 1).toNat
    if s.cfg.capWords < t / s.cfg.w + 1 then fail .lengthMismatch .setLength s
    else if f ≠ t % s.cfg.w then fail .lengthMismatch .setLength s
    else .next (setExtent s t f (t / s.cfg.w + 1))

end Sys2Proof.Machine
end

