-- ==== Sys2Proof/Machine/Control.lean ====
section
/-! DEFINITION. The control commands NOP, RESET and ABORT (40_control.md). Format Z: legal in every mode, FAULT
included, and they raise no error. -/

namespace Sys2Proof.Machine

/-- NOP (R120). -/
def execNop (s : State) : Result := .next s

/-- RESET (R121). -/
def execReset (s : State) : Result := .next (resetBlock s)

/-- ABORT (R122). -/
def execAbort (s : State) : Result := .next (clearError s)

end Sys2Proof.Machine
end

