-- ==== Sys2Proof/Machine/Decoder.lean ====
section
/-! DEFINITION. The decoder (44_decoder.md): the bit step of R210, the walk of R214, and DEC_INIT, DEC_BIT, DEC_SYM and
DEC_END. -/

namespace Sys2Proof.Machine

/-- How one bit step ends (R210). -/
inductive BitStep where
  /-- A leaf was reached and its symbol emitted. -/
  | emitted (s : State)
  /-- The cursor moved to an internal node and bits are left. -/
  | moved (s : State)
  /-- The command ends with this error. -/
  | raised (e : ErrCode) (s : State)
  /-- The step has no meaning in this state. -/
  | stuck (f : Fault)

/-- Bit `W-1-(j mod W)` of a word: stream bit `j` if the word is word `j div W` (00_scope.md R14). -/
def bitOfWord (w : Nat) (v : Word) (j : Nat) : Bool := (wordShr v (w - 1 - j % w)).getLsbD 0

/-- A leaf is reached: emit its symbol and reset the cursor to the root; the stream ends here if all TOTAL bits are
consumed (R210, R211). -/
def emitSymbol (sym : BitVec 16) (s : State) : State :=
  countUp { s with
    outSym := sym.setWidth 64
    symValid := true
    cursor := s.root
    eos := s.eos || decide (s.bitPos = s.total) }

/-- The descent of R210 to the child `ch`, the bit being consumed. -/
def descend (ch : BitVec 16) (s : State) : BitStep :=
  let s1 := { s with bitPos := s.bitPos + 1#64 }
  match nodeGet s.nodes ch.toNat with
  | .invalid => .raised .badTree s
  | .leaf sym => .emitted (emitSymbol sym s1)
  | .internal _ _ =>
    let s2 := { s1 with cursor := ch.setWidth 64 }
    if s2.bitPos = s2.total then .raised .truncatedCode s2 else .moved s2

/-- `Step1()` (R210): consume one stream bit. -/
def step1 (s : State) : BitStep :=
  let j := s.bitPos.toNat
  if s.total.toNat ≤ j then .stuck .walkPastEnd
  else if s.cfg.capWords ≤ j / s.cfg.w then .stuck .bufferIndexOutOfRange
  else
    let b := bitOfWord s.cfg.w (bufRead s (j / s.cfg.w)).1 j
    let s0 := (bufRead s (j / s.cfg.w)).2
    match nodeAt s0 s0.cursor with
    | .internal l r => descend (if b then r else l) s0
    | .invalid => .raised .badTree s0
    | .leaf _ => .raised .badTree s0

/-- Repeat Step1 until it emits (R214), for at most `fuel` bits. -/
def walkSymbol : Nat → State → BitStep
  | 0, _ => .stuck .walkPastEnd
  | fuel + 1, s =>
    match step1 s with
    | .moved s' => walkSymbol fuel s'
    | .emitted s' => .emitted s'
    | .raised e s' => .raised e s'
    | .stuck f => .stuck f

/-- The outcome of command `i` whose last bit step ended so. -/
def endWalk (i : Instr) : BitStep → Result
  | .emitted s => .next s
  | .moved s => .next s
  | .raised e s => fail e i s
  | .stuck f => .fault f

/-- DEC_INIT (R212). -/
def execDecInit (s : State) : Result :=
  whenLegal .decInit s <|
    match nodeAt s s.root with
    | .invalid => fail .badTree .decInit s
    | .leaf _ => fail .degenerateTree .decInit s
    | .internal _ _ =>
      .next { startFlags (decide (s.total = 0#64)) s with
        cursor := s.root, bitPos := 0#64, count := 0#64, mode := .decode }

/-- DEC_BIT (R213). -/
def execDecBit (s : State) : Result :=
  whenLegal .decBit s <|
    if s.eos then .next (clearSymValid s)
    else endWalk .decBit (step1 (clearSymValid s))

/-- DEC_SYM (R214). It runs at most TOTAL - BIT_POS bit steps. -/
def execDecSym (s : State) : Result :=
  whenLegal .decSym s <|
    if s.eos then .next (clearSymValid s)
    else endWalk .decSym (walkSymbol (s.total.toNat - s.bitPos.toNat) (clearSymValid s))

/-- DEC_END (R215). -/
def execDecEnd (s : State) : Result := whenLegal .decEnd s (.next { s with mode := .idle })

end Sys2Proof.Machine
end

