-- ==== Sys2Proof/Machine/Encoder.lean ====
section
/-! DEFINITION. The encoder (43_encoder.md): the append of R181 in its three steps, and ENC_INIT, ENC_SYM, ENC_BITS and
ENC_END. -/

namespace Sys2Proof.Machine

/-- `fits(len)` (R180), on unbounded naturals. -/
def fits (s : State) (len : Nat) : Bool := decide ((s.total.toNat + len) / s.cfg.w + 1 ≤ s.cfg.capWords)

/-- `BufWrite(k, BufRead(k) | v)`. -/
def orWord (s : State) (k : Nat) (v : Word) : State := bufWrite (bufRead s k).2 k ((bufRead s k).1 ||| v)

/-- One iteration of step 2: a whole code word `c` at fill `f` of trailing word `k` (R181, R182). -/
def appendFullWord (f : Nat) (s : State) (k : Nat) (c : Word) : State :=
  bufWrite (orWord s k (wordShr c f)) (k + 1) (wordShl s.cfg.w c (s.cfg.w - f))

/-- Step 2: every code word except the last; the fill is unchanged (R182). -/
def appendFullWords (f : Nat) : State → Nat → List Word → State
  | s, _, [] => s
  | s, k, c :: rest => appendFullWords f (appendFullWord f s k c) (k + 1) rest

/-- Step 3: the final code word with its `last` valid bits, into trailing word `k` at fill `f` (R181, R183). -/
def appendLastWord (f last : Nat) (s : State) (k : Nat) (c : Word) : State :=
  let cl := c &&& hiMask s.cfg.w last
  let s1 := orWord s k (wordShr cl f)
  if last + f < s.cfg.w then s1
  else if last + f = s.cfg.w then bufWrite s1 (k + 1) 0#64
  else bufWrite s1 (k + 1) (wordShl s.cfg.w cl (s.cfg.w - f))

/-- FILL after step 3 (R183). -/
def fillAfter (w f last : Nat) : Nat :=
  if last + f < w then f + last else if last + f = w then 0 else last - (w - f)

/-- How many words step 3 pushes (R183). -/
def pushedBy (w f last : Nat) : Nat := if last + f < w then 0 else 1

/-- `n`, the number of code words (R181 step 1). -/
def codeLength (w len : Nat) : Nat := ceilDiv len w

/-- `last`, the valid bits of the final code word (R181 step 1). -/
def lastBits (w len : Nat) : Nat := len - (codeLength w len - 1) * w

/-- The index of the trailing word after an append of `len` bits (R181). -/
def trailingAfter (s : State) (len : Nat) : Nat :=
  s.wordCount.toNat - 1 + (codeLength s.cfg.w len - 1) +
    pushedBy s.cfg.w s.fill.toNat (lastBits s.cfg.w len)

/-- `Append(len, c)` (R181). -/
def append (s : State) (len : Nat) (c : List Word) : State :=
  let w := s.cfg.w
  let n := codeLength w len
  let last := lastBits w len
  let k := s.wordCount.toNat - 1
  let f := s.fill.toNat
  let s2 := appendFullWords f s k (c.take (n - 1))
  let s3 := appendLastWord f last s2 (k + (n - 1)) (c.getD (n - 1) 0#64)
  setExtent s3 (s.total.toNat + len) (fillAfter w f last) (trailingAfter s len + 1)

/-- The shared end of ENC_SYM and ENC_BITS: check the capacity, append, count (R187, R188). The fault stands for a
buffer word that does not exist, which no append of a state that meets I1 and I2 names (20_memory.md R66). -/
def appendCode (i : Instr) (len : Nat) (c : List Word) (s : State) : Result :=
  if fits s len then
    if trailingAfter s len < s.cfg.capWords then .next (countUp (append s len c))
    else .fault .bufferIndexOutOfRange
  else fail .bufferOverflow i s

/-- ENC_INIT (R186). -/
def execEncInit (s : State) : Result :=
  whenLegal .encInit s <|
    .next { startFlags false (setExtent (bufWrite s 0 0#64) 0 0 1) with count := 0#64, mode := .encode }

/-- ENC_SYM (R187). -/
def execEncSym (sym : Nat) (s : State) : Result :=
  whenLegal (.encSym sym) s <|
    if 2 ^ s.cfg.symW ≤ sym then fail .codeNotFound (.encSym sym) s
    else match codeGet s.codes sym with
      | none => fail .codeNotFound (.encSym sym) s
      | some e => appendCode (.encSym sym) e.len e.words s

/-- ENC_BITS (R188). -/
def execEncBits (len : Nat) (s : State) : Result :=
  whenLegal (.encBits len) s <|
    if len = 0 then fail .zeroLengthCode (.encBits len) s
    else if s.cfg.lMax < len then fail .badCommand (.encBits len) s
    else appendCode (.encBits len) len (maskCode s.cfg.w len (dataCode s)) s

/-- ENC_END (R189). -/
def execEncEnd (s : State) : Result := whenLegal .encEnd s (.next { s with mode := .idle })

end Sys2Proof.Machine
end

