-- ==== Sys2Proof/Machine/Tables.lean ====
section
/-! DEFINITION. The table commands CLR_TABLES, WRITE_NODE, SET_ROOT and WRITE_CODE (41_tables.md). -/

namespace Sys2Proof.Machine

/-- CLR_TABLES (R141). -/
def execClrTables (s : State) : Result :=
  whenLegal .clrTables s (.next { s with nodes := [], codes := [], root := 0#64 })

/-- WRITE_NODE (R143). -/
def execWriteNode (node : Nat) (s : State) : Result :=
  whenLegal (.writeNode node) s <|
    if s.cfg.maxNodes ≤ node then fail .badCommand (.writeNode node) s
    else if nodeWordOk s.cfg (dataGet s 0) then
      .next { s with nodes := nodeSet s.nodes node (nodeOfWord (dataGet s 0)) }
    else fail .badCommand (.writeNode node) s

/-- SET_ROOT (R142). -/
def execSetRoot (node : Nat) (s : State) : Result :=
  whenLegal (.setRoot node) s <|
    if s.cfg.maxNodes ≤ node then fail .badCommand (.setRoot node) s
    else .next { s with root := BitVec.ofNat 64 node }

/-- WRITE_CODE (R146). -/
def execWriteCode (sym len : Nat) (s : State) : Result :=
  whenLegal (.writeCode sym len) s <|
    if 2 ^ s.cfg.symW ≤ sym then fail .badCommand (.writeCode sym len) s
    else if len = 0 then fail .zeroLengthCode (.writeCode sym len) s
    else if s.cfg.lMax < len then fail .badCommand (.writeCode sym len) s
    else .next { s with codes := codeSet s.codes sym ⟨len, maskCode s.cfg.w len (dataCode s)⟩ }

end Sys2Proof.Machine
end

