-- ==== Sys2Proof/Machine/Dispatch.lean ====
section
/-! DEFINITION. The dispatcher: one arm per command, each one call of its meaning. -/

namespace Sys2Proof.Machine

def exec (i : Instr) (s : State) : Host.Outcome State Fault Refusal :=
  match i with
  | .nop => Sys2Proof.Machine.execNop s
  | .reset => Sys2Proof.Machine.execReset s
  | .abort => Sys2Proof.Machine.execAbort s
  | .clrTables => Sys2Proof.Machine.execClrTables s
  | .writeNode node => Sys2Proof.Machine.execWriteNode node s
  | .setRoot node => Sys2Proof.Machine.execSetRoot node s
  | .writeCode sym len => Sys2Proof.Machine.execWriteCode sym len s
  | .bufWrite index => Sys2Proof.Machine.execBufWrite index s
  | .bufRead index => Sys2Proof.Machine.execBufRead index s
  | .setLength => Sys2Proof.Machine.execSetLength s
  | .encInit => Sys2Proof.Machine.execEncInit s
  | .encSym sym => Sys2Proof.Machine.execEncSym sym s
  | .encBits len => Sys2Proof.Machine.execEncBits len s
  | .encEnd => Sys2Proof.Machine.execEncEnd s
  | .decInit => Sys2Proof.Machine.execDecInit s
  | .decBit => Sys2Proof.Machine.execDecBit s
  | .decSym => Sys2Proof.Machine.execDecSym s
  | .decEnd => Sys2Proof.Machine.execDecEnd s

end Sys2Proof.Machine
end

