-- ==== Sys2Proof/Machine/Turns.lean ====
section
/-! DEFINITION. The block's step (70_reset_and_hazards.md R274) and the choice of who moves. -/

namespace Sys2Proof.Machine

/-- Execute the command word `w` by the decode order of R96: in FAULT a word that is no command is ignored
(60_exceptions.md R244), else it raises BAD_COMMAND; a command runs. -/
def executeWord (w : Reg) (s : State) : Result :=
  match decode w with
  | .ok i => exec i s
  | .error _ => if s.mode = .fault then .next s else .next (raise .badCommand w s)

/-- The block's turn: it executes PENDING and empties it (R274). With nothing latched its step is not enabled, and the
block holds its state (60_exceptions.md R257). -/
def blockTurn (s : State) : Result :=
  if s.rst then .next (resetBlock s)
  else match s.pending with
  | none => .next s
  | some w => complete (executeWord w s)

/-- Who moves once the schedule has run out (log 6): the block while a command is latched, else the host. -/
def defaultTurn (s : State) : Result := if busy s then blockTurn s else hostTurn s

/-- One step: the schedule's next turn. -/
def takeTurn (s : State) : Result :=
  match s.turns with
  | [] => defaultTurn s
  | .host :: rest => hostTurn { s with turns := rest }
  | .block :: rest => blockTurn { s with turns := rest }
  | .rst level :: rest => .next (driveReset level { s with turns := rest })

/-- Latch the command word `w` and give the block the next turn, with `rst` low: what a CMD write of `w` and the end of
its delay would do (R274, log 8). -/
def latchCommand (s : State) (w : Reg) : State :=
  { s with pending := some w, rst := false, turns := .block :: s.turns }

end Sys2Proof.Machine
end

