-- ==== Sys2Proof/Machine/Step.lean ====
section
/-! DEFINITION. One step of the machine, and the placing of a command where the next step executes it. -/

namespace Sys2Proof.Machine

/-- One step: a host register access, the execution of the latched command, or a change of the reset input (00_scope.md
R17, 70_reset_and_hazards.md R274). -/
def step (s : State) : Host.Outcome State Fault Refusal := takeTurn s

/-- The state whose next step executes the command word of `nbits` bits `w` (log 8). -/
def State.withFetchWord (s : State) (nbits w : Nat) : State := latchCommand s (tableWord nbits w)

end Sys2Proof.Machine
end

