-- ==== Sys2Proof/Machine/HostProgram.lean ====
section
/-! DEFINITION. The pseudo-instructions of a host program and their expansions into register accesses (30_encoding.md
R99, R100). They are host-side macros: the block sees only the accesses. -/

namespace Sys2Proof.Machine

/-- `WR reg, v`. -/
def hostWr (c : Params) (r : RegName) (v : Reg) : List HostOp := [.write (c.base + r.offset) 8 v]

/-- `RD reg`. -/
def hostRd (c : Params) (r : RegName) : List HostOp := [.read (c.base + r.offset) 8]

/-- `ISSUE cmd`: `WR CMD, enc(cmd)` then `WAIT`. -/
def hostIssue (c : Params) (i : Instr) : List HostOp := hostWr c .cmd (encode i) ++ [.wait]

/-- `WR DATAi, words[i]` for every word of the list, from DATA[i] on. -/
def hostWrData (c : Params) : Nat → List Word → List HostOp
  | _, [] => []
  | i, v :: rest => hostWr c (.data i) v ++ hostWrData c (i + 1) rest

/-- Code word `k` of a bit string, MSB first, unused bits 0 (00_scope.md R15). -/
def wordOfBits (w : Nat) (bits : List Bool) (k : Nat) : Word :=
  (List.range w).foldl
    (fun acc j => acc ||| (if bits.getD (k * w + j) false then BitVec.twoPow 64 (w - 1 - j) else 0#64)) 0#64

/-- `words(bits)` padded with zero words to CODE_WORDS (R100). -/
def wordsOfBits (c : Params) (bits : List Bool) : List Word := (List.range c.codeWords).map (wordOfBits c.w bits)

/-- The node-entry word `(1 << 62) | (sym << 32)`, as a 64-bit register holds it (00_scope.md R11). -/
def leafEntry (sym : Nat) : Reg := BitVec.ofNat 64 (1 <<< 62 ||| sym <<< 32)

/-- The node-entry word `(2 << 62) | (l << 16) | r`. An operand wider than its field is ORed in as it stands. -/
def internalEntry (l r : Nat) : Reg := BitVec.ofNat 64 (2 <<< 62 ||| l <<< 16 ||| r)

/-- `LDNODE idx, LEAF, sym`. -/
def hostLdLeaf (c : Params) (idx sym : Nat) : List HostOp :=
  hostWr c (.data 0) (leafEntry sym) ++ hostIssue c (.writeNode idx)

/-- `LDNODE idx, INTERNAL, l, r`. -/
def hostLdInternal (c : Params) (idx l r : Nat) : List HostOp :=
  hostWr c (.data 0) (internalEntry l r) ++ hostIssue c (.writeNode idx)

/-- `LDNODE idx, INVALID`. -/
def hostLdInvalid (c : Params) (idx : Nat) : List HostOp :=
  hostWr c (.data 0) 0#64 ++ hostIssue c (.writeNode idx)

/-- `LDCODE sym, "bits"`. -/
def hostLdCode (c : Params) (sym : Nat) (bits : List Bool) : List HostOp :=
  hostWrData c 0 (wordsOfBits c bits) ++ hostIssue c (.writeCode sym bits.length)

/-- `APPEND "bits"`. -/
def hostAppend (c : Params) (bits : List Bool) : List HostOp :=
  hostWrData c 0 (wordsOfBits c bits) ++ hostIssue c (.encBits bits.length)

/-- `LDLEN t`. -/
def hostLdLen (c : Params) (t : Nat) : List HostOp :=
  hostWr c (.data 0) (BitVec.ofNat 64 t) ++ hostWr c (.data 1) (BitVec.ofNat 64 (t % c.w)) ++ hostIssue c .setLength

/-- `ENC_STR "s"`, the string given by its symbols. -/
def hostEncStr (c : Params) : List Nat → List HostOp
  | [] => []
  | sym :: rest => hostIssue c (.encSym sym) ++ hostEncStr c rest

end Sys2Proof.Machine
end

