-- ==== Sys2Proof/Safety.lean ====
section
/-! DEFINITION. What claims about the machine are stated in: the stream the buffer holds (00_scope.md R14), the paths of
the loaded tree, sequences of commands, and the invariant of the block (10_state.md R32, R43 to R45). -/

namespace Sys2Proof.Machine

/-! ### The bit stream -/

/-- Stream bit `j` (R14): a bit of word `j div W`, or `none` if nothing has written that word since reset (R46). -/
def streamBit (s : State) (j : Nat) : Option Bool :=
  (Memory.read s.buf (j / s.cfg.w)).map fun v => bitOfWord s.cfg.w v j

/-- The code bits of a code of `len` bits held in code words `c` (R15). -/
def codeBits (w len : Nat) (c : List Word) : List Bool := (List.range len).map (codeBit w c)

/-- The stream from bit `j` on holds the bits `b`. -/
def StreamHas (s : State) (j : Nat) (b : List Bool) : Prop :=
  ∀ k, k < b.length → streamBit s (j + k) = some (b.getD k false)

/-! ### The loaded tree -/

/-- An INTERNAL node. -/
def Node.isInternal : Node → Bool
  | .internal _ _ => true
  | .leaf _ => false
  | .invalid => false

/-- The child that a bit selects: RIGHT on 1, LEFT on 0 (44_decoder.md R210). -/
def childIndex (l r : BitVec 16) (b : Bool) : BitVec 16 := if b then r else l

/-- The descent from node `i` by the bits, through INTERNAL nodes: the node index it ends on, if every node it leaves
is INTERNAL and every node it enters is not INVALID. -/
def treeWalk (t : List (Nat × Node)) : Nat → List Bool → Option Nat
  | i, [] => some i
  | i, b :: rest =>
    match nodeGet t i with
    | .internal l r =>
      if nodeGet t (childIndex l r b).toNat = .invalid then none else treeWalk t (childIndex l r b).toNat rest
    | .leaf _ => none
    | .invalid => none

/-- The bits are a path from node `i` to a LEAF holding `sym`, every node before the leaf INTERNAL
(41_tables.md R147). -/
def LeafPath (t : List (Nat × Node)) (i : Nat) (bits : List Bool) (sym : BitVec 16) : Prop :=
  bits ≠ [] ∧ ∃ j, treeWalk t i bits = some j ∧ nodeGet t j = .leaf sym

/-- The code table agrees with the tree on symbol `sym`: its code is the path from ROOT to a LEAF with SYM = `sym`
(R147). -/
def CodeAgrees (s : State) (sym : Nat) : Prop :=
  ∃ e, codeGet s.codes sym = some e ∧
    LeafPath s.nodes s.root.toNat (codeBits s.cfg.w e.len e.words) (BitVec.ofNat 16 sym)

/-! ### Sequences of commands -/

/-- Execute the commands in order, each from the state the one before it left. -/
def execAll : List Instr → State → Result
  | [], s => .next s
  | i :: rest, s =>
    match exec i s with
    | .next s' => execAll rest s'
    | .fault f => .fault f
    | .refused r => .refused r

/-- The symbols that `n` DEC_SYM commands emit from `s`, with the state they leave, if each of them emits one
(44_decoder.md R217). -/
def emissions : Nat → State → Option (List Reg × State)
  | 0, s => some ([], s)
  | n + 1, s =>
    match exec .decSym s with
    | .next s' =>
      if s'.symValid then (emissions n s').map fun p => (s'.outSym :: p.1, p.2) else none
    | .fault _ => none
    | .refused _ => none

/-- The total length in bits of the codes of a sequence of symbols (43_encoder.md R190). -/
def codeLengths (t : List (Nat × CodeEntry)) : List Nat → Nat
  | [] => 0
  | sym :: rest => (match codeGet t sym with | some e => e.len | none => 0) + codeLengths t rest

/-! ### The machine with its next move chosen -/

/-- `s` with the host's next access `op` and the host's turn put before its schedule. Every state in which the host is
to move has this form. -/
def atHost (op : HostOp) (s : State) : State := { s with turns := .host :: s.turns, host := op :: s.host }

/-- `s` with the command word `w` latched and the block's turn put before its schedule. -/
def atBlock (w : Reg) (s : State) : State := { s with turns := .block :: s.turns, pending := some w }

/-- Whether a host access writes. -/
def HostOp.isWrite : HostOp → Bool
  | .write _ _ _ => true
  | .read _ _ => false
  | .wait => false
  | .check => false

/-! ### What the rules say of words, commands and appends -/

/-- The mask of each format (30_encoding.md R93). -/
def tableMask : Format → Reg
  | .z => 0x00000000000000FF#64
  | .n => 0xFFFFFFFFFFFFFFFF#64
  | .a => 0xFFFFFFFF0000FFFF#64
  | .b => 0x00000000FFFFFFFF#64
  | .ab => 0x000000000000FFFF#64

/-- A reserved OPC (30_encoding.md R94). -/
def reservedOpc (o : Nat) : Prop := 0x0A ≤ o ∧ o ≤ 0x0F ∨ 0x14 ≤ o ∧ o ≤ 0x1F ∨ 0x24 ≤ o ∧ o ≤ 0xFF

/-- Every word with OPC `opc` and a 1 among the bits `mbz` raises BAD_COMMAND outside FAULT (30_encoding.md R95). -/
def RefusesBits (opc : Nat) (mbz : Reg) : Prop :=
  ∀ (w : Reg) (s : State), s.mode ≠ .fault → opcField w = opc → w &&& mbz ≠ 0#64 →
    executeWord w s = .next (raise .badCommand w s)

/-- Command `i` raises WRONG_MODE outside the modes `ms` and FAULT, and is ignored in FAULT (30_encoding.md R97). -/
def LegalOnlyIn (ms : List Mode) (i : Instr) : Prop :=
  ∀ s : State, (s.mode = .fault → exec i s = .next s) ∧
    (s.mode ≠ .fault → s.mode ∉ ms → exec i s = .next (raise .wrongMode (encode i) s))

/-- What 43_encoder.md R184 says of the states `s` and `t` before and after an append of the code bits `b`, with COUNT
one more, and every buffer word outside the trailing words unchanged. -/
def AppendsBits (s t : State) (b : List Bool) : Prop :=
  (∃ m, t =
    { s with
      buf := m
      total := BitVec.ofNat 64 (s.total.toNat + b.length)
      fill := BitVec.ofNat 64 ((s.total.toNat + b.length) % s.cfg.w)
      wordCount := BitVec.ofNat 64 ((s.total.toNat + b.length) / s.cfg.w + 1)
      blockCount := BitVec.ofNat 64 (ceilDiv ((s.total.toNat + b.length) / s.cfg.w + 1) s.cfg.arraySize)
      count := s.count + 1#64 }) ∧
  StreamHas t s.total.toNat b ∧
  (∀ j, j < s.total.toNat → streamBit t j = streamBit s j) ∧
  (∀ j, s.total.toNat + b.length ≤ j → j < t.wordCount.toNat * s.cfg.w → streamBit t j = some false) ∧
  (∀ i, i + 1 < s.wordCount.toNat ∨ t.wordCount.toNat ≤ i → Memory.read t.buf i = Memory.read s.buf i)

/-- `b` is the bit the decoder reads at BIT_POS, and `d` the draws made after it: a stream bit if the word is written,
else a bit of the next free W-bit value (10_state.md R46, log 1). -/
def NextBit (s : State) (b : Bool) (d : Nat) : Prop :=
  streamBit s s.bitPos.toNat = some b ∧ d = s.draws ∨
  streamBit s s.bitPos.toNat = none ∧ d = s.draws + 1 ∧
    b = bitOfWord s.cfg.w (wordOf s.cfg.w (Config.freeValue s.draws)) s.bitPos.toNat

/-! ### The invariant -/

/-- The buffer RAM holds W-bit words below CAP_WORDS, in canonical form (R31). -/
abbrev BufferOk (s : State) : Prop :=
  Memory.wf s.buf = true ∧
  cellsAll (fun i v => decide (i < s.cfg.capWords) && decide (wordOf s.cfg.w v = v)) s.buf = true

/-- A stored node entry is within range (R33, 41_tables.md R144). -/
def nodeOk (c : Params) : Node → Bool
  | .invalid => true
  | .leaf sym => decide (sym.toNat < 2 ^ c.symW)
  | .internal l r => decide (l.toNat < c.maxNodes) && decide (r.toNat < c.maxNodes)

/-- A stored code entry is within range, of CODE_WORDS words of W bits, with every non-code bit 0 (R36). -/
def codeOk (c : Params) (e : CodeEntry) : Bool :=
  decide (1 ≤ e.len) && decide (e.len ≤ c.lMax) && decide (e.words.length = c.codeWords) &&
  e.words.all (fun v => decide (wordOf c.w v = v)) && decide (maskCode c.w e.len e.words = e.words)

/-- Both tables are in canonical form with every entry in range (R33, R36, 20_memory.md R80). -/
abbrev TablesOk (s : State) : Prop :=
  nodesWf s.nodes = true ∧
  cellsAll (fun i q => decide (i < s.cfg.maxNodes) && nodeOk s.cfg q) s.nodes = true ∧
  cellsRising s.codes = true ∧
  cellsAll (fun sym e => decide (sym < 2 ^ s.cfg.symW) && codeOk s.cfg e) s.codes = true

/-- I1, I2 and I3 of R32, and the capacity bound of R27. -/
abbrev ExtentOk (s : State) : Prop :=
  s.fill.toNat = s.total.toNat % s.cfg.w ∧
  s.wordCount.toNat = s.total.toNat / s.cfg.w + 1 ∧
  s.blockCount.toNat = ceilDiv s.wordCount.toNat s.cfg.arraySize ∧
  s.wordCount.toNat ≤ s.cfg.capWords

/-- I4 of R32: every word of the buffer is written, and the low W - FILL bits of the trailing word are 0. -/
abbrev Packed (s : State) : Prop :=
  (∀ i, i < s.wordCount.toNat → (Memory.read s.buf i).isSome = true) ∧
  (Memory.read s.buf (s.wordCount.toNat - 1)).all
    (fun v => decide (v &&& lowMask (s.cfg.w - s.fill.toNat) = 0#64)) = true

/-- ROOT, CURSOR and OUT_SYM are in range (R20). -/
abbrev PointersOk (s : State) : Prop :=
  s.root.toNat < s.cfg.maxNodes ∧ s.cursor.toNat < s.cfg.maxNodes ∧ s.outSym.toNat < 2 ^ s.cfg.symW

/-- ERR is not 0 exactly in FAULT (60_exceptions.md R243), code 1 is never raised (R240), and ERR_CMD is 0 outside FAULT
(R24). -/
abbrev ErrorOk (s : State) : Prop :=
  (s.err ≠ .noError ↔ s.mode = .fault) ∧ s.err ≠ .emptyInput ∧ (s.mode ≠ .fault → s.errCmd = 0#64)

/-- In ENCODE mode the buffer was built by appends, and SYM_VALID and EOS are 0 (R32, 43_encoder.md R187). -/
abbrev EncodeOk (s : State) : Prop :=
  s.mode = .encode → Packed s ∧ s.symValid = false ∧ s.eos = false

/-- The decoder invariant of R45, in DECODE mode. -/
abbrev DecodeOk (s : State) : Prop :=
  s.mode = .decode →
    s.bitPos.toNat ≤ s.total.toNat ∧
    (nodeAt s s.cursor).isInternal = true ∧ (nodeAt s s.root).isInternal = true ∧
    (s.eos = true ↔ s.bitPos = s.total) ∧ (s.bitPos = s.total → s.cursor = s.root)

/-- The invariant of the block. -/
structure Inv (s : State) : Prop where
  legal : s.cfg.Legal
  data : s.data.length = s.cfg.ndata
  buffer : BufferOk s
  tables : TablesOk s
  extent : ExtentOk s
  pointers : PointersOk s
  error : ErrorOk s
  encode : EncodeOk s
  decode : DecodeOk s

end Sys2Proof.Machine
end

