-- ==== Sys2Proof/Certificates/Slice0/Obligations.lean ====
section
/-! DEFINITION. The statements about the machine, one definition each. -/

section

open Sys2Proof Sys2Proof.Machine

/-! ### The command word -/

/-- 30_encoding.md R99 with R96: the word of a well-formed command decodes to that command, every operand included. -/
def Obligations.DecodeOfEncode : Prop := ∀ i : Instr, i.wf = true → decode (encode i) = .ok i

/-- 30_encoding.md R92, R99: a word that decodes is its command's word, all 64 bits of it, or for format Z the low 8. -/
def Obligations.EncodeOfDecode : Prop :=
  ∀ (w : Reg) (i : Instr), decode w = .ok i →
    i.wf = true ∧ (i.format = .z → encode i = w &&& 0xFF#64) ∧ (i.format ≠ .z → encode i = w)

/-- 30_encoding.md R91, R93: a word is a command exactly when `word & mask = match`, and its operands are A and B,
zero-extended. -/
def Obligations.WordIsCommandIffMatch : Prop :=
  ∀ (w : Reg) (i : Instr), decode w = .ok i ↔
    w &&& tableMask i.format = BitVec.ofNat 64 i.opc ∧
    i.valueA = (if i.format = .a ∨ i.format = .ab then w.toNat / 2 ^ 16 % 2 ^ 16 else 0) ∧
    i.valueB = (if i.format = .b ∨ i.format = .ab then w.toNat / 2 ^ 32 else 0)

/-- 95_test_vectors.md §1, §3: words written out in the spec decode to the commands it gives them. -/
def Obligations.DecodeSpecWords : Prop :=
  decode 0xFFFFFFFFFFFFFF02#64 = .ok .abort ∧
  decode 0x0000000800000004#64 = .ok (.writeNode 8) ∧
  decode 0x0000000300610006#64 = .ok (.writeCode 0x61 3) ∧
  decode 0x00003FFF00000008#64 = .ok (.bufRead 16383) ∧
  decode 0x0000000000610011#64 = .ok (.encSym 0x61) ∧
  decode 0x0000000000000022#64 = .ok .decSym

/-- 30_encoding.md R94: the reserved opcodes, and what a word with one does. -/
def Obligations.ReservedOpcodes : Prop :=
  ∀ w : Reg, (decode w = .error .reservedOpcode ↔ reservedOpc (opcField w)) ∧
    ∀ s : State, reservedOpc (opcField w) →
      executeWord w s = if s.mode = .fault then .next s else .next (raise .badCommand w s)

/-- 30_encoding.md R95: a 1 in a must-be-zero bit of the opcode's format, in each of the four formats that have such
bits. -/
def Obligations.ReservedBits : Prop :=
  ∀ (w : Reg) (s : State),
    (opcField w ∈ [0x03, 0x09, 0x10, 0x13, 0x20, 0x21, 0x22, 0x23] ∧ w.extractLsb' 8 56 ≠ 0#56 ∨
      opcField w ∈ [0x11, 0x12] ∧ (w.extractLsb' 32 32 ≠ 0#32 ∨ w.extractLsb' 8 8 ≠ 0#8) ∨
      opcField w ∈ [0x04, 0x05, 0x07, 0x08] ∧ w.extractLsb' 8 24 ≠ 0#24 ∨
      opcField w = 0x06 ∧ w.extractLsb' 8 8 ≠ 0#8) →
    decode w = .error .reservedBits ∧
    executeWord w s = if s.mode = .fault then .next s else .next (raise .badCommand w s)

/-- 30_encoding.md R96: the decode order. The first step that applies decides; ERR_CMD is the whole word. -/
def Obligations.CommandDecodeOrder : Prop :=
  ∀ (w : Reg) (s : State),
    executeWord w s =
      if s.mode = .fault ∧ opcField w ∉ [0x00, 0x01, 0x02] then .next s
      else match commandOf (opcField w) (fieldA w) (fieldB w) with
        | none => .next (raise .badCommand w s)
        | some i =>
          if i.format ≠ .z ∧ w &&& i.format.mustBeZero ≠ 0#64 then .next (raise .badCommand w s)
          else if legalIn i s.mode = false then .next (raise .wrongMode w s)
          else exec i s

/-- 30_encoding.md R97: the mode-legality matrix, with the mode after a command that completes without error. -/
def Obligations.ModeLegality : Prop :=
  ∀ node sym len index : Nat,
    (∀ i ∈ [Instr.clrTables, .writeNode node, .setRoot node, .writeCode sym len, .bufWrite index, .setLength],
      LegalOnlyIn [.idle] i ∧ ∀ s t, exec i s = .next t → t.mode ≠ .fault → t.mode = .idle) ∧
    (∀ i ∈ [Instr.encSym sym, .encBits len],
      LegalOnlyIn [.encode] i ∧ ∀ s t, exec i s = .next t → t.mode ≠ .fault → t.mode = .encode) ∧
    (LegalOnlyIn [.encode] .encEnd ∧ ∀ s t, exec .encEnd s = .next t → t.mode ≠ .fault → t.mode = .idle) ∧
    (∀ i ∈ [Instr.decBit, .decSym],
      LegalOnlyIn [.decode] i ∧ ∀ s t, exec i s = .next t → t.mode ≠ .fault → t.mode = .decode) ∧
    (LegalOnlyIn [.decode] .decEnd ∧ ∀ s t, exec .decEnd s = .next t → t.mode ≠ .fault → t.mode = .idle) ∧
    (∀ i ∈ [Instr.bufRead index, .encInit, .decInit], LegalOnlyIn [.idle, .encode, .decode] i ∧
      ∀ s t, s.err ≠ .wrongMode → exec i s = .next t → t.err ≠ .wrongMode) ∧
    (∀ s t, exec (.bufRead index) s = .next t → t.mode ≠ .fault → t.mode = s.mode) ∧
    (∀ s t, exec .encInit s = .next t → t.mode ≠ .fault → t.mode = .encode) ∧
    (∀ s t, exec .decInit s = .next t → t.mode ≠ .fault → t.mode = .decode) ∧
    (∀ s, ∃ t, exec .nop s = .next t ∧ t.mode = s.mode) ∧
    (∀ s, ∃ t, exec .reset s = .next t ∧ t.mode = .idle) ∧
    (∀ s, ∃ t, exec .abort s = .next t ∧ t.mode = .idle)

/-! ### The step and the register window -/

/-- 70_reset_and_hazards.md R274: the block step executes the latched word and empties the latch. In the three ways a
step comes to it: by the schedule (log 5), by default when the schedule is over (log 6), and by `withFetchWord`
(log 8). -/
def Obligations.StepRunsDecodedCommand : Prop :=
  (∀ (s t : State) (w : Reg) (i : Instr), s.rst = false → decode w = .ok i →
    exec i { s with pending := some w } = .next t → step (atBlock w s) = .next { t with pending := none }) ∧
  (∀ (s t : State) (w : Reg) (i : Instr), s.rst = false → s.turns = [] → s.pending = some w → decode w = .ok i →
    exec i s = .next t → step s = .next { t with pending := none }) ∧
  (∀ (s t : State) (nbits v : Nat) (i : Instr), decodeTableWord nbits v = some i →
    exec i { s with pending := some (BitVec.ofNat 64 (v % 2 ^ nbits)), rst := false } = .next t →
    step (s.withFetchWord nbits v) = .next { t with pending := none }) ∧
  (∀ (s : State) (w : Reg) (e : DecodeError), s.rst = false → decode w = .error e →
    step (atBlock w s) =
      if s.mode = .fault then .next { s with pending := none }
      else .next { raise .badCommand w s with pending := none })

/-- 00_scope.md R11, R12, R14 and R15: where a stream bit and a code bit lie, and the shifts by W or more. -/
def Obligations.BitOrderAndShifts : Prop :=
  (∀ (s : State) (j : Nat) (v : Word), Memory.read s.buf (j / s.cfg.w) = some v →
    streamBit s j = some (v.getLsbD (s.cfg.w - 1 - j % s.cfg.w))) ∧
  (∀ (w k : Nat) (cs : List Word) (v : Word), cs[k / w]? = some v → codeBit w cs k = v.getLsbD (w - 1 - k % w)) ∧
  (∀ (w n : Nat) (x : Word), 1 ≤ w → w ≤ 64 → x.toNat < 2 ^ w →
    (wordShr x n).toNat = x.toNat / 2 ^ n ∧ (wordShl w x n).toNat = x.toNat * 2 ^ n % 2 ^ w ∧
    (w ≤ n → wordShr x n = 0#64 ∧ wordShl w x n = 0#64))

/-- 20_memory.md R69, R70: the byte lanes of a register are little-endian, and the stream's bytes lie big-endian in a
buffer word when W is a multiple of 8. -/
def Obligations.ByteOrders : Prop :=
  (∀ (v : Reg) (k j : Nat), j < 8 → (byteLane v k).getLsbD j = v.getLsbD (8 * k + j)) ∧
  ∀ (s : State) (m j : Nat) (v : Word), s.cfg.Legal → s.cfg.w % 8 = 0 → j < 8 →
    Memory.read s.buf (m / (s.cfg.w / 8)) = some v →
    streamBit s (8 * m + j) = some ((streamByte s.cfg.w v (m % (s.cfg.w / 8))).getLsbD (7 - j))

/-- 20_memory.md R63: what an admitted host write does. -/
def Obligations.HostWriteEffect : Prop :=
  ∀ (s : State) (off : Nat) (v : Reg), s.rst = false → off % 8 = 0 → off < 0x200 →
    step (atHost (.write (s.cfg.base + off) 8 v) s) =
      if s.pending.isSome then .next { s with ovr := true }
      else if off = 0x40 then .next { s with pending := some v }
      else if 0x100 ≤ off ∧ (off - 0x100) / 8 < s.cfg.ndata then
        .next { s with data := s.data.set ((off - 0x100) / 8) v }
      else .next s

/-- The register map of 20_memory.md R61 with the values of 10_state.md R20 to R40: what offset `off` reads as. -/
def mappedValue (s : State) (off : Nat) : Reg :=
  match off with
  | 0x000 => BitVec.ofNat 64 s.cfg.w
  | 0x008 => BitVec.ofNat 64 s.cfg.symW
  | 0x010 => BitVec.ofNat 64 s.cfg.arraySize
  | 0x018 => BitVec.ofNat 64 s.cfg.numBlocks
  | 0x020 => BitVec.ofNat 64 s.cfg.maxNodes
  | 0x028 => BitVec.ofNat 64 s.cfg.lMax
  | 0x030 => BitVec.ofNat 64 ((s.cfg.lMax + s.cfg.w - 1) / s.cfg.w)
  | 0x048 => statusWord s
  | 0x050 => s.errCmd
  | 0x080 => s.total
  | 0x088 => s.fill
  | 0x090 => s.wordCount
  | 0x098 => s.blockCount
  | 0x0A0 => s.root
  | 0x0A8 => s.bitPos
  | 0x0B0 => s.cursor
  | 0x0B8 => s.outSym
  | 0x0C0 => s.count
  | n => if 0x100 ≤ n ∧ (n - 0x100) / 8 < s.cfg.ndata then s.data.getD ((n - 0x100) / 8) 0#64 else 0#64

/-- 20_memory.md R62: what an admitted host read returns, and that it changes nothing of the block. That an
unspecified read while BUSY = 1 is the next free value, with the count of draws one more, is the model's choice (log 1,
log 2). -/
def Obligations.HostReadValue : Prop :=
  ∀ (s : State) (off : Nat), s.rst = false → off % 8 = 0 → off < 0x200 →
    step (atHost (.read (s.cfg.base + off) 8) s) =
      if s.pending = none ∨ off = 0x48 ∨ off ≤ 0x30 then
        .next { s with responses := s.responses ++ [mappedValue s off] }
      else .next { s with responses := s.responses ++ [Config.freeValue s.draws], draws := s.draws + 1 }

/-- 10_state.md R23: the fields of STATUS and its reserved bits. -/
def Obligations.StatusWordFields : Prop :=
  ∀ s : State,
    (statusWord s).getLsbD 0 = s.pending.isSome ∧
    ((statusWord s).extractLsb' 1 2).toNat =
      (match s.mode with | .idle => 0 | .encode => 1 | .decode => 2 | .fault => 3) ∧
    (statusWord s).getLsbD 3 = s.symValid ∧ (statusWord s).getLsbD 4 = s.eos ∧ (statusWord s).getLsbD 5 = s.ovr ∧
    (statusWord s).extractLsb' 6 2 = 0#2 ∧ ((statusWord s).extractLsb' 8 4).toNat = s.err.code ∧
    (statusWord s).extractLsb' 12 52 = 0#52

/-- 20_memory.md R64, 70_reset_and_hazards.md R270: the host accesses that the model refuses, by the names of log 16. -/
def Obligations.HostAccessRefused : Prop :=
  ∀ (s : State) (addr bytes : Nat) (v : Reg), ∀ op ∈ [HostOp.read addr bytes, HostOp.write addr bytes v],
    (s.rst = true → step (atHost op s) = .refused .accessDuringReset) ∧
    (s.rst = false → bytes ≠ 8 → step (atHost op s) = .refused .accessWidth) ∧
    (s.rst = false → bytes = 8 → (addr < s.cfg.base ∨ s.cfg.base + 0x200 ≤ addr) →
      step (atHost op s) = .refused .accessOutsideWindow) ∧
    (s.rst = false → bytes = 8 → s.cfg.base ≤ addr → addr < s.cfg.base + 0x200 → (addr - s.cfg.base) % 8 ≠ 0 →
      step (atHost op s) = .refused .accessMisaligned)

/-- 70_reset_and_hazards.md R275: while BUSY = 1 no host access changes anything of the block but OVR, and a write sets
OVR whatever its offset. -/
def Obligations.BusyProtectsBlock : Prop :=
  ∀ (s t : State) (op : HostOp), s.pending.isSome = true → step (atHost op s) = .next t →
    t = { s with ovr := s.ovr || op.isWrite, host := t.host, responses := t.responses, draws := t.draws }

/-- 70_reset_and_hazards.md R270: the reset input. The host's side keeps its state (log 17). -/
def Obligations.ResetInputState : Prop :=
  ∀ (s : State) (op : HostOp),
    step { s with turns := .rst true :: s.turns } =
      .next { State.resetWith s.cfg with
        rst := true, host := s.host, turns := s.turns, responses := s.responses, draws := s.draws } ∧
    (s.rst = true → step { s with turns := .block :: s.turns } =
      .next { State.resetWith s.cfg with
        rst := true, host := s.host, turns := s.turns, responses := s.responses, draws := s.draws }) ∧
    (s.rst = true → step { s with turns := .rst false :: s.turns } =
      .next { State.resetWith s.cfg with
        rst := false, host := s.host, turns := s.turns, responses := s.responses, draws := s.draws }) ∧
    (s.rst = true → step (atHost op s) = .refused .accessDuringReset)

/-- 70_reset_and_hazards.md R271: the RESET command gives the state that asserting and deasserting `rst` gives, and
buffer words from 1 on are unwritten after it. -/
def Obligations.ResetCommandEqualsResetInput : Prop :=
  ∀ s : State, s.rst = false →
    core.run 2 { s with turns := .rst true :: .rst false :: s.turns } = exec .reset s ∧
    ∃ t, exec .reset s = .next t ∧ t.pending = none ∧ ∀ i, 1 ≤ i → Memory.read t.buf i = none

/-- 10_state.md R44: the reset state of every piece of state, for every choice of the parameters. That `State.reset` is
that state in the reference configuration, with BASE = 0, is the model's choice (log 4, log 3). -/
def Obligations.ResetStateValues : Prop :=
  State.reset = State.resetWith Params.reference ∧
  ∀ (c : Params) (s : State), s = State.resetWith c →
    s.cfg = c ∧ s.pending = none ∧ s.mode = .idle ∧ s.symValid = false ∧ s.eos = false ∧ s.ovr = false ∧
    s.err = .noError ∧ s.errCmd = 0#64 ∧ s.data.length = c.ndata ∧ (∀ i, dataGet s i = 0#64) ∧
    s.total = 0#64 ∧ s.fill = 0#64 ∧ s.wordCount = 1#64 ∧ s.blockCount = 1#64 ∧
    Memory.read s.buf 0 = some 0#64 ∧ (∀ i, 1 ≤ i → Memory.read s.buf i = none) ∧
    s.root = 0#64 ∧ s.cursor = 0#64 ∧ s.bitPos = 0#64 ∧ s.outSym = 0#64 ∧ s.count = 0#64 ∧
    (∀ i, nodeGet s.nodes i = .invalid) ∧ ∀ sym, codeGet s.codes sym = none

/-! ### Invariants -/

/-- The invariant of the block (10_state.md R20, R25, R27 to R33, R36, R43, R45; 60_exceptions.md R243) and I4 hold at
reset, for every legal choice of the parameters. -/
def Obligations.InvAtReset : Prop :=
  Inv State.reset ∧ ∀ c : Params, c.Legal → Inv (State.resetWith c) ∧ Packed (State.resetWith c)

/-- Every step keeps the invariant of the block, whoever moves. -/
def Obligations.StepKeepsInv : Prop := ∀ s t : State, Inv s → step s = .next t → Inv t

/-- 10_state.md R32: I1, I2 and I3 hold after every command, and I4 is kept by every command but BUF_WRITE and
SET_LENGTH, holds in ENCODE mode, and is made to hold by ENC_INIT and RESET. -/
def Obligations.BufferInvariantsKept : Prop :=
  ∀ (s t : State) (i : Instr), Inv s → exec i s = .next t →
    t.fill.toNat = t.total.toNat % t.cfg.w ∧ t.wordCount.toNat = t.total.toNat / t.cfg.w + 1 ∧
    t.blockCount.toNat = ceilDiv t.wordCount.toNat t.cfg.arraySize ∧
    (Packed s → (∀ n, i ≠ .bufWrite n) → i ≠ .setLength → Packed t) ∧
    (t.mode = .encode → Packed t) ∧ (i = .reset → Packed t)

/-- 70_reset_and_hazards.md R279, 44_decoder.md R214: every command completes, from every state that meets the
invariant: no command stops the machine, and no loop runs for ever. -/
def Obligations.EveryCommandCompletes : Prop :=
  ∀ (s : State) (i : Instr), Inv s → ∃ t, exec i s = .next t

/-- What can stop a step from a state that meets the invariant: nothing of the block. Only the host program's CHECK, or
a host access that the spec has refused (20_memory.md R64, 70_reset_and_hazards.md R270). -/
def Obligations.OnlyTheHostStops : Prop :=
  ∀ s : State, Inv s →
    (∃ t, step s = .next t) ∨ (∃ rest, s.host = .check :: rest ∧ s.err ≠ .noError ∧ step s = .fault .checkFailed) ∨
    ∃ op rest r, s.host = op :: rest ∧ step s = .refused r ∧
      r ∈ [Refusal.accessWidth, .accessOutsideWindow, .accessMisaligned, .accessDuringReset]

/-! ### Errors and FAULT -/

/-- 60_exceptions.md R242, R247: what a command that raises leaves. ERR_CMD holds the command's word, SYM_VALID is 0,
and nothing else is changed, but for the bits that DEC_BIT or DEC_SYM consumed (and the model's count of draws). -/
def Obligations.ErrorEntryFrame : Prop :=
  ∀ (s t : State) (i : Instr), s.mode ≠ .fault → exec i s = .next t → t.mode = .fault →
    t.errCmd = encode i ∧ t.symValid = false ∧ t.err ≠ .noError ∧
    (i ≠ .decBit → i ≠ .decSym → t = { s with err := t.err, errCmd := encode i, symValid := false, mode := .fault }) ∧
    (i = .decBit ∨ i = .decSym →
      t = { s with
        err := t.err, errCmd := encode i, symValid := false, mode := .fault
        bitPos := t.bitPos, cursor := t.cursor, draws := t.draws })

/-- 60_exceptions.md R243: FAULT is MODE exactly when ERR is not 0; a step enters it only by executing a command that
raises, and leaves it only by ABORT, RESET or the reset input, which clear ERR and give IDLE. -/
def Obligations.FaultEntryAndExit : Prop :=
  ∀ s t : State, Inv s → step s = .next t →
    (t.mode = .fault ↔ t.err ≠ .noError) ∧
    (s.mode ≠ .fault → t.mode = .fault → s.pending = some t.errCmd ∧ t.pending = none ∧ t.symValid = false) ∧
    (s.mode = .fault → t.mode ≠ .fault →
      t.mode = .idle ∧ t.err = .noError ∧
      ((∃ w, s.pending = some w ∧ opcField w ∈ [0x01, 0x02]) ∨ s.rst = true ∨ s.turns.head? = some (.rst true)))

/-- 60_exceptions.md R244: in FAULT every command word but NOP, RESET and ABORT changes no state, and BUSY is cleared;
those three act. -/
def Obligations.FaultIgnoresCommands : Prop :=
  ∀ (s : State) (w : Reg), s.rst = false → s.mode = .fault →
    (opcField w ∉ [0x00, 0x01, 0x02] → step (atBlock w s) = .next { s with pending := none }) ∧
    (opcField w = 0x00 → step (atBlock w s) = .next { s with pending := none }) ∧
    (opcField w = 0x01 → step (atBlock w s) = .next (resetBlock s)) ∧
    (opcField w = 0x02 → step (atBlock w s) =
      .next { s with
        pending := none, mode := .idle, err := .noError, errCmd := 0#64
        symValid := false, eos := false, ovr := false })

/-- 60_exceptions.md R240: the codes of ERR, and which commands raise which. -/
def Obligations.ErrorCodeSources : Prop :=
  (∀ e : ErrCode, e.code =
    match e with
    | .noError => 0 | .emptyInput => 1 | .codeNotFound => 2 | .truncatedCode => 3 | .zeroLengthCode => 4
    | .degenerateTree => 5 | .badTree => 6 | .bufferOverflow => 7 | .lengthMismatch => 8 | .badCommand => 9
    | .wrongMode => 10) ∧
  ∀ (s t : State) (i : Instr), s.mode ≠ .fault → exec i s = .next t → t.mode = .fault →
    t.err ≠ .noError ∧ t.err ≠ .emptyInput ∧
    (t.err = .codeNotFound → ∃ sym, i = .encSym sym) ∧
    (t.err = .truncatedCode → i = .decBit ∨ i = .decSym) ∧
    (t.err = .zeroLengthCode → (∃ sym len, i = .writeCode sym len) ∨ ∃ len, i = .encBits len) ∧
    (t.err = .degenerateTree → i = .decInit) ∧
    (t.err = .badTree → i = .decInit ∨ i = .decBit ∨ i = .decSym) ∧
    (t.err = .bufferOverflow → (∃ sym, i = .encSym sym) ∨ ∃ len, i = .encBits len) ∧
    (t.err = .lengthMismatch → i = .setLength) ∧
    (t.err = .badCommand → i ≠ .nop ∧ i ≠ .reset ∧ i ≠ .abort) ∧
    (t.err = .wrongMode → i ≠ .nop ∧ i ≠ .reset ∧ i ≠ .abort ∧ (∀ n, i ≠ .bufRead n) ∧ i ≠ .encInit ∧ i ≠ .decInit)

/-! ### The commands, one by one -/

/-- 40_control.md R120: NOP. -/
def Obligations.NopRule : Prop :=
  (∀ w : Reg, opcField w = 0x00 → decode w = .ok .nop) ∧ encode .nop = 0x0000000000000000#64 ∧
  (∀ s : State, exec .nop s = .next s) ∧
  ∀ (s : State) (addr : Nat) (v : Reg), s.rst = false → s.cfg.base ≤ addr → addr < s.cfg.base + 0x200 →
    (addr - s.cfg.base) % 8 = 0 →
    step (atHost (.write addr 8 v) { s with pending := some 0#64 }) = .next { s with pending := some 0#64, ovr := true }

/-- 40_control.md R121: RESET. The draws counter and the host's side are not the block's (log 2, log 17). -/
def Obligations.ResetRule : Prop :=
  (∀ w : Reg, opcField w = 0x01 → decode w = .ok .reset) ∧ encode .reset = 0x0000000000000001#64 ∧
  ∀ s : State, exec .reset s =
    .next { State.resetWith s.cfg with
      rst := s.rst, host := s.host, turns := s.turns, responses := s.responses, draws := s.draws }

/-- 40_control.md R122: ABORT, the only command but RESET that leaves FAULT. -/
def Obligations.AbortRule : Prop :=
  (∀ w : Reg, opcField w = 0x02 → decode w = .ok .abort) ∧ encode .abort = 0x0000000000000002#64 ∧
  ∀ s : State, exec .abort s =
    .next { s with mode := .idle, err := .noError, errCmd := 0#64, symValid := false, eos := false, ovr := false } ∧
    ∀ (i : Instr) (t : State), s.mode = .fault → exec i s = .next t → t.mode ≠ .fault → i = .abort ∨ i = .reset

/-- 41_tables.md R141: CLR_TABLES, and what DEC_INIT and ENC_SYM do after it. -/
def Obligations.ClrTablesRule : Prop :=
  encode .clrTables = 0x0000000000000003#64 ∧ RefusesBits 0x03 0xFFFFFFFFFFFFFF00#64 ∧
  LegalOnlyIn [.idle] .clrTables ∧
  ∀ s : State, s.mode = .idle → ∃ t, exec .clrTables s = .next t ∧
    t = { s with nodes := t.nodes, codes := t.codes, root := 0#64 } ∧
    (∀ i, nodeGet t.nodes i = .invalid) ∧ (∀ sym, codeGet t.codes sym = none) ∧
    exec .decInit t = .next (raise .badTree (encode .decInit) t) ∧
    ∀ u sym, exec .encInit t = .next u → exec (.encSym sym) u = .next (raise .codeNotFound (encode (.encSym sym)) u)

/-- 41_tables.md R142: SET_ROOT. -/
def Obligations.SetRootRule : Prop :=
  (∀ r, r < 2 ^ 32 → (encode (.setRoot r)).toNat = 0x05 + r * 2 ^ 32) ∧ RefusesBits 0x05 0x00000000FFFFFF00#64 ∧
  ∀ r, LegalOnlyIn [.idle] (.setRoot r) ∧ ∀ s : State, s.mode = .idle →
    exec (.setRoot r) s =
      if s.cfg.maxNodes ≤ r then .next (raise .badCommand (encode (.setRoot r)) s)
      else .next { s with root := BitVec.ofNat 64 r }

/-- 41_tables.md R143, R144 and 10_state.md R34: WRITE_NODE, with the check of the entry word spelt out. -/
def Obligations.WriteNodeRule : Prop :=
  (∀ i, i < 2 ^ 32 → (encode (.writeNode i)).toNat = 0x04 + i * 2 ^ 32) ∧ RefusesBits 0x04 0x00000000FFFFFF00#64 ∧
  ∀ i, LegalOnlyIn [.idle] (.writeNode i) ∧ ∀ (s : State) (e : Reg), s.mode = .idle → e = dataGet s 0 →
    let ok : Prop := e.extractLsb' 48 14 = 0#14 ∧
      (e.extractLsb' 62 2 = 0#2 ∧ e.extractLsb' 0 48 = 0#48 ∨
        e.extractLsb' 62 2 = 1#2 ∧ (e.extractLsb' 32 16).toNat < 2 ^ s.cfg.symW ∧ e.extractLsb' 0 32 = 0#32 ∨
        e.extractLsb' 62 2 = 2#2 ∧ e.extractLsb' 32 16 = 0#16 ∧ (e.extractLsb' 16 16).toNat < s.cfg.maxNodes ∧
          (e.extractLsb' 0 16).toNat < s.cfg.maxNodes)
    (s.cfg.maxNodes ≤ i ∨ ¬ ok → exec (.writeNode i) s = .next (raise .badCommand (encode (.writeNode i)) s)) ∧
    (i < s.cfg.maxNodes → ok → ∃ t, exec (.writeNode i) s = .next t ∧ t = { s with nodes := t.nodes } ∧
      nodeGet t.nodes i =
        (if e.extractLsb' 62 2 = 1#2 then .leaf (e.extractLsb' 32 16)
        else if e.extractLsb' 62 2 = 2#2 then .internal (e.extractLsb' 16 16) (e.extractLsb' 0 16) else .invalid) ∧
      ∀ j, j ≠ i → nodeGet t.nodes j = nodeGet s.nodes j)

/-- 41_tables.md R146: WRITE_CODE. `codeBits` of the stored entry are the first `len` bits of the code words in DATA,
and every other bit of the stored words is 0 (00_scope.md R16). -/
def Obligations.WriteCodeRule : Prop :=
  (∀ sym len, sym < 2 ^ 16 → len < 2 ^ 32 →
    (encode (.writeCode sym len)).toNat = 0x06 + sym * 2 ^ 16 + len * 2 ^ 32) ∧
  RefusesBits 0x06 0x000000000000FF00#64 ∧
  ∀ sym len, LegalOnlyIn [.idle] (.writeCode sym len) ∧ ∀ s : State, s.mode = .idle → s.cfg.Legal →
    s.data.length = s.cfg.ndata →
    let i := Instr.writeCode sym len
    (2 ^ s.cfg.symW ≤ sym → exec i s = .next (raise .badCommand (encode i) s)) ∧
    (sym < 2 ^ s.cfg.symW → len = 0 → exec i s = .next (raise .zeroLengthCode (encode i) s)) ∧
    (sym < 2 ^ s.cfg.symW → s.cfg.lMax < len → exec i s = .next (raise .badCommand (encode i) s)) ∧
    (sym < 2 ^ s.cfg.symW → 1 ≤ len → len ≤ s.cfg.lMax → ∃ t e, exec i s = .next t ∧
      t = { s with codes := t.codes } ∧ codeGet t.codes sym = some e ∧ e.len = len ∧
      e.words.length = s.cfg.codeWords ∧
      (∀ k, k < len → codeBit s.cfg.w e.words k = (dataGet s (k / s.cfg.w)).getLsbD (s.cfg.w - 1 - k % s.cfg.w)) ∧
      (∀ k, len ≤ k → k < s.cfg.codeWords * s.cfg.w → codeBit s.cfg.w e.words k = false) ∧
      (∀ v ∈ e.words, v.toNat < 2 ^ s.cfg.w) ∧
      ∀ x, x ≠ sym → codeGet t.codes x = codeGet s.codes x)

/-- 42_buffer.md R160: BUF_WRITE. -/
def Obligations.BufWriteRule : Prop :=
  (∀ i, i < 2 ^ 32 → (encode (.bufWrite i)).toNat = 0x07 + i * 2 ^ 32) ∧ RefusesBits 0x07 0x00000000FFFFFF00#64 ∧
  ∀ i, LegalOnlyIn [.idle] (.bufWrite i) ∧ ∀ s : State, s.mode = .idle → s.cfg.Legal →
    (s.cfg.capWords ≤ i → exec (.bufWrite i) s = .next (raise .badCommand (encode (.bufWrite i)) s)) ∧
    (i < s.cfg.capWords → ∃ t v, exec (.bufWrite i) s = .next t ∧ t = { s with buf := t.buf } ∧
      Memory.read t.buf i = some v ∧ v.toNat = (dataGet s 0).toNat % 2 ^ s.cfg.w ∧
      ∀ j, j ≠ i → Memory.read t.buf j = Memory.read s.buf j)

/-- 42_buffer.md R161: BUF_READ. An unwritten word reads as a free W-bit value, a new one at each read (10_state.md R46,
log 1, log 2). -/
def Obligations.BufReadRule : Prop :=
  (∀ i, i < 2 ^ 32 → (encode (.bufRead i)).toNat = 0x08 + i * 2 ^ 32) ∧ RefusesBits 0x08 0x00000000FFFFFF00#64 ∧
  ∀ (i : Nat) (s : State), (s.mode = .fault → exec (.bufRead i) s = .next s) ∧
    (s.mode ≠ .fault →
      (s.cfg.capWords ≤ i → exec (.bufRead i) s = .next (raise .badCommand (encode (.bufRead i)) s)) ∧
      (i < s.cfg.capWords → ∀ v, Memory.read s.buf i = some v →
        exec (.bufRead i) s = .next { s with data := s.data.set 0 v }) ∧
      (i < s.cfg.capWords → Memory.read s.buf i = none →
        exec (.bufRead i) s = .next { s with
          data := s.data.set 0 (wordOf s.cfg.w (Config.freeValue s.draws)), draws := s.draws + 1 }))

/-- 42_buffer.md R162: SET_LENGTH. -/
def Obligations.SetLengthRule : Prop :=
  encode .setLength = 0x0000000000000009#64 ∧ RefusesBits 0x09 0xFFFFFFFFFFFFFF00#64 ∧
  LegalOnlyIn [.idle] .setLength ∧
  ∀ s : State, s.mode = .idle →
    let t := (dataGet s 0).toNat
    let f := (dataGet s 1).toNat
    exec .setLength s =
      if s.cfg.capWords < t / s.cfg.w + 1 ∨ f ≠ t % s.cfg.w then .next (raise .lengthMismatch (encode .setLength) s)
      else .next { s with
        total := dataGet s 0
        fill := dataGet s 1
        wordCount := BitVec.ofNat 64 (t / s.cfg.w + 1)
        blockCount := BitVec.ofNat 64 ((t / s.cfg.w + 1 + s.cfg.arraySize - 1) / s.cfg.arraySize) }

/-- 43_encoder.md R186: ENC_INIT. -/
def Obligations.EncInitRule : Prop :=
  encode .encInit = 0x0000000000000010#64 ∧ RefusesBits 0x10 0xFFFFFFFFFFFFFF00#64 ∧
  LegalOnlyIn [.idle, .encode, .decode] .encInit ∧
  ∀ s : State, s.mode ≠ .fault → s.cfg.Legal → ∃ m, exec .encInit s =
      .next { s with
        buf := m, total := 0#64, fill := 0#64, wordCount := 1#64, blockCount := 1#64, count := 0#64
        symValid := false, eos := false, mode := .encode } ∧
    Memory.read m 0 = some 0#64 ∧ ∀ i, 1 ≤ i → Memory.read m i = Memory.read s.buf i

/-- 43_encoder.md R187, with R180 and R184: ENC_SYM. -/
def Obligations.EncSymRule : Prop :=
  (∀ sym, sym < 2 ^ 16 → (encode (.encSym sym)).toNat = 0x11 + sym * 2 ^ 16) ∧
  RefusesBits 0x11 0xFFFFFFFF0000FF00#64 ∧
  ∀ sym, LegalOnlyIn [.encode] (.encSym sym) ∧ ∀ s : State, s.mode = .encode → Inv s →
    (2 ^ s.cfg.symW ≤ sym ∨ codeGet s.codes sym = none →
      exec (.encSym sym) s = .next (raise .codeNotFound (encode (.encSym sym)) s)) ∧
    ∀ e, sym < 2 ^ s.cfg.symW → codeGet s.codes sym = some e →
      (s.cfg.capWords < (s.total.toNat + e.len) / s.cfg.w + 1 →
        exec (.encSym sym) s = .next (raise .bufferOverflow (encode (.encSym sym)) s)) ∧
      ((s.total.toNat + e.len) / s.cfg.w + 1 ≤ s.cfg.capWords →
        ∃ t, exec (.encSym sym) s = .next t ∧ AppendsBits s t (codeBits s.cfg.w e.len e.words))

/-- 43_encoder.md R188, with R180 and R184: ENC_BITS. The bits appended are the first `len` bits of the code words in
DATA. -/
def Obligations.EncBitsRule : Prop :=
  (∀ len, len < 2 ^ 16 → (encode (.encBits len)).toNat = 0x12 + len * 2 ^ 16) ∧
  RefusesBits 0x12 0xFFFFFFFF0000FF00#64 ∧
  ∀ len, LegalOnlyIn [.encode] (.encBits len) ∧ ∀ s : State, s.mode = .encode → Inv s →
    let i := Instr.encBits len
    (len = 0 → exec i s = .next (raise .zeroLengthCode (encode i) s)) ∧
    (s.cfg.lMax < len → exec i s = .next (raise .badCommand (encode i) s)) ∧
    (1 ≤ len → len ≤ s.cfg.lMax → s.cfg.capWords < (s.total.toNat + len) / s.cfg.w + 1 →
      exec i s = .next (raise .bufferOverflow (encode i) s)) ∧
    (1 ≤ len → len ≤ s.cfg.lMax → (s.total.toNat + len) / s.cfg.w + 1 ≤ s.cfg.capWords →
      ∃ t, exec i s = .next t ∧
        AppendsBits s t ((List.range len).map fun k =>
          (dataGet s (k / s.cfg.w)).getLsbD (s.cfg.w - 1 - k % s.cfg.w)))

/-- 43_encoder.md R189: ENC_END, and that a session ended so cannot be resumed. -/
def Obligations.EncEndRule : Prop :=
  encode .encEnd = 0x0000000000000013#64 ∧ RefusesBits 0x13 0xFFFFFFFFFFFFFF00#64 ∧
  LegalOnlyIn [.encode] .encEnd ∧
  ∀ s : State, s.mode = .encode → exec .encEnd s = .next { s with mode := .idle } ∧
    ∀ sym, exec (.encSym sym) { s with mode := .idle } =
      .next (raise .wrongMode (encode (.encSym sym)) { s with mode := .idle })

/-- 44_decoder.md R212: DEC_INIT. -/
def Obligations.DecInitRule : Prop :=
  encode .decInit = 0x0000000000000020#64 ∧ RefusesBits 0x20 0xFFFFFFFFFFFFFF00#64 ∧
  LegalOnlyIn [.idle, .encode, .decode] .decInit ∧
  ∀ s : State, s.mode ≠ .fault →
    (nodeGet s.nodes s.root.toNat = .invalid → exec .decInit s = .next (raise .badTree (encode .decInit) s)) ∧
    (∀ sym, nodeGet s.nodes s.root.toNat = .leaf sym →
      exec .decInit s = .next (raise .degenerateTree (encode .decInit) s)) ∧
    ∀ l r, nodeGet s.nodes s.root.toNat = .internal l r →
      exec .decInit s = .next { s with
        cursor := s.root, bitPos := 0#64, count := 0#64, symValid := false, eos := decide (s.total = 0#64)
        mode := .decode }

/-- 44_decoder.md R213 with R210 and R211: DEC_BIT, in every case of the bit step. -/
def Obligations.DecBitRule : Prop :=
  encode .decBit = 0x0000000000000021#64 ∧ RefusesBits 0x21 0xFFFFFFFFFFFFFF00#64 ∧
  LegalOnlyIn [.decode] .decBit ∧
  ∀ s : State, s.mode = .decode → Inv s →
    (s.eos = true → exec .decBit s = .next { s with symValid := false }) ∧
    (s.eos = false → (∃ l r b d, nodeGet s.nodes s.cursor.toNat = .internal l r ∧ NextBit s b d) ∧
      ∀ l r b d, nodeGet s.nodes s.cursor.toNat = .internal l r → NextBit s b d →
        let ch := if b then r else l
        (nodeGet s.nodes ch.toNat = .invalid →
          exec .decBit s = .next (raise .badTree (encode .decBit) { s with draws := d })) ∧
        (∀ sym, nodeGet s.nodes ch.toNat = .leaf sym →
          exec .decBit s = .next { s with
            draws := d, bitPos := s.bitPos + 1#64, outSym := sym.setWidth 64, symValid := true
            count := s.count + 1#64, cursor := s.root, eos := decide (s.bitPos + 1#64 = s.total) }) ∧
        (∀ l' r', nodeGet s.nodes ch.toNat = .internal l' r' →
          exec .decBit s =
            if s.bitPos + 1#64 = s.total then
              .next (raise .truncatedCode (encode .decBit)
                { s with draws := d, bitPos := s.bitPos + 1#64, cursor := ch.setWidth 64 })
            else .next { s with
              draws := d, bitPos := s.bitPos + 1#64, cursor := ch.setWidth 64, symValid := false }))

/-- 44_decoder.md R214 with R210 and R211: DEC_SYM over written words. The bits from BIT_POS on lead from CURSOR to a
leaf, or to the end of the stream on an internal node, or to an INVALID child; each outcome is stated whole. -/
def Obligations.DecSymRule : Prop :=
  encode .decSym = 0x0000000000000022#64 ∧ RefusesBits 0x22 0xFFFFFFFFFFFFFF00#64 ∧
  LegalOnlyIn [.decode] .decSym ∧
  ∀ s : State, s.mode = .decode → Inv s →
    (s.eos = true → exec .decSym s = .next { s with symValid := false }) ∧
    (s.eos = false → ∀ bits : List Bool, StreamHas s s.bitPos.toNat bits →
      (∀ sym, s.bitPos.toNat + bits.length ≤ s.total.toNat → LeafPath s.nodes s.cursor.toNat bits sym →
        exec .decSym s = .next { s with
          bitPos := BitVec.ofNat 64 (s.bitPos.toNat + bits.length), outSym := sym.setWidth 64, symValid := true
          count := s.count + 1#64, cursor := s.root
          eos := decide (s.bitPos.toNat + bits.length = s.total.toNat) }) ∧
      (∀ j l r, s.bitPos.toNat + bits.length = s.total.toNat → treeWalk s.nodes s.cursor.toNat bits = some j →
        nodeGet s.nodes j = .internal l r →
        exec .decSym s = .next (raise .truncatedCode (encode .decSym)
          { s with bitPos := s.total, cursor := BitVec.ofNat 64 j })) ∧
      (∀ j l r b, s.bitPos.toNat + bits.length < s.total.toNat → treeWalk s.nodes s.cursor.toNat bits = some j →
        nodeGet s.nodes j = .internal l r → streamBit s (s.bitPos.toNat + bits.length) = some b →
        nodeGet s.nodes (if b then r else l).toNat = .invalid →
        exec .decSym s = .next (raise .badTree (encode .decSym)
          { s with bitPos := BitVec.ofNat 64 (s.bitPos.toNat + bits.length), cursor := BitVec.ofNat 64 j })))

/-- 44_decoder.md R215: DEC_END. -/
def Obligations.DecEndRule : Prop :=
  encode .decEnd = 0x0000000000000023#64 ∧ RefusesBits 0x23 0xFFFFFFFFFFFFFF00#64 ∧
  LegalOnlyIn [.decode] .decEnd ∧ ∀ s : State, s.mode = .decode → exec .decEnd s = .next { s with mode := .idle }

/-! ### Encoding and decoding as wholes -/

/-- 43_encoder.md R188: ENC_SYM of a symbol and ENC_BITS with its code's length and words leave the same state. -/
def Obligations.EncSymEqualsEncBits : Prop :=
  ∀ (s : State) (sym : Nat) (e : CodeEntry), Inv s → s.mode = .encode → codeGet s.codes sym = some e →
    (∀ k, k < s.cfg.codeWords → dataGet s k = e.words.getD k 0#64) →
    (s.total.toNat + e.len) / s.cfg.w + 1 ≤ s.cfg.capWords → exec (.encBits e.len) s = exec (.encSym sym) s

/-- 43_encoder.md R190: the accounting, after ENC_INIT and a sequence of successful ENC_SYM commands. -/
def Obligations.EncodeAccounting : Prop :=
  ∀ (s t : State) (syms : List Nat), Inv s → s.mode ≠ .fault →
    execAll (.encInit :: syms.map .encSym) s = .next t → t.mode ≠ .fault →
    t.total.toNat = codeLengths s.codes syms ∧ t.fill.toNat = t.total.toNat % s.cfg.w ∧
    t.wordCount.toNat = t.total.toNat / s.cfg.w + 1 ∧ t.count = BitVec.ofNat 64 syms.length ∧
    (t.total.toNat ≠ 0 → t.total.toNat % s.cfg.w = 0 →
      t.fill = 0#64 ∧ Memory.read t.buf (t.total.toNat / s.cfg.w) = some 0#64)

/-- 43_encoder.md R184: a sequence of appends leaves the stream equal to the concatenation, in order, of each symbol's
code, and zeros to the end of the trailing word. -/
def Obligations.StreamIsConcatenation : Prop :=
  ∀ (s t : State) (syms : List Nat), Inv s → s.mode ≠ .fault →
    execAll (.encInit :: syms.map .encSym) s = .next t → t.mode ≠ .fault →
    let bits := syms.flatMap fun sym =>
      match codeGet s.codes sym with | some e => codeBits s.cfg.w e.len e.words | none => []
    t.total.toNat = bits.length ∧ StreamHas t 0 bits ∧
    ∀ j, bits.length ≤ j → j < t.wordCount.toNat * s.cfg.w → streamBit t j = some false

/-- 44_decoder.md R218: the round trip. For every non-empty sequence of symbols whose codes are their paths in the
loaded tree, an encode that raises no error, then DEC_INIT and DEC_SYM until EOS, emits exactly that sequence, with no
error, and COUNT is its length (R217). -/
def Obligations.RoundTrip : Prop :=
  ∀ (s t : State) (syms : List Nat), Inv s → s.mode ≠ .fault → syms ≠ [] → (∀ sym ∈ syms, CodeAgrees s sym) →
    execAll (.encInit :: syms.map .encSym) s = .next t → t.mode ≠ .fault →
    ∃ u v, exec .decInit t = .next u ∧
      emissions syms.length u = some (syms.map fun sym => BitVec.ofNat 64 sym, v) ∧
      v.eos = true ∧ v.mode = .decode ∧ v.err = .noError ∧ v.count = BitVec.ofNat 64 syms.length ∧
      ∀ k, k < syms.length → ∃ p, emissions k u = some p ∧ p.2.eos = false

/-- 44_decoder.md R214 against R213: a DEC_SYM that emits is DEC_BIT repeated until it emits, draws included. -/
def Obligations.DecSymIsRepeatedDecBit : Prop :=
  ∀ s t : State, Inv s → s.mode = .decode → s.eos = false → exec .decSym s = .next t → t.symValid = true →
    ∃ n, 1 ≤ n ∧ t.bitPos.toNat = s.bitPos.toNat + n ∧ t.bitPos.toNat ≤ s.total.toNat ∧
      execAll (List.replicate n .decBit) s = .next t ∧
      ∀ k, k < n → ∃ u, execAll (List.replicate k .decBit) s = .next u ∧ (1 ≤ k → u.symValid = false)

/-- 44_decoder.md R214, 70_reset_and_hazards.md R279: DEC_SYM ends, within TOTAL - BIT_POS bits. If it raises no error
before EOS, it emits one symbol and consumes a bit; if it raises TRUNCATED_CODE, BIT_POS is TOTAL and nothing was
emitted. -/
def Obligations.DecSymBounded : Prop :=
  ∀ s : State, Inv s → s.mode = .decode → ∃ t, exec .decSym s = .next t ∧
    s.bitPos.toNat ≤ t.bitPos.toNat ∧ t.bitPos.toNat ≤ s.total.toNat ∧ t.total = s.total ∧
    (s.eos = false → t.mode ≠ .fault → t.symValid = true ∧ s.bitPos.toNat < t.bitPos.toNat ∧
      t.count = s.count + 1#64 ∧ t.cursor = s.root ∧ (t.eos = true ↔ t.bitPos = s.total)) ∧
    (t.mode = .fault → t.outSym = s.outSym ∧ t.count = s.count ∧ t.eos = s.eos ∧
      (t.err = .truncatedCode ∧ t.bitPos = s.total ∨ t.err = .badTree ∧ t.bitPos.toNat < s.total.toNat))

/-- 44_decoder.md R210: the decoder reads only stream bits below TOTAL. Two buffers that agree on those give the same
decode: padding and the words behind it are never interpreted. -/
def Obligations.DecodeIgnoresPadding : Prop :=
  ∀ (s t : State) (m : Memory), ∀ i ∈ [Instr.decInit, .decBit, .decSym, .decEnd],
    (∀ j, j < s.total.toNat → streamBit { s with buf := m } j = streamBit s j) →
    exec i s = .next t → exec i { s with buf := m } = .next { t with buf := m }

/-! ### Whole-machine rules -/

/-- 41_tables.md R140, 70_reset_and_hazards.md R277: outside IDLE no command but RESET changes the tables or ROOT, and
none but ENC_INIT and the appends (and RESET) changes the buffer or its length; in DECODE only ENC_INIT does. -/
def Obligations.SessionImmutability : Prop :=
  ∀ (s t : State) (i : Instr), s.mode ≠ .idle → i ≠ .reset → exec i s = .next t →
    t.nodes = s.nodes ∧ t.codes = s.codes ∧ t.root = s.root ∧
    (t.buf = s.buf ∧ t.total = s.total ∧ t.fill = s.fill ∧ t.wordCount = s.wordCount ∧ t.blockCount = s.blockCount ∨
      i = .encInit ∨ s.mode = .encode ∧ ((∃ sym, i = .encSym sym) ∨ ∃ len, i = .encBits len))

/-- 10_state.md R43: which commands change SYM_VALID, EOS and OVR, and to what. -/
def Obligations.FlagUpdates : Prop :=
  ∀ (s t : State) (i : Instr), exec i s = .next t →
    (i ∉ [Instr.decBit, .decSym, .encInit, .decInit, .abort, .reset] → (s.mode ≠ .fault → t.mode ≠ .fault) →
      t.symValid = s.symValid) ∧
    (i ∈ [Instr.encInit, .decInit, .abort, .reset] → t.mode ≠ .fault → t.symValid = false) ∧
    (s.mode ≠ .fault → t.mode = .fault → t.symValid = false) ∧
    (i ∈ [Instr.decBit, .decSym] → s.mode = .decode → (t.symValid = true ↔ t.count = s.count + 1#64)) ∧
    (i ∉ [Instr.decBit, .decSym, .encInit, .decInit, .abort, .reset] → t.eos = s.eos) ∧
    (i ∈ [Instr.encInit, .abort, .reset] → t.mode ≠ .fault → t.eos = false) ∧
    (i = .decInit → t.mode ≠ .fault → t.eos = decide (t.total = 0#64)) ∧
    (i ∈ [Instr.decBit, .decSym] →
      t.eos = s.eos ∨ t.eos = true ∧ t.symValid = true ∧ t.bitPos = t.total) ∧
    (i ∉ [Instr.abort, .reset] → t.ovr = s.ovr) ∧ (i ∈ [Instr.abort, .reset] → t.ovr = false)

/-- Which commands write which registers (10_state.md R20, R25, R27 to R30, R35, R37 to R40); every other command leaves
the register as it is, and no command touches the configuration or the host's side. -/
def Obligations.RegisterWriters : Prop :=
  ∀ (s t : State) (i : Instr), i ≠ .reset → exec i s = .next t →
    (t.data = s.data ∨ ∃ n, i = .bufRead n ∧ ∃ v, t.data = s.data.set 0 v) ∧
    (t.total = s.total ∧ t.fill = s.fill ∧ t.wordCount = s.wordCount ∧ t.blockCount = s.blockCount ∨
      i = .setLength ∨ i = .encInit ∨ (∃ sym, i = .encSym sym) ∨ ∃ len, i = .encBits len) ∧
    (t.root = s.root ∨ i = .clrTables ∨ ∃ n, i = .setRoot n) ∧
    (t.cursor = s.cursor ∧ t.bitPos = s.bitPos ∨ i = .decInit ∨ i = .decBit ∨ i = .decSym) ∧
    (t.outSym = s.outSym ∨ i = .decBit ∨ i = .decSym) ∧
    (t.count = s.count ∨ t.count = s.count + 1#64 ∨ t.count = 0#64 ∧ (i = .encInit ∨ i = .decInit)) ∧
    (t.nodes = s.nodes ∨ i = .clrTables ∨ ∃ n, i = .writeNode n) ∧
    (t.codes = s.codes ∨ i = .clrTables ∨ ∃ sym len, i = .writeCode sym len) ∧
    t.cfg = s.cfg ∧ t.pending = s.pending ∧ t.rst = s.rst ∧ t.host = s.host ∧ t.turns = s.turns ∧
    t.responses = s.responses

/-- 10_state.md R21: the configuration registers are constants; no step changes them, reset included. -/
def Obligations.ConfigurationConstant : Prop := ∀ s t : State, step s = .next t → t.cfg = s.cfg

/-- 10_state.md R30, 20_memory.md R67: BLOCK_COUNT is at least 1 and at most NUM_BLOCKS, and the trailing word lies in
the last of the storage blocks in use. -/
def Obligations.BlockCountRange : Prop :=
  ∀ s : State, Inv s →
    1 ≤ s.blockCount.toNat ∧ s.blockCount.toNat ≤ s.cfg.numBlocks ∧
    (s.wordCount.toNat - 1) / s.cfg.arraySize + 1 = s.blockCount.toNat

/-- 00_scope.md R16: `mask_code` keeps the code bits and clears every other bit. -/
def Obligations.MaskCodeKeepsCode : Prop :=
  ∀ (w len : Nat) (c : List Word), 1 ≤ w → w ≤ 64 → (∀ v ∈ c, v.toNat < 2 ^ w) →
    (maskCode w len c).length = c.length ∧ (∀ v ∈ maskCode w len c, v.toNat < 2 ^ w) ∧
    ∀ k, codeBit w (maskCode w len c) k = (decide (k < len) && codeBit w c k)

/-- 30_encoding.md R100, 70_reset_and_hazards.md R273: `ISSUE cmd`, under the schedule that runs the block as soon as a
command is latched (log 6), executes the command and reads one STATUS with BUSY = 0 after it. -/
def Obligations.IssueRunsCommand : Prop :=
  ∀ (s t : State) (i : Instr) (ops : List HostOp), s.rst = false → s.turns = [] → s.pending = none → i.wf = true →
    s.host = hostIssue s.cfg i ++ ops → exec i { s with pending := some (encode i), host := .wait :: ops } = .next t →
    core.run 3 s =
      .next { t with
        pending := none, host := ops, responses := t.responses ++ [statusWord { t with pending := none }] }

end
end

