-- ==== Sys2Proof/Laws/Cells.lean ====
section
/-! SUPPORT. The laws of the sparse tables, and of the buffer RAM, the node table and the code table built from them:
read after write, and every write keeps the canonical form. -/

namespace Sys2Proof.Machine

variable {α : Type}

theorem cellGet_set_same (m : List (Nat × α)) (i : Nat) (v : α) : cellGet (cellSet m i v) i = some v := by
  induction m with
  | nil => simp [cellSet, cellGet]
  | cons p rest ih =>
    obtain ⟨j, u⟩ := p
    simp only [cellSet]
    split
    · simp [cellGet]
    · split
      · simp [cellGet]
      · rename_i h
        simp [cellGet, h, ih]

theorem cellGet_set_other (m : List (Nat × α)) {i j : Nat} (v : α) (h : j ≠ i) :
    cellGet (cellSet m i v) j = cellGet m j := by
  induction m with
  | nil => simp [cellSet, cellGet, h]
  | cons p rest ih =>
    obtain ⟨k, u⟩ := p
    simp only [cellSet]
    split
    · simp [cellGet, h]
    · split
      · rename_i hk
        subst hk
        simp [cellGet, h]
      · simp only [cellGet, ih]

theorem cellGet_erase_same (m : List (Nat × α)) (i : Nat) : cellGet (cellErase m i) i = none := by
  induction m with
  | nil => rfl
  | cons p rest ih =>
    obtain ⟨j, u⟩ := p
    simp only [cellErase]
    split
    · exact ih
    · rename_i h
      simp [cellGet, h, ih]

theorem cellGet_erase_other (m : List (Nat × α)) {i j : Nat} (h : j ≠ i) :
    cellGet (cellErase m i) j = cellGet m j := by
  induction m with
  | nil => rfl
  | cons p rest ih =>
    obtain ⟨k, u⟩ := p
    simp only [cellErase]
    split
    · rename_i hk
      subst hk
      simp [cellGet, h, ih]
    · simp only [cellGet, ih]

theorem cellsAbove_set {k i : Nat} {v : α} {m : List (Nat × α)} (hm : cellsAbove k m = true) (hk : k < i) :
    cellsAbove k (cellSet m i v) = true := by
  induction m with
  | nil => simp [cellSet, cellsAbove, hk]
  | cons p rest ih =>
    obtain ⟨j, u⟩ := p
    simp only [cellsAbove, Bool.and_eq_true, decide_eq_true_eq] at hm
    simp only [cellSet]
    split
    · simp [cellsAbove, hk, hm]
    · split
      · simp [cellsAbove, hk, hm.2]
      · simp [cellsAbove, hm.1, ih hm.2]

theorem cellsAbove_erase {k i : Nat} {m : List (Nat × α)} (hm : cellsAbove k m = true) :
    cellsAbove k (cellErase m i) = true := by
  induction m with
  | nil => rfl
  | cons p rest ih =>
    obtain ⟨j, u⟩ := p
    simp only [cellsAbove, Bool.and_eq_true, decide_eq_true_eq] at hm
    simp only [cellErase]
    split
    · exact ih hm.2
    · simp [cellsAbove, hm.1, ih hm.2]

theorem cellsAbove_mono {k l : Nat} {m : List (Nat × α)} (hm : cellsAbove l m = true) (h : k ≤ l) :
    cellsAbove k m = true := by
  induction m with
  | nil => rfl
  | cons p rest ih =>
    obtain ⟨j, u⟩ := p
    simp only [cellsAbove, Bool.and_eq_true, decide_eq_true_eq] at hm ⊢
    exact ⟨by omega, ih hm.2⟩

/-- A write keeps the indices rising. -/
theorem cellsRising_set {m : List (Nat × α)} (hm : cellsRising m = true) (i : Nat) (v : α) :
    cellsRising (cellSet m i v) = true := by
  induction m with
  | nil => rfl
  | cons p rest ih =>
    obtain ⟨j, u⟩ := p
    simp only [cellsRising, Bool.and_eq_true] at hm
    simp only [cellSet]
    split
    · rename_i h
      simp [cellsRising, cellsAbove, h, hm, cellsAbove_mono hm.1 (Nat.le_of_lt h)]
    · split
      · rename_i h
        subst h
        simp [cellsRising, hm]
      · simp only [cellsRising, Bool.and_eq_true]
        exact ⟨cellsAbove_set hm.1 (by omega), ih hm.2⟩

/-- Taking an index off keeps the indices rising. -/
theorem cellsRising_erase {m : List (Nat × α)} (hm : cellsRising m = true) (i : Nat) :
    cellsRising (cellErase m i) = true := by
  induction m with
  | nil => rfl
  | cons p rest ih =>
    obtain ⟨j, u⟩ := p
    simp only [cellsRising, Bool.and_eq_true] at hm
    simp only [cellErase]
    split
    · exact ih hm.2
    · simp only [cellsRising, Bool.and_eq_true]
      exact ⟨cellsAbove_erase hm.1, ih hm.2⟩

/-- A write keeps a property of all entries that the written entry has. -/
theorem cellsAll_set {p : Nat → α → Bool} {m : List (Nat × α)} (hm : cellsAll p m = true) {i : Nat} {v : α}
    (h : p i v = true) : cellsAll p (cellSet m i v) = true := by
  induction m with
  | nil => simp [cellSet, cellsAll, h]
  | cons q rest ih =>
    obtain ⟨j, u⟩ := q
    simp only [cellsAll, Bool.and_eq_true] at hm
    simp only [cellSet]
    split
    · simp [cellsAll, h, hm]
    · split
      · simp [cellsAll, h, hm.2]
      · simp [cellsAll, hm.1, ih hm.2]

theorem cellsAll_erase {p : Nat → α → Bool} {m : List (Nat × α)} (hm : cellsAll p m = true) (i : Nat) :
    cellsAll p (cellErase m i) = true := by
  induction m with
  | nil => rfl
  | cons q rest ih =>
    obtain ⟨j, u⟩ := q
    simp only [cellsAll, Bool.and_eq_true] at hm
    simp only [cellErase]
    split
    · exact ih hm.2
    · simp [cellsAll, hm.1, ih hm.2]

/-- An entry that is read has every property that all entries have. -/
theorem cellsAll_get {p : Nat → α → Bool} {m : List (Nat × α)} (hm : cellsAll p m = true) {i : Nat} {v : α}
    (h : cellGet m i = some v) : p i v = true := by
  induction m with
  | nil => simp [cellGet] at h
  | cons q rest ih =>
    obtain ⟨j, u⟩ := q
    simp only [cellsAll, Bool.and_eq_true] at hm
    simp only [cellGet] at h
    split at h
    · rename_i hj
      subst hj
      cases h
      exact hm.1
    · exact ih hm.2 h

theorem cellGet_above {k i : Nat} {m : List (Nat × α)} (hm : cellsAbove k m = true) (h : i ≤ k) :
    cellGet m i = none := by
  induction m with
  | nil => rfl
  | cons p rest ih =>
    obtain ⟨j, u⟩ := p
    simp only [cellsAbove, Bool.and_eq_true, decide_eq_true_eq] at hm
    simp only [cellGet]
    rw [if_neg (by omega)]
    exact ih hm.2

/-- The form is canonical: rising lists with equal contents are equal. -/
theorem cells_ext {m n : List (Nat × α)} (hm : cellsRising m = true) (hn : cellsRising n = true)
    (h : ∀ i, cellGet m i = cellGet n i) : m = n := by
  induction m generalizing n with
  | nil =>
    cases n with
    | nil => rfl
    | cons q rest =>
      have := h q.1
      simp [cellGet] at this
  | cons p rest ih =>
    obtain ⟨j, u⟩ := p
    cases n with
    | nil =>
      have := h j
      simp [cellGet] at this
    | cons q rest' =>
      obtain ⟨k, v⟩ := q
      simp only [cellsRising, Bool.and_eq_true] at hm hn
      have hj := h j
      have hk := h k
      simp only [cellGet, if_true] at hj hk
      have hjk : j = k := by
        by_contra hne
        rcases Nat.lt_or_gt_of_ne hne with hlt | hgt
        · rw [if_neg hne, cellGet_above hn.1 (Nat.le_of_lt hlt)] at hj
          simp at hj
        · rw [if_neg (fun he => hne he.symm), cellGet_above hm.1 (Nat.le_of_lt hgt)] at hk
          simp at hk
      subst hjk
      simp only [if_true, Option.some.injEq] at hj
      subst hj
      rw [ih hm.2 hn.2]
      intro i
      have hi := h i
      simp only [cellGet] at hi
      split at hi
      · rename_i he
        subst he
        rw [cellGet_above hm.1 (Nat.le_refl _), cellGet_above hn.1 (Nat.le_refl _)]
      · exact hi

/-! ### The buffer RAM -/

@[simp] theorem Memory.read_write_same (m : Memory) (i : Nat) (v : Word) :
    Memory.read (Memory.write m i v) i = some v := by
  unfold Memory.write
  split
  · rename_i h
    simp [Memory.read, cellGet_erase_same, h]
  · simp [Memory.read, cellGet_set_same]

theorem Memory.read_write_other (m : Memory) {i j : Nat} (v : Word) (h : j ≠ i) :
    Memory.read (Memory.write m i v) j = Memory.read m j := by
  unfold Memory.write
  split <;> simp [Memory.read, cellGet_erase_other, cellGet_set_other, h]

/-- Reset memory is in canonical form. -/
theorem Memory.wf_nil : Memory.wf [] = true := rfl

/-- Every write keeps the canonical form. -/
theorem Memory.wf_write {m : Memory} (hm : Memory.wf m = true) (i : Nat) (v : Word) :
    Memory.wf (Memory.write m i v) = true := by
  simp only [Memory.wf, Bool.and_eq_true] at hm ⊢
  unfold Memory.write
  split
  · exact ⟨cellsRising_erase hm.1 i, cellsAll_erase hm.2 i⟩
  · rename_i h
    exact ⟨cellsRising_set hm.1 i v, cellsAll_set hm.2 (by simpa using h)⟩

/-- A write keeps a property of all listed words that the written word has. -/
theorem Memory.all_write {p : Nat → Word → Bool} {m : Memory} (hm : cellsAll p m = true) {i : Nat} {v : Word}
    (h : p i v = true) : cellsAll p (Memory.write m i v) = true := by
  unfold Memory.write
  split
  · exact cellsAll_erase hm i
  · exact cellsAll_set hm h

/-- A word that is listed in a canonical memory differs from what an unlisted word holds. -/
theorem Memory.get_ne_unlisted {m : Memory} (hm : Memory.wf m = true) {i : Nat} {v : Word} (h : cellGet m i = some v) :
    Memory.unlisted i ≠ some v := by
  simp only [Memory.wf, Bool.and_eq_true] at hm
  simpa using cellsAll_get hm.2 h

/-- Canonical memories with equal words are equal data. -/
theorem Memory.wf_ext {m n : Memory} (hm : Memory.wf m = true) (hn : Memory.wf n = true)
    (h : ∀ i, Memory.read m i = Memory.read n i) : m = n := by
  have hm' := hm
  have hn' := hn
  simp only [Memory.wf, Bool.and_eq_true] at hm' hn'
  refine cells_ext hm'.1 hn'.1 fun i => ?_
  have hi := h i
  unfold Memory.read at hi
  cases hmi : cellGet m i with
  | none =>
    cases hni : cellGet n i with
    | none => rfl
    | some v =>
      simp only [hmi, hni] at hi
      exact absurd hi (Memory.get_ne_unlisted hn hni)
  | some u =>
    cases hni : cellGet n i with
    | none =>
      simp only [hmi, hni] at hi
      exact absurd hi.symm (Memory.get_ne_unlisted hm hmi)
    | some v => simpa only [hmi, hni] using hi

/-! ### The node table -/

@[simp] theorem nodeGet_set_same (t : List (Nat × Node)) (i : Nat) (q : Node) : nodeGet (nodeSet t i q) i = q := by
  unfold nodeSet
  split
  · rename_i h
    simp [nodeGet, cellGet_erase_same, h]
  · simp [nodeGet, cellGet_set_same]

theorem nodeGet_set_other (t : List (Nat × Node)) {i j : Nat} (q : Node) (h : j ≠ i) :
    nodeGet (nodeSet t i q) j = nodeGet t j := by
  unfold nodeSet
  split <;> simp [nodeGet, cellGet_erase_other, cellGet_set_other, h]

theorem nodesWf_set {t : List (Nat × Node)} (ht : nodesWf t = true) (i : Nat) (q : Node) :
    nodesWf (nodeSet t i q) = true := by
  simp only [nodesWf, Bool.and_eq_true] at ht ⊢
  unfold nodeSet
  split
  · exact ⟨cellsRising_erase ht.1 i, cellsAll_erase ht.2 i⟩
  · rename_i h
    exact ⟨cellsRising_set ht.1 i q, cellsAll_set ht.2 (by simpa using h)⟩

theorem cellsAll_nodeSet {p : Nat → Node → Bool} {t : List (Nat × Node)} (ht : cellsAll p t = true) {i : Nat} {q : Node}
    (h : q ≠ .invalid → p i q = true) : cellsAll p (nodeSet t i q) = true := by
  unfold nodeSet
  split
  · exact cellsAll_erase ht i
  · rename_i hq
    exact cellsAll_set ht (h hq)

/-- A node that is not INVALID has every property that all listed nodes have. -/
theorem cellsAll_nodeGet {p : Nat → Node → Bool} {t : List (Nat × Node)} (ht : cellsAll p t = true) {i : Nat}
    (h : nodeGet t i ≠ .invalid) : p i (nodeGet t i) = true := by
  unfold nodeGet at h ⊢
  split at h
  · rename_i q hq
    exact cellsAll_get ht hq
  · exact absurd rfl h

@[simp] theorem nodeGet_nil (i : Nat) : nodeGet [] i = .invalid := rfl

/-! ### The code table -/

@[simp] theorem codeGet_set_same (t : List (Nat × CodeEntry)) (i : Nat) (e : CodeEntry) :
    codeGet (codeSet t i e) i = some e := cellGet_set_same t i e

theorem codeGet_set_other (t : List (Nat × CodeEntry)) {i j : Nat} (e : CodeEntry) (h : j ≠ i) :
    codeGet (codeSet t i e) j = codeGet t j := cellGet_set_other t e h

@[simp] theorem codeGet_nil (i : Nat) : codeGet [] i = none := rfl

end Sys2Proof.Machine
end

