-- ==== Sys2Proof/Laws/State.lean ====
section
/-! SUPPORT. One lemma per field per shared update of State, true by unfolding, so that no later proof unfolds an
update. -/

namespace Sys2Proof.Machine

/-! ### dataSet -/

@[simp] theorem dataSet_cfg (s : State) (i : Nat) (v : Reg) : (dataSet s i v).cfg = s.cfg := rfl
@[simp] theorem dataSet_pending (s : State) (i : Nat) (v : Reg) : (dataSet s i v).pending = s.pending := rfl
@[simp] theorem dataSet_mode (s : State) (i : Nat) (v : Reg) : (dataSet s i v).mode = s.mode := rfl
@[simp] theorem dataSet_symValid (s : State) (i : Nat) (v : Reg) : (dataSet s i v).symValid = s.symValid := rfl
@[simp] theorem dataSet_eos (s : State) (i : Nat) (v : Reg) : (dataSet s i v).eos = s.eos := rfl
@[simp] theorem dataSet_ovr (s : State) (i : Nat) (v : Reg) : (dataSet s i v).ovr = s.ovr := rfl
@[simp] theorem dataSet_err (s : State) (i : Nat) (v : Reg) : (dataSet s i v).err = s.err := rfl
@[simp] theorem dataSet_errCmd (s : State) (i : Nat) (v : Reg) : (dataSet s i v).errCmd = s.errCmd := rfl
@[simp] theorem dataSet_data (s : State) (i : Nat) (v : Reg) : (dataSet s i v).data = s.data.set i v := rfl
@[simp] theorem dataSet_total (s : State) (i : Nat) (v : Reg) : (dataSet s i v).total = s.total := rfl
@[simp] theorem dataSet_fill (s : State) (i : Nat) (v : Reg) : (dataSet s i v).fill = s.fill := rfl
@[simp] theorem dataSet_wordCount (s : State) (i : Nat) (v : Reg) : (dataSet s i v).wordCount = s.wordCount := rfl
@[simp] theorem dataSet_blockCount (s : State) (i : Nat) (v : Reg) : (dataSet s i v).blockCount = s.blockCount := rfl
@[simp] theorem dataSet_root (s : State) (i : Nat) (v : Reg) : (dataSet s i v).root = s.root := rfl
@[simp] theorem dataSet_cursor (s : State) (i : Nat) (v : Reg) : (dataSet s i v).cursor = s.cursor := rfl
@[simp] theorem dataSet_bitPos (s : State) (i : Nat) (v : Reg) : (dataSet s i v).bitPos = s.bitPos := rfl
@[simp] theorem dataSet_outSym (s : State) (i : Nat) (v : Reg) : (dataSet s i v).outSym = s.outSym := rfl
@[simp] theorem dataSet_count (s : State) (i : Nat) (v : Reg) : (dataSet s i v).count = s.count := rfl
@[simp] theorem dataSet_buf (s : State) (i : Nat) (v : Reg) : (dataSet s i v).buf = s.buf := rfl
@[simp] theorem dataSet_nodes (s : State) (i : Nat) (v : Reg) : (dataSet s i v).nodes = s.nodes := rfl
@[simp] theorem dataSet_codes (s : State) (i : Nat) (v : Reg) : (dataSet s i v).codes = s.codes := rfl
@[simp] theorem dataSet_rst (s : State) (i : Nat) (v : Reg) : (dataSet s i v).rst = s.rst := rfl
@[simp] theorem dataSet_host (s : State) (i : Nat) (v : Reg) : (dataSet s i v).host = s.host := rfl
@[simp] theorem dataSet_turns (s : State) (i : Nat) (v : Reg) : (dataSet s i v).turns = s.turns := rfl
@[simp] theorem dataSet_responses (s : State) (i : Nat) (v : Reg) : (dataSet s i v).responses = s.responses := rfl
@[simp] theorem dataSet_draws (s : State) (i : Nat) (v : Reg) : (dataSet s i v).draws = s.draws := rfl

/-! ### drawFree -/

@[simp] theorem drawFree_cfg (s : State) : (drawFree s).2.cfg = s.cfg := rfl
@[simp] theorem drawFree_pending (s : State) : (drawFree s).2.pending = s.pending := rfl
@[simp] theorem drawFree_mode (s : State) : (drawFree s).2.mode = s.mode := rfl
@[simp] theorem drawFree_symValid (s : State) : (drawFree s).2.symValid = s.symValid := rfl
@[simp] theorem drawFree_eos (s : State) : (drawFree s).2.eos = s.eos := rfl
@[simp] theorem drawFree_ovr (s : State) : (drawFree s).2.ovr = s.ovr := rfl
@[simp] theorem drawFree_err (s : State) : (drawFree s).2.err = s.err := rfl
@[simp] theorem drawFree_errCmd (s : State) : (drawFree s).2.errCmd = s.errCmd := rfl
@[simp] theorem drawFree_data (s : State) : (drawFree s).2.data = s.data := rfl
@[simp] theorem drawFree_total (s : State) : (drawFree s).2.total = s.total := rfl
@[simp] theorem drawFree_fill (s : State) : (drawFree s).2.fill = s.fill := rfl
@[simp] theorem drawFree_wordCount (s : State) : (drawFree s).2.wordCount = s.wordCount := rfl
@[simp] theorem drawFree_blockCount (s : State) : (drawFree s).2.blockCount = s.blockCount := rfl
@[simp] theorem drawFree_root (s : State) : (drawFree s).2.root = s.root := rfl
@[simp] theorem drawFree_cursor (s : State) : (drawFree s).2.cursor = s.cursor := rfl
@[simp] theorem drawFree_bitPos (s : State) : (drawFree s).2.bitPos = s.bitPos := rfl
@[simp] theorem drawFree_outSym (s : State) : (drawFree s).2.outSym = s.outSym := rfl
@[simp] theorem drawFree_count (s : State) : (drawFree s).2.count = s.count := rfl
@[simp] theorem drawFree_buf (s : State) : (drawFree s).2.buf = s.buf := rfl
@[simp] theorem drawFree_nodes (s : State) : (drawFree s).2.nodes = s.nodes := rfl
@[simp] theorem drawFree_codes (s : State) : (drawFree s).2.codes = s.codes := rfl
@[simp] theorem drawFree_rst (s : State) : (drawFree s).2.rst = s.rst := rfl
@[simp] theorem drawFree_host (s : State) : (drawFree s).2.host = s.host := rfl
@[simp] theorem drawFree_turns (s : State) : (drawFree s).2.turns = s.turns := rfl
@[simp] theorem drawFree_responses (s : State) : (drawFree s).2.responses = s.responses := rfl
@[simp] theorem drawFree_draws (s : State) : (drawFree s).2.draws = s.draws + 1 := rfl

/-! ### bufWrite -/

@[simp] theorem bufWrite_cfg (s : State) (i : Nat) (v : Word) : (bufWrite s i v).cfg = s.cfg := rfl
@[simp] theorem bufWrite_pending (s : State) (i : Nat) (v : Word) : (bufWrite s i v).pending = s.pending := rfl
@[simp] theorem bufWrite_mode (s : State) (i : Nat) (v : Word) : (bufWrite s i v).mode = s.mode := rfl
@[simp] theorem bufWrite_symValid (s : State) (i : Nat) (v : Word) : (bufWrite s i v).symValid = s.symValid := rfl
@[simp] theorem bufWrite_eos (s : State) (i : Nat) (v : Word) : (bufWrite s i v).eos = s.eos := rfl
@[simp] theorem bufWrite_ovr (s : State) (i : Nat) (v : Word) : (bufWrite s i v).ovr = s.ovr := rfl
@[simp] theorem bufWrite_err (s : State) (i : Nat) (v : Word) : (bufWrite s i v).err = s.err := rfl
@[simp] theorem bufWrite_errCmd (s : State) (i : Nat) (v : Word) : (bufWrite s i v).errCmd = s.errCmd := rfl
@[simp] theorem bufWrite_data (s : State) (i : Nat) (v : Word) : (bufWrite s i v).data = s.data := rfl
@[simp] theorem bufWrite_total (s : State) (i : Nat) (v : Word) : (bufWrite s i v).total = s.total := rfl
@[simp] theorem bufWrite_fill (s : State) (i : Nat) (v : Word) : (bufWrite s i v).fill = s.fill := rfl
@[simp] theorem bufWrite_wordCount (s : State) (i : Nat) (v : Word) : (bufWrite s i v).wordCount = s.wordCount := rfl
@[simp] theorem bufWrite_blockCount (s : State) (i : Nat) (v : Word) : (bufWrite s i v).blockCount = s.blockCount := rfl
@[simp] theorem bufWrite_root (s : State) (i : Nat) (v : Word) : (bufWrite s i v).root = s.root := rfl
@[simp] theorem bufWrite_cursor (s : State) (i : Nat) (v : Word) : (bufWrite s i v).cursor = s.cursor := rfl
@[simp] theorem bufWrite_bitPos (s : State) (i : Nat) (v : Word) : (bufWrite s i v).bitPos = s.bitPos := rfl
@[simp] theorem bufWrite_outSym (s : State) (i : Nat) (v : Word) : (bufWrite s i v).outSym = s.outSym := rfl
@[simp] theorem bufWrite_count (s : State) (i : Nat) (v : Word) : (bufWrite s i v).count = s.count := rfl
@[simp] theorem bufWrite_buf (s : State) (i : Nat) (v : Word) :
    (bufWrite s i v).buf = Memory.write s.buf i (wordOf s.cfg.w v) := rfl
@[simp] theorem bufWrite_nodes (s : State) (i : Nat) (v : Word) : (bufWrite s i v).nodes = s.nodes := rfl
@[simp] theorem bufWrite_codes (s : State) (i : Nat) (v : Word) : (bufWrite s i v).codes = s.codes := rfl
@[simp] theorem bufWrite_rst (s : State) (i : Nat) (v : Word) : (bufWrite s i v).rst = s.rst := rfl
@[simp] theorem bufWrite_host (s : State) (i : Nat) (v : Word) : (bufWrite s i v).host = s.host := rfl
@[simp] theorem bufWrite_turns (s : State) (i : Nat) (v : Word) : (bufWrite s i v).turns = s.turns := rfl
@[simp] theorem bufWrite_responses (s : State) (i : Nat) (v : Word) : (bufWrite s i v).responses = s.responses := rfl
@[simp] theorem bufWrite_draws (s : State) (i : Nat) (v : Word) : (bufWrite s i v).draws = s.draws := rfl

/-! ### setExtent -/

@[simp] theorem setExtent_cfg (s : State) (t f n : Nat) : (setExtent s t f n).cfg = s.cfg := rfl
@[simp] theorem setExtent_pending (s : State) (t f n : Nat) : (setExtent s t f n).pending = s.pending := rfl
@[simp] theorem setExtent_mode (s : State) (t f n : Nat) : (setExtent s t f n).mode = s.mode := rfl
@[simp] theorem setExtent_symValid (s : State) (t f n : Nat) : (setExtent s t f n).symValid = s.symValid := rfl
@[simp] theorem setExtent_eos (s : State) (t f n : Nat) : (setExtent s t f n).eos = s.eos := rfl
@[simp] theorem setExtent_ovr (s : State) (t f n : Nat) : (setExtent s t f n).ovr = s.ovr := rfl
@[simp] theorem setExtent_err (s : State) (t f n : Nat) : (setExtent s t f n).err = s.err := rfl
@[simp] theorem setExtent_errCmd (s : State) (t f n : Nat) : (setExtent s t f n).errCmd = s.errCmd := rfl
@[simp] theorem setExtent_data (s : State) (t f n : Nat) : (setExtent s t f n).data = s.data := rfl
@[simp] theorem setExtent_total (s : State) (t f n : Nat) : (setExtent s t f n).total = BitVec.ofNat 64 t := rfl
@[simp] theorem setExtent_fill (s : State) (t f n : Nat) : (setExtent s t f n).fill = BitVec.ofNat 64 f := rfl
@[simp] theorem setExtent_wordCount (s : State) (t f n : Nat) : (setExtent s t f n).wordCount = BitVec.ofNat 64 n := rfl
@[simp] theorem setExtent_blockCount (s : State) (t f n : Nat) :
    (setExtent s t f n).blockCount = BitVec.ofNat 64 (ceilDiv n s.cfg.arraySize) := rfl
@[simp] theorem setExtent_root (s : State) (t f n : Nat) : (setExtent s t f n).root = s.root := rfl
@[simp] theorem setExtent_cursor (s : State) (t f n : Nat) : (setExtent s t f n).cursor = s.cursor := rfl
@[simp] theorem setExtent_bitPos (s : State) (t f n : Nat) : (setExtent s t f n).bitPos = s.bitPos := rfl
@[simp] theorem setExtent_outSym (s : State) (t f n : Nat) : (setExtent s t f n).outSym = s.outSym := rfl
@[simp] theorem setExtent_count (s : State) (t f n : Nat) : (setExtent s t f n).count = s.count := rfl
@[simp] theorem setExtent_buf (s : State) (t f n : Nat) : (setExtent s t f n).buf = s.buf := rfl
@[simp] theorem setExtent_nodes (s : State) (t f n : Nat) : (setExtent s t f n).nodes = s.nodes := rfl
@[simp] theorem setExtent_codes (s : State) (t f n : Nat) : (setExtent s t f n).codes = s.codes := rfl
@[simp] theorem setExtent_rst (s : State) (t f n : Nat) : (setExtent s t f n).rst = s.rst := rfl
@[simp] theorem setExtent_host (s : State) (t f n : Nat) : (setExtent s t f n).host = s.host := rfl
@[simp] theorem setExtent_turns (s : State) (t f n : Nat) : (setExtent s t f n).turns = s.turns := rfl
@[simp] theorem setExtent_responses (s : State) (t f n : Nat) : (setExtent s t f n).responses = s.responses := rfl
@[simp] theorem setExtent_draws (s : State) (t f n : Nat) : (setExtent s t f n).draws = s.draws := rfl

/-! ### countUp -/

@[simp] theorem countUp_cfg (s : State) : (countUp s).cfg = s.cfg := rfl
@[simp] theorem countUp_pending (s : State) : (countUp s).pending = s.pending := rfl
@[simp] theorem countUp_mode (s : State) : (countUp s).mode = s.mode := rfl
@[simp] theorem countUp_symValid (s : State) : (countUp s).symValid = s.symValid := rfl
@[simp] theorem countUp_eos (s : State) : (countUp s).eos = s.eos := rfl
@[simp] theorem countUp_ovr (s : State) : (countUp s).ovr = s.ovr := rfl
@[simp] theorem countUp_err (s : State) : (countUp s).err = s.err := rfl
@[simp] theorem countUp_errCmd (s : State) : (countUp s).errCmd = s.errCmd := rfl
@[simp] theorem countUp_data (s : State) : (countUp s).data = s.data := rfl
@[simp] theorem countUp_total (s : State) : (countUp s).total = s.total := rfl
@[simp] theorem countUp_fill (s : State) : (countUp s).fill = s.fill := rfl
@[simp] theorem countUp_wordCount (s : State) : (countUp s).wordCount = s.wordCount := rfl
@[simp] theorem countUp_blockCount (s : State) : (countUp s).blockCount = s.blockCount := rfl
@[simp] theorem countUp_root (s : State) : (countUp s).root = s.root := rfl
@[simp] theorem countUp_cursor (s : State) : (countUp s).cursor = s.cursor := rfl
@[simp] theorem countUp_bitPos (s : State) : (countUp s).bitPos = s.bitPos := rfl
@[simp] theorem countUp_outSym (s : State) : (countUp s).outSym = s.outSym := rfl
@[simp] theorem countUp_count (s : State) : (countUp s).count = s.count + 1#64 := rfl
@[simp] theorem countUp_buf (s : State) : (countUp s).buf = s.buf := rfl
@[simp] theorem countUp_nodes (s : State) : (countUp s).nodes = s.nodes := rfl
@[simp] theorem countUp_codes (s : State) : (countUp s).codes = s.codes := rfl
@[simp] theorem countUp_rst (s : State) : (countUp s).rst = s.rst := rfl
@[simp] theorem countUp_host (s : State) : (countUp s).host = s.host := rfl
@[simp] theorem countUp_turns (s : State) : (countUp s).turns = s.turns := rfl
@[simp] theorem countUp_responses (s : State) : (countUp s).responses = s.responses := rfl
@[simp] theorem countUp_draws (s : State) : (countUp s).draws = s.draws := rfl

/-! ### startFlags -/

@[simp] theorem startFlags_cfg (e : Bool) (s : State) : (startFlags e s).cfg = s.cfg := rfl
@[simp] theorem startFlags_pending (e : Bool) (s : State) : (startFlags e s).pending = s.pending := rfl
@[simp] theorem startFlags_mode (e : Bool) (s : State) : (startFlags e s).mode = s.mode := rfl
@[simp] theorem startFlags_symValid (e : Bool) (s : State) : (startFlags e s).symValid = false := rfl
@[simp] theorem startFlags_eos (e : Bool) (s : State) : (startFlags e s).eos = e := rfl
@[simp] theorem startFlags_ovr (e : Bool) (s : State) : (startFlags e s).ovr = s.ovr := rfl
@[simp] theorem startFlags_err (e : Bool) (s : State) : (startFlags e s).err = s.err := rfl
@[simp] theorem startFlags_errCmd (e : Bool) (s : State) : (startFlags e s).errCmd = s.errCmd := rfl
@[simp] theorem startFlags_data (e : Bool) (s : State) : (startFlags e s).data = s.data := rfl
@[simp] theorem startFlags_total (e : Bool) (s : State) : (startFlags e s).total = s.total := rfl
@[simp] theorem startFlags_fill (e : Bool) (s : State) : (startFlags e s).fill = s.fill := rfl
@[simp] theorem startFlags_wordCount (e : Bool) (s : State) : (startFlags e s).wordCount = s.wordCount := rfl
@[simp] theorem startFlags_blockCount (e : Bool) (s : State) : (startFlags e s).blockCount = s.blockCount := rfl
@[simp] theorem startFlags_root (e : Bool) (s : State) : (startFlags e s).root = s.root := rfl
@[simp] theorem startFlags_cursor (e : Bool) (s : State) : (startFlags e s).cursor = s.cursor := rfl
@[simp] theorem startFlags_bitPos (e : Bool) (s : State) : (startFlags e s).bitPos = s.bitPos := rfl
@[simp] theorem startFlags_outSym (e : Bool) (s : State) : (startFlags e s).outSym = s.outSym := rfl
@[simp] theorem startFlags_count (e : Bool) (s : State) : (startFlags e s).count = s.count := rfl
@[simp] theorem startFlags_buf (e : Bool) (s : State) : (startFlags e s).buf = s.buf := rfl
@[simp] theorem startFlags_nodes (e : Bool) (s : State) : (startFlags e s).nodes = s.nodes := rfl
@[simp] theorem startFlags_codes (e : Bool) (s : State) : (startFlags e s).codes = s.codes := rfl
@[simp] theorem startFlags_rst (e : Bool) (s : State) : (startFlags e s).rst = s.rst := rfl
@[simp] theorem startFlags_host (e : Bool) (s : State) : (startFlags e s).host = s.host := rfl
@[simp] theorem startFlags_turns (e : Bool) (s : State) : (startFlags e s).turns = s.turns := rfl
@[simp] theorem startFlags_responses (e : Bool) (s : State) : (startFlags e s).responses = s.responses := rfl
@[simp] theorem startFlags_draws (e : Bool) (s : State) : (startFlags e s).draws = s.draws := rfl

/-! ### clearSymValid -/

@[simp] theorem clearSymValid_cfg (s : State) : (clearSymValid s).cfg = s.cfg := rfl
@[simp] theorem clearSymValid_pending (s : State) : (clearSymValid s).pending = s.pending := rfl
@[simp] theorem clearSymValid_mode (s : State) : (clearSymValid s).mode = s.mode := rfl
@[simp] theorem clearSymValid_symValid (s : State) : (clearSymValid s).symValid = false := rfl
@[simp] theorem clearSymValid_eos (s : State) : (clearSymValid s).eos = s.eos := rfl
@[simp] theorem clearSymValid_ovr (s : State) : (clearSymValid s).ovr = s.ovr := rfl
@[simp] theorem clearSymValid_err (s : State) : (clearSymValid s).err = s.err := rfl
@[simp] theorem clearSymValid_errCmd (s : State) : (clearSymValid s).errCmd = s.errCmd := rfl
@[simp] theorem clearSymValid_data (s : State) : (clearSymValid s).data = s.data := rfl
@[simp] theorem clearSymValid_total (s : State) : (clearSymValid s).total = s.total := rfl
@[simp] theorem clearSymValid_fill (s : State) : (clearSymValid s).fill = s.fill := rfl
@[simp] theorem clearSymValid_wordCount (s : State) : (clearSymValid s).wordCount = s.wordCount := rfl
@[simp] theorem clearSymValid_blockCount (s : State) : (clearSymValid s).blockCount = s.blockCount := rfl
@[simp] theorem clearSymValid_root (s : State) : (clearSymValid s).root = s.root := rfl
@[simp] theorem clearSymValid_cursor (s : State) : (clearSymValid s).cursor = s.cursor := rfl
@[simp] theorem clearSymValid_bitPos (s : State) : (clearSymValid s).bitPos = s.bitPos := rfl
@[simp] theorem clearSymValid_outSym (s : State) : (clearSymValid s).outSym = s.outSym := rfl
@[simp] theorem clearSymValid_count (s : State) : (clearSymValid s).count = s.count := rfl
@[simp] theorem clearSymValid_buf (s : State) : (clearSymValid s).buf = s.buf := rfl
@[simp] theorem clearSymValid_nodes (s : State) : (clearSymValid s).nodes = s.nodes := rfl
@[simp] theorem clearSymValid_codes (s : State) : (clearSymValid s).codes = s.codes := rfl
@[simp] theorem clearSymValid_rst (s : State) : (clearSymValid s).rst = s.rst := rfl
@[simp] theorem clearSymValid_host (s : State) : (clearSymValid s).host = s.host := rfl
@[simp] theorem clearSymValid_turns (s : State) : (clearSymValid s).turns = s.turns := rfl
@[simp] theorem clearSymValid_responses (s : State) : (clearSymValid s).responses = s.responses := rfl
@[simp] theorem clearSymValid_draws (s : State) : (clearSymValid s).draws = s.draws := rfl

/-! ### setOvr -/

@[simp] theorem setOvr_cfg (s : State) : (setOvr s).cfg = s.cfg := rfl
@[simp] theorem setOvr_pending (s : State) : (setOvr s).pending = s.pending := rfl
@[simp] theorem setOvr_mode (s : State) : (setOvr s).mode = s.mode := rfl
@[simp] theorem setOvr_symValid (s : State) : (setOvr s).symValid = s.symValid := rfl
@[simp] theorem setOvr_eos (s : State) : (setOvr s).eos = s.eos := rfl
@[simp] theorem setOvr_ovr (s : State) : (setOvr s).ovr = true := rfl
@[simp] theorem setOvr_err (s : State) : (setOvr s).err = s.err := rfl
@[simp] theorem setOvr_errCmd (s : State) : (setOvr s).errCmd = s.errCmd := rfl
@[simp] theorem setOvr_data (s : State) : (setOvr s).data = s.data := rfl
@[simp] theorem setOvr_total (s : State) : (setOvr s).total = s.total := rfl
@[simp] theorem setOvr_fill (s : State) : (setOvr s).fill = s.fill := rfl
@[simp] theorem setOvr_wordCount (s : State) : (setOvr s).wordCount = s.wordCount := rfl
@[simp] theorem setOvr_blockCount (s : State) : (setOvr s).blockCount = s.blockCount := rfl
@[simp] theorem setOvr_root (s : State) : (setOvr s).root = s.root := rfl
@[simp] theorem setOvr_cursor (s : State) : (setOvr s).cursor = s.cursor := rfl
@[simp] theorem setOvr_bitPos (s : State) : (setOvr s).bitPos = s.bitPos := rfl
@[simp] theorem setOvr_outSym (s : State) : (setOvr s).outSym = s.outSym := rfl
@[simp] theorem setOvr_count (s : State) : (setOvr s).count = s.count := rfl
@[simp] theorem setOvr_buf (s : State) : (setOvr s).buf = s.buf := rfl
@[simp] theorem setOvr_nodes (s : State) : (setOvr s).nodes = s.nodes := rfl
@[simp] theorem setOvr_codes (s : State) : (setOvr s).codes = s.codes := rfl
@[simp] theorem setOvr_rst (s : State) : (setOvr s).rst = s.rst := rfl
@[simp] theorem setOvr_host (s : State) : (setOvr s).host = s.host := rfl
@[simp] theorem setOvr_turns (s : State) : (setOvr s).turns = s.turns := rfl
@[simp] theorem setOvr_responses (s : State) : (setOvr s).responses = s.responses := rfl
@[simp] theorem setOvr_draws (s : State) : (setOvr s).draws = s.draws := rfl

/-! ### raise -/

@[simp] theorem raise_cfg (e : ErrCode) (cmd : Reg) (s : State) : (raise e cmd s).cfg = s.cfg := rfl
@[simp] theorem raise_pending (e : ErrCode) (cmd : Reg) (s : State) : (raise e cmd s).pending = s.pending := rfl
@[simp] theorem raise_mode (e : ErrCode) (cmd : Reg) (s : State) : (raise e cmd s).mode = .fault := rfl
@[simp] theorem raise_symValid (e : ErrCode) (cmd : Reg) (s : State) : (raise e cmd s).symValid = false := rfl
@[simp] theorem raise_eos (e : ErrCode) (cmd : Reg) (s : State) : (raise e cmd s).eos = s.eos := rfl
@[simp] theorem raise_ovr (e : ErrCode) (cmd : Reg) (s : State) : (raise e cmd s).ovr = s.ovr := rfl
@[simp] theorem raise_err (e : ErrCode) (cmd : Reg) (s : State) : (raise e cmd s).err = e := rfl
@[simp] theorem raise_errCmd (e : ErrCode) (cmd : Reg) (s : State) : (raise e cmd s).errCmd = cmd := rfl
@[simp] theorem raise_data (e : ErrCode) (cmd : Reg) (s : State) : (raise e cmd s).data = s.data := rfl
@[simp] theorem raise_total (e : ErrCode) (cmd : Reg) (s : State) : (raise e cmd s).total = s.total := rfl
@[simp] theorem raise_fill (e : ErrCode) (cmd : Reg) (s : State) : (raise e cmd s).fill = s.fill := rfl
@[simp] theorem raise_wordCount (e : ErrCode) (cmd : Reg) (s : State) : (raise e cmd s).wordCount = s.wordCount := rfl
@[simp] theorem raise_blockCount (e : ErrCode) (cmd : Reg) (s : State) :
    (raise e cmd s).blockCount = s.blockCount := rfl
@[simp] theorem raise_root (e : ErrCode) (cmd : Reg) (s : State) : (raise e cmd s).root = s.root := rfl
@[simp] theorem raise_cursor (e : ErrCode) (cmd : Reg) (s : State) : (raise e cmd s).cursor = s.cursor := rfl
@[simp] theorem raise_bitPos (e : ErrCode) (cmd : Reg) (s : State) : (raise e cmd s).bitPos = s.bitPos := rfl
@[simp] theorem raise_outSym (e : ErrCode) (cmd : Reg) (s : State) : (raise e cmd s).outSym = s.outSym := rfl
@[simp] theorem raise_count (e : ErrCode) (cmd : Reg) (s : State) : (raise e cmd s).count = s.count := rfl
@[simp] theorem raise_buf (e : ErrCode) (cmd : Reg) (s : State) : (raise e cmd s).buf = s.buf := rfl
@[simp] theorem raise_nodes (e : ErrCode) (cmd : Reg) (s : State) : (raise e cmd s).nodes = s.nodes := rfl
@[simp] theorem raise_codes (e : ErrCode) (cmd : Reg) (s : State) : (raise e cmd s).codes = s.codes := rfl
@[simp] theorem raise_rst (e : ErrCode) (cmd : Reg) (s : State) : (raise e cmd s).rst = s.rst := rfl
@[simp] theorem raise_host (e : ErrCode) (cmd : Reg) (s : State) : (raise e cmd s).host = s.host := rfl
@[simp] theorem raise_turns (e : ErrCode) (cmd : Reg) (s : State) : (raise e cmd s).turns = s.turns := rfl
@[simp] theorem raise_responses (e : ErrCode) (cmd : Reg) (s : State) : (raise e cmd s).responses = s.responses := rfl
@[simp] theorem raise_draws (e : ErrCode) (cmd : Reg) (s : State) : (raise e cmd s).draws = s.draws := rfl

/-! ### clearError -/

@[simp] theorem clearError_cfg (s : State) : (clearError s).cfg = s.cfg := rfl
@[simp] theorem clearError_pending (s : State) : (clearError s).pending = s.pending := rfl
@[simp] theorem clearError_mode (s : State) : (clearError s).mode = .idle := rfl
@[simp] theorem clearError_symValid (s : State) : (clearError s).symValid = false := rfl
@[simp] theorem clearError_eos (s : State) : (clearError s).eos = false := rfl
@[simp] theorem clearError_ovr (s : State) : (clearError s).ovr = false := rfl
@[simp] theorem clearError_err (s : State) : (clearError s).err = .noError := rfl
@[simp] theorem clearError_errCmd (s : State) : (clearError s).errCmd = 0#64 := rfl
@[simp] theorem clearError_data (s : State) : (clearError s).data = s.data := rfl
@[simp] theorem clearError_total (s : State) : (clearError s).total = s.total := rfl
@[simp] theorem clearError_fill (s : State) : (clearError s).fill = s.fill := rfl
@[simp] theorem clearError_wordCount (s : State) : (clearError s).wordCount = s.wordCount := rfl
@[simp] theorem clearError_blockCount (s : State) : (clearError s).blockCount = s.blockCount := rfl
@[simp] theorem clearError_root (s : State) : (clearError s).root = s.root := rfl
@[simp] theorem clearError_cursor (s : State) : (clearError s).cursor = s.cursor := rfl
@[simp] theorem clearError_bitPos (s : State) : (clearError s).bitPos = s.bitPos := rfl
@[simp] theorem clearError_outSym (s : State) : (clearError s).outSym = s.outSym := rfl
@[simp] theorem clearError_count (s : State) : (clearError s).count = s.count := rfl
@[simp] theorem clearError_buf (s : State) : (clearError s).buf = s.buf := rfl
@[simp] theorem clearError_nodes (s : State) : (clearError s).nodes = s.nodes := rfl
@[simp] theorem clearError_codes (s : State) : (clearError s).codes = s.codes := rfl
@[simp] theorem clearError_rst (s : State) : (clearError s).rst = s.rst := rfl
@[simp] theorem clearError_host (s : State) : (clearError s).host = s.host := rfl
@[simp] theorem clearError_turns (s : State) : (clearError s).turns = s.turns := rfl
@[simp] theorem clearError_responses (s : State) : (clearError s).responses = s.responses := rfl
@[simp] theorem clearError_draws (s : State) : (clearError s).draws = s.draws := rfl

/-! ### endCommand -/

@[simp] theorem endCommand_cfg (s : State) : (endCommand s).cfg = s.cfg := rfl
@[simp] theorem endCommand_pending (s : State) : (endCommand s).pending = none := rfl
@[simp] theorem endCommand_mode (s : State) : (endCommand s).mode = s.mode := rfl
@[simp] theorem endCommand_symValid (s : State) : (endCommand s).symValid = s.symValid := rfl
@[simp] theorem endCommand_eos (s : State) : (endCommand s).eos = s.eos := rfl
@[simp] theorem endCommand_ovr (s : State) : (endCommand s).ovr = s.ovr := rfl
@[simp] theorem endCommand_err (s : State) : (endCommand s).err = s.err := rfl
@[simp] theorem endCommand_errCmd (s : State) : (endCommand s).errCmd = s.errCmd := rfl
@[simp] theorem endCommand_data (s : State) : (endCommand s).data = s.data := rfl
@[simp] theorem endCommand_total (s : State) : (endCommand s).total = s.total := rfl
@[simp] theorem endCommand_fill (s : State) : (endCommand s).fill = s.fill := rfl
@[simp] theorem endCommand_wordCount (s : State) : (endCommand s).wordCount = s.wordCount := rfl
@[simp] theorem endCommand_blockCount (s : State) : (endCommand s).blockCount = s.blockCount := rfl
@[simp] theorem endCommand_root (s : State) : (endCommand s).root = s.root := rfl
@[simp] theorem endCommand_cursor (s : State) : (endCommand s).cursor = s.cursor := rfl
@[simp] theorem endCommand_bitPos (s : State) : (endCommand s).bitPos = s.bitPos := rfl
@[simp] theorem endCommand_outSym (s : State) : (endCommand s).outSym = s.outSym := rfl
@[simp] theorem endCommand_count (s : State) : (endCommand s).count = s.count := rfl
@[simp] theorem endCommand_buf (s : State) : (endCommand s).buf = s.buf := rfl
@[simp] theorem endCommand_nodes (s : State) : (endCommand s).nodes = s.nodes := rfl
@[simp] theorem endCommand_codes (s : State) : (endCommand s).codes = s.codes := rfl
@[simp] theorem endCommand_rst (s : State) : (endCommand s).rst = s.rst := rfl
@[simp] theorem endCommand_host (s : State) : (endCommand s).host = s.host := rfl
@[simp] theorem endCommand_turns (s : State) : (endCommand s).turns = s.turns := rfl
@[simp] theorem endCommand_responses (s : State) : (endCommand s).responses = s.responses := rfl
@[simp] theorem endCommand_draws (s : State) : (endCommand s).draws = s.draws := rfl

/-! ### respond -/

@[simp] theorem respond_cfg (s : State) (v : Reg) : (respond s v).cfg = s.cfg := rfl
@[simp] theorem respond_pending (s : State) (v : Reg) : (respond s v).pending = s.pending := rfl
@[simp] theorem respond_mode (s : State) (v : Reg) : (respond s v).mode = s.mode := rfl
@[simp] theorem respond_symValid (s : State) (v : Reg) : (respond s v).symValid = s.symValid := rfl
@[simp] theorem respond_eos (s : State) (v : Reg) : (respond s v).eos = s.eos := rfl
@[simp] theorem respond_ovr (s : State) (v : Reg) : (respond s v).ovr = s.ovr := rfl
@[simp] theorem respond_err (s : State) (v : Reg) : (respond s v).err = s.err := rfl
@[simp] theorem respond_errCmd (s : State) (v : Reg) : (respond s v).errCmd = s.errCmd := rfl
@[simp] theorem respond_data (s : State) (v : Reg) : (respond s v).data = s.data := rfl
@[simp] theorem respond_total (s : State) (v : Reg) : (respond s v).total = s.total := rfl
@[simp] theorem respond_fill (s : State) (v : Reg) : (respond s v).fill = s.fill := rfl
@[simp] theorem respond_wordCount (s : State) (v : Reg) : (respond s v).wordCount = s.wordCount := rfl
@[simp] theorem respond_blockCount (s : State) (v : Reg) : (respond s v).blockCount = s.blockCount := rfl
@[simp] theorem respond_root (s : State) (v : Reg) : (respond s v).root = s.root := rfl
@[simp] theorem respond_cursor (s : State) (v : Reg) : (respond s v).cursor = s.cursor := rfl
@[simp] theorem respond_bitPos (s : State) (v : Reg) : (respond s v).bitPos = s.bitPos := rfl
@[simp] theorem respond_outSym (s : State) (v : Reg) : (respond s v).outSym = s.outSym := rfl
@[simp] theorem respond_count (s : State) (v : Reg) : (respond s v).count = s.count := rfl
@[simp] theorem respond_buf (s : State) (v : Reg) : (respond s v).buf = s.buf := rfl
@[simp] theorem respond_nodes (s : State) (v : Reg) : (respond s v).nodes = s.nodes := rfl
@[simp] theorem respond_codes (s : State) (v : Reg) : (respond s v).codes = s.codes := rfl
@[simp] theorem respond_rst (s : State) (v : Reg) : (respond s v).rst = s.rst := rfl
@[simp] theorem respond_host (s : State) (v : Reg) : (respond s v).host = s.host := rfl
@[simp] theorem respond_turns (s : State) (v : Reg) : (respond s v).turns = s.turns := rfl
@[simp] theorem respond_responses (s : State) (v : Reg) : (respond s v).responses = s.responses ++ [v] := rfl
@[simp] theorem respond_draws (s : State) (v : Reg) : (respond s v).draws = s.draws := rfl

/-! ### emitSymbol -/

@[simp] theorem emitSymbol_cfg (sym : BitVec 16) (s : State) : (emitSymbol sym s).cfg = s.cfg := rfl
@[simp] theorem emitSymbol_pending (sym : BitVec 16) (s : State) : (emitSymbol sym s).pending = s.pending := rfl
@[simp] theorem emitSymbol_mode (sym : BitVec 16) (s : State) : (emitSymbol sym s).mode = s.mode := rfl
@[simp] theorem emitSymbol_symValid (sym : BitVec 16) (s : State) : (emitSymbol sym s).symValid = true := rfl
@[simp] theorem emitSymbol_eos (sym : BitVec 16) (s : State) :
    (emitSymbol sym s).eos = (s.eos || decide (s.bitPos = s.total)) := rfl
@[simp] theorem emitSymbol_ovr (sym : BitVec 16) (s : State) : (emitSymbol sym s).ovr = s.ovr := rfl
@[simp] theorem emitSymbol_err (sym : BitVec 16) (s : State) : (emitSymbol sym s).err = s.err := rfl
@[simp] theorem emitSymbol_errCmd (sym : BitVec 16) (s : State) : (emitSymbol sym s).errCmd = s.errCmd := rfl
@[simp] theorem emitSymbol_data (sym : BitVec 16) (s : State) : (emitSymbol sym s).data = s.data := rfl
@[simp] theorem emitSymbol_total (sym : BitVec 16) (s : State) : (emitSymbol sym s).total = s.total := rfl
@[simp] theorem emitSymbol_fill (sym : BitVec 16) (s : State) : (emitSymbol sym s).fill = s.fill := rfl
@[simp] theorem emitSymbol_wordCount (sym : BitVec 16) (s : State) : (emitSymbol sym s).wordCount = s.wordCount := rfl
@[simp] theorem emitSymbol_blockCount (sym : BitVec 16) (s : State) :
    (emitSymbol sym s).blockCount = s.blockCount := rfl
@[simp] theorem emitSymbol_root (sym : BitVec 16) (s : State) : (emitSymbol sym s).root = s.root := rfl
@[simp] theorem emitSymbol_cursor (sym : BitVec 16) (s : State) : (emitSymbol sym s).cursor = s.root := rfl
@[simp] theorem emitSymbol_bitPos (sym : BitVec 16) (s : State) : (emitSymbol sym s).bitPos = s.bitPos := rfl
@[simp] theorem emitSymbol_outSym (sym : BitVec 16) (s : State) : (emitSymbol sym s).outSym = sym.setWidth 64 := rfl
@[simp] theorem emitSymbol_count (sym : BitVec 16) (s : State) : (emitSymbol sym s).count = s.count + 1#64 := rfl
@[simp] theorem emitSymbol_buf (sym : BitVec 16) (s : State) : (emitSymbol sym s).buf = s.buf := rfl
@[simp] theorem emitSymbol_nodes (sym : BitVec 16) (s : State) : (emitSymbol sym s).nodes = s.nodes := rfl
@[simp] theorem emitSymbol_codes (sym : BitVec 16) (s : State) : (emitSymbol sym s).codes = s.codes := rfl
@[simp] theorem emitSymbol_rst (sym : BitVec 16) (s : State) : (emitSymbol sym s).rst = s.rst := rfl
@[simp] theorem emitSymbol_host (sym : BitVec 16) (s : State) : (emitSymbol sym s).host = s.host := rfl
@[simp] theorem emitSymbol_turns (sym : BitVec 16) (s : State) : (emitSymbol sym s).turns = s.turns := rfl
@[simp] theorem emitSymbol_responses (sym : BitVec 16) (s : State) : (emitSymbol sym s).responses = s.responses := rfl
@[simp] theorem emitSymbol_draws (sym : BitVec 16) (s : State) : (emitSymbol sym s).draws = s.draws := rfl

/-! ### latchCommand -/

@[simp] theorem latchCommand_cfg (s : State) (w : Reg) : (latchCommand s w).cfg = s.cfg := rfl
@[simp] theorem latchCommand_pending (s : State) (w : Reg) : (latchCommand s w).pending = some w := rfl
@[simp] theorem latchCommand_mode (s : State) (w : Reg) : (latchCommand s w).mode = s.mode := rfl
@[simp] theorem latchCommand_symValid (s : State) (w : Reg) : (latchCommand s w).symValid = s.symValid := rfl
@[simp] theorem latchCommand_eos (s : State) (w : Reg) : (latchCommand s w).eos = s.eos := rfl
@[simp] theorem latchCommand_ovr (s : State) (w : Reg) : (latchCommand s w).ovr = s.ovr := rfl
@[simp] theorem latchCommand_err (s : State) (w : Reg) : (latchCommand s w).err = s.err := rfl
@[simp] theorem latchCommand_errCmd (s : State) (w : Reg) : (latchCommand s w).errCmd = s.errCmd := rfl
@[simp] theorem latchCommand_data (s : State) (w : Reg) : (latchCommand s w).data = s.data := rfl
@[simp] theorem latchCommand_total (s : State) (w : Reg) : (latchCommand s w).total = s.total := rfl
@[simp] theorem latchCommand_fill (s : State) (w : Reg) : (latchCommand s w).fill = s.fill := rfl
@[simp] theorem latchCommand_wordCount (s : State) (w : Reg) : (latchCommand s w).wordCount = s.wordCount := rfl
@[simp] theorem latchCommand_blockCount (s : State) (w : Reg) : (latchCommand s w).blockCount = s.blockCount := rfl
@[simp] theorem latchCommand_root (s : State) (w : Reg) : (latchCommand s w).root = s.root := rfl
@[simp] theorem latchCommand_cursor (s : State) (w : Reg) : (latchCommand s w).cursor = s.cursor := rfl
@[simp] theorem latchCommand_bitPos (s : State) (w : Reg) : (latchCommand s w).bitPos = s.bitPos := rfl
@[simp] theorem latchCommand_outSym (s : State) (w : Reg) : (latchCommand s w).outSym = s.outSym := rfl
@[simp] theorem latchCommand_count (s : State) (w : Reg) : (latchCommand s w).count = s.count := rfl
@[simp] theorem latchCommand_buf (s : State) (w : Reg) : (latchCommand s w).buf = s.buf := rfl
@[simp] theorem latchCommand_nodes (s : State) (w : Reg) : (latchCommand s w).nodes = s.nodes := rfl
@[simp] theorem latchCommand_codes (s : State) (w : Reg) : (latchCommand s w).codes = s.codes := rfl
@[simp] theorem latchCommand_rst (s : State) (w : Reg) : (latchCommand s w).rst = false := rfl
@[simp] theorem latchCommand_host (s : State) (w : Reg) : (latchCommand s w).host = s.host := rfl
@[simp] theorem latchCommand_turns (s : State) (w : Reg) : (latchCommand s w).turns = .block :: s.turns := rfl
@[simp] theorem latchCommand_responses (s : State) (w : Reg) : (latchCommand s w).responses = s.responses := rfl
@[simp] theorem latchCommand_draws (s : State) (w : Reg) : (latchCommand s w).draws = s.draws := rfl

/-! ### resetBlock -/

@[simp] theorem resetBlock_cfg (s : State) : (resetBlock s).cfg = s.cfg := rfl
@[simp] theorem resetBlock_pending (s : State) : (resetBlock s).pending = none := rfl
@[simp] theorem resetBlock_mode (s : State) : (resetBlock s).mode = .idle := rfl
@[simp] theorem resetBlock_symValid (s : State) : (resetBlock s).symValid = false := rfl
@[simp] theorem resetBlock_eos (s : State) : (resetBlock s).eos = false := rfl
@[simp] theorem resetBlock_ovr (s : State) : (resetBlock s).ovr = false := rfl
@[simp] theorem resetBlock_err (s : State) : (resetBlock s).err = .noError := rfl
@[simp] theorem resetBlock_errCmd (s : State) : (resetBlock s).errCmd = 0#64 := rfl
@[simp] theorem resetBlock_data (s : State) : (resetBlock s).data = List.replicate s.cfg.ndata 0#64 := rfl
@[simp] theorem resetBlock_total (s : State) : (resetBlock s).total = 0#64 := rfl
@[simp] theorem resetBlock_fill (s : State) : (resetBlock s).fill = 0#64 := rfl
@[simp] theorem resetBlock_wordCount (s : State) : (resetBlock s).wordCount = 1#64 := rfl
@[simp] theorem resetBlock_blockCount (s : State) : (resetBlock s).blockCount = 1#64 := rfl
@[simp] theorem resetBlock_root (s : State) : (resetBlock s).root = 0#64 := rfl
@[simp] theorem resetBlock_cursor (s : State) : (resetBlock s).cursor = 0#64 := rfl
@[simp] theorem resetBlock_bitPos (s : State) : (resetBlock s).bitPos = 0#64 := rfl
@[simp] theorem resetBlock_outSym (s : State) : (resetBlock s).outSym = 0#64 := rfl
@[simp] theorem resetBlock_count (s : State) : (resetBlock s).count = 0#64 := rfl
@[simp] theorem resetBlock_buf (s : State) : (resetBlock s).buf = [] := rfl
@[simp] theorem resetBlock_nodes (s : State) : (resetBlock s).nodes = [] := rfl
@[simp] theorem resetBlock_codes (s : State) : (resetBlock s).codes = [] := rfl
@[simp] theorem resetBlock_rst (s : State) : (resetBlock s).rst = s.rst := rfl
@[simp] theorem resetBlock_host (s : State) : (resetBlock s).host = s.host := rfl
@[simp] theorem resetBlock_turns (s : State) : (resetBlock s).turns = s.turns := rfl
@[simp] theorem resetBlock_responses (s : State) : (resetBlock s).responses = s.responses := rfl
@[simp] theorem resetBlock_draws (s : State) : (resetBlock s).draws = s.draws := rfl

/-! ### bufRead -/

@[simp] theorem bufRead_cfg (s : State) (i : Nat) : (bufRead s i).2.cfg = s.cfg := by
  unfold bufRead; split <;> rfl
@[simp] theorem bufRead_pending (s : State) (i : Nat) : (bufRead s i).2.pending = s.pending := by
  unfold bufRead; split <;> rfl
@[simp] theorem bufRead_mode (s : State) (i : Nat) : (bufRead s i).2.mode = s.mode := by
  unfold bufRead; split <;> rfl
@[simp] theorem bufRead_symValid (s : State) (i : Nat) : (bufRead s i).2.symValid = s.symValid := by
  unfold bufRead; split <;> rfl
@[simp] theorem bufRead_eos (s : State) (i : Nat) : (bufRead s i).2.eos = s.eos := by
  unfold bufRead; split <;> rfl
@[simp] theorem bufRead_ovr (s : State) (i : Nat) : (bufRead s i).2.ovr = s.ovr := by
  unfold bufRead; split <;> rfl
@[simp] theorem bufRead_err (s : State) (i : Nat) : (bufRead s i).2.err = s.err := by
  unfold bufRead; split <;> rfl
@[simp] theorem bufRead_errCmd (s : State) (i : Nat) : (bufRead s i).2.errCmd = s.errCmd := by
  unfold bufRead; split <;> rfl
@[simp] theorem bufRead_data (s : State) (i : Nat) : (bufRead s i).2.data = s.data := by
  unfold bufRead; split <;> rfl
@[simp] theorem bufRead_total (s : State) (i : Nat) : (bufRead s i).2.total = s.total := by
  unfold bufRead; split <;> rfl
@[simp] theorem bufRead_fill (s : State) (i : Nat) : (bufRead s i).2.fill = s.fill := by
  unfold bufRead; split <;> rfl
@[simp] theorem bufRead_wordCount (s : State) (i : Nat) : (bufRead s i).2.wordCount = s.wordCount := by
  unfold bufRead; split <;> rfl
@[simp] theorem bufRead_blockCount (s : State) (i : Nat) : (bufRead s i).2.blockCount = s.blockCount := by
  unfold bufRead; split <;> rfl
@[simp] theorem bufRead_root (s : State) (i : Nat) : (bufRead s i).2.root = s.root := by
  unfold bufRead; split <;> rfl
@[simp] theorem bufRead_cursor (s : State) (i : Nat) : (bufRead s i).2.cursor = s.cursor := by
  unfold bufRead; split <;> rfl
@[simp] theorem bufRead_bitPos (s : State) (i : Nat) : (bufRead s i).2.bitPos = s.bitPos := by
  unfold bufRead; split <;> rfl
@[simp] theorem bufRead_outSym (s : State) (i : Nat) : (bufRead s i).2.outSym = s.outSym := by
  unfold bufRead; split <;> rfl
@[simp] theorem bufRead_count (s : State) (i : Nat) : (bufRead s i).2.count = s.count := by
  unfold bufRead; split <;> rfl
@[simp] theorem bufRead_buf (s : State) (i : Nat) : (bufRead s i).2.buf = s.buf := by
  unfold bufRead; split <;> rfl
@[simp] theorem bufRead_nodes (s : State) (i : Nat) : (bufRead s i).2.nodes = s.nodes := by
  unfold bufRead; split <;> rfl
@[simp] theorem bufRead_codes (s : State) (i : Nat) : (bufRead s i).2.codes = s.codes := by
  unfold bufRead; split <;> rfl
@[simp] theorem bufRead_rst (s : State) (i : Nat) : (bufRead s i).2.rst = s.rst := by
  unfold bufRead; split <;> rfl
@[simp] theorem bufRead_host (s : State) (i : Nat) : (bufRead s i).2.host = s.host := by
  unfold bufRead; split <;> rfl
@[simp] theorem bufRead_turns (s : State) (i : Nat) : (bufRead s i).2.turns = s.turns := by
  unfold bufRead; split <;> rfl
@[simp] theorem bufRead_responses (s : State) (i : Nat) : (bufRead s i).2.responses = s.responses := by
  unfold bufRead; split <;> rfl

end Sys2Proof.Machine
end

