-- ==== Sys2Proof/Laws/Words.lean ====
section
/-! SUPPORT. The laws of W-bit word arithmetic (00_scope.md R10 to R16), bit by bit. -/

namespace Sys2Proof.Machine

theorem lowMask_getLsbD {w i : Nat} (hw : w ≤ 64) : (lowMask w).getLsbD i = decide (i < w) := by
  simp only [lowMask, BitVec.getLsbD_ofNat, Nat.testBit_two_pow_sub_one]
  by_cases h : i < w <;> simp [h]
  omega

theorem hiMask_getLsbD {w n i : Nat} (hw : w ≤ 64) (hn : n ≤ w) :
    (hiMask w n).getLsbD i = decide (w - n ≤ i ∧ i < w) := by
  have key : 2 ^ w - 2 ^ (w - n) = 2 ^ (w - n) * (2 ^ n - 1) := by
    rw [Nat.mul_sub_one, ← Nat.pow_add]
    congr 2
    omega
  simp only [hiMask, BitVec.getLsbD_ofNat, key, Nat.testBit_two_pow_mul, Nat.testBit_two_pow_sub_one]
  by_cases h1 : w - n ≤ i <;> by_cases h2 : i < w <;> simp [h1, h2] <;> omega

theorem wordOf_getLsbD {w i : Nat} (hw : w ≤ 64) (v : Reg) :
    (wordOf w v).getLsbD i = (v.getLsbD i && decide (i < w)) := by
  simp [wordOf, BitVec.getLsbD_and, lowMask_getLsbD hw]

theorem wordShr_getLsbD (x : Word) (s i : Nat) : (wordShr x s).getLsbD i = x.getLsbD (s + i) := by
  simp [wordShr]

theorem wordShl_getLsbD {w s i : Nat} (hw : w ≤ 64) (x : Word) :
    (wordShl w x s).getLsbD i = (decide (i < w) && decide (s ≤ i) && x.getLsbD (i - s)) := by
  simp only [wordShl, BitVec.getLsbD_and, BitVec.getLsbD_shiftLeft, lowMask_getLsbD hw]
  by_cases h1 : i < w <;> by_cases h2 : s ≤ i <;> simp [h1, h2]
  omega

/-- A word is a W-bit word exactly when every bit from W on is 0. -/
theorem wordOf_eq_iff {w : Nat} (hw : w ≤ 64) (v : Reg) :
    wordOf w v = v ↔ ∀ i, w ≤ i → v.getLsbD i = false := by
  constructor
  · intro h i hi
    rw [← h, wordOf_getLsbD hw]
    simp; omega
  · intro h
    apply BitVec.eq_of_getLsbD_eq
    intro i _
    rw [wordOf_getLsbD hw]
    by_cases hi : i < w
    · simp [hi]
    · simp [hi, h i (by omega)]

theorem wordOf_wordOf {w : Nat} (hw : w ≤ 64) (v : Reg) : wordOf w (wordOf w v) = wordOf w v := by
  rw [wordOf_eq_iff hw]
  intro i hi
  rw [wordOf_getLsbD hw]
  simp; omega

theorem wordOf_zero (w : Nat) : wordOf w 0#64 = 0#64 := by simp [wordOf]

theorem wordOf_wordShl {w : Nat} (hw : w ≤ 64) (x : Word) (s : Nat) : wordOf w (wordShl w x s) = wordShl w x s := by
  rw [wordOf_eq_iff hw]
  intro i hi
  rw [wordShl_getLsbD hw]
  simp; omega

theorem wordOf_wordShr {w : Nat} (hw : w ≤ 64) {x : Word} (hx : wordOf w x = x) (s : Nat) :
    wordOf w (wordShr x s) = wordShr x s := by
  rw [wordOf_eq_iff hw] at hx ⊢
  intro i hi
  rw [wordShr_getLsbD]
  exact hx _ (by omega)

theorem wordOf_or {w : Nat} (hw : w ≤ 64) {x y : Word} (hx : wordOf w x = x) (hy : wordOf w y = y) :
    wordOf w (x ||| y) = x ||| y := by
  rw [wordOf_eq_iff hw] at hx hy ⊢
  intro i hi
  simp [hx i hi, hy i hi]

theorem wordOf_and {w : Nat} (hw : w ≤ 64) {x : Word} (hx : wordOf w x = x) (y : Word) :
    wordOf w (x &&& y) = x &&& y := by
  rw [wordOf_eq_iff hw] at hx ⊢
  intro i hi
  simp [hx i hi]

/-- A shift by W or more gives 0 on W-bit words (R11, R12). -/
theorem wordShl_ge {w s : Nat} (hw : w ≤ 64) (x : Word) (h : w ≤ s) : wordShl w x s = 0#64 := by
  apply BitVec.eq_of_getLsbD_eq
  intro i _
  rw [wordShl_getLsbD hw]
  simp; omega

theorem wordShr_ge {w s : Nat} (hw : w ≤ 64) {x : Word} (hx : wordOf w x = x) (h : w ≤ s) : wordShr x s = 0#64 := by
  rw [wordOf_eq_iff hw] at hx
  apply BitVec.eq_of_getLsbD_eq
  intro i _
  rw [wordShr_getLsbD, hx _ (by omega)]
  simp

/-- The low `n` bits of a word are 0. -/
theorem and_lowMask_eq_zero {n : Nat} (hn : n ≤ 64) (v : Word) :
    v &&& lowMask n = 0#64 ↔ ∀ i, i < n → v.getLsbD i = false := by
  constructor
  · intro h i hi
    have := congrArg (fun x => x.getLsbD i) h
    simpa [lowMask_getLsbD hn, hi] using this
  · intro h
    apply BitVec.eq_of_getLsbD_eq
    intro i _
    by_cases hi : i < n
    · simp [h i hi]
    · simp [lowMask_getLsbD hn, hi]

@[simp] theorem bitOfWord_eq (w : Nat) (v : Word) (j : Nat) : bitOfWord w v j = v.getLsbD (w - 1 - j % w) := by
  rw [bitOfWord, wordShr_getLsbD, Nat.add_zero]

/-! ### `mask_code` -/

@[simp] theorem maskCodeFrom_length (w len i : Nat) (c : List Word) : (maskCodeFrom w len i c).length = c.length := by
  induction c generalizing i with
  | nil => rfl
  | cons v rest ih => simp [maskCodeFrom, ih]

@[simp] theorem maskCode_length (w len : Nat) (c : List Word) : (maskCode w len c).length = c.length :=
  maskCodeFrom_length w len 0 c

theorem maskCodeFrom_getD (w len : Nat) (c : List Word) (i k : Nat) :
    (maskCodeFrom w len i c).getD k 0#64 =
      if (i + k + 1) * w ≤ len then c.getD k 0#64
      else if (i + k) * w < len then c.getD k 0#64 &&& hiMask w (len - (i + k) * w) else 0#64 := by
  induction c generalizing i k with
  | nil => simp [maskCodeFrom]
  | cons v rest ih =>
    cases k with
    | zero => simp [maskCodeFrom]
    | succ k =>
      simp only [maskCodeFrom, List.getD_cons_succ, ih]
      have h : i + 1 + k = i + (k + 1) := by omega
      rw [h]

/-- Word `k` of a masked code (R16). -/
theorem maskCode_getD (w len : Nat) (c : List Word) (k : Nat) :
    (maskCode w len c).getD k 0#64 =
      if (k + 1) * w ≤ len then c.getD k 0#64
      else if k * w < len then c.getD k 0#64 &&& hiMask w (len - k * w) else 0#64 := by
  have h := maskCodeFrom_getD w len c 0 k
  simp only [Nat.zero_add] at h
  exact h

/-- Masking keeps W-bit words W bits wide. -/
theorem maskCodeFrom_wordOf {w : Nat} (hw : w ≤ 64) (len i : Nat) {c : List Word}
    (hc : ∀ v ∈ c, wordOf w v = v) : ∀ v ∈ maskCodeFrom w len i c, wordOf w v = v := by
  induction c generalizing i with
  | nil => simp [maskCodeFrom]
  | cons u rest ih =>
    intro v hv
    simp only [maskCodeFrom, List.mem_cons] at hv
    rcases hv with rfl | hv
    · have hu := hc u (by simp)
      split
      · exact hu
      · split
        · exact wordOf_and hw hu _
        · exact wordOf_zero w
    · exact ih (i + 1) (fun x hx => hc x (by simp [hx])) v hv

theorem getD_wordOf {w : Nat} {cs : List Word} (hc : ∀ v ∈ cs, wordOf w v = v) (k : Nat) :
    wordOf w (cs.getD k 0#64) = cs.getD k 0#64 := by
  by_cases h : k < cs.length
  · rw [List.getD_eq_getElem cs 0#64 h]
    exact hc _ (List.getElem_mem h)
  · rw [List.getD_eq_default cs 0#64 (Nat.le_of_not_lt h), wordOf_zero]

/-- Masking twice is masking once. -/
theorem maskCodeFrom_idem {w : Nat} (len i : Nat) (c : List Word) :
    maskCodeFrom w len i (maskCodeFrom w len i c) = maskCodeFrom w len i c := by
  induction c generalizing i with
  | nil => rfl
  | cons v rest ih =>
    simp only [maskCodeFrom, ih, List.cons.injEq, and_true]
    split
    · rfl
    · split
      · rw [BitVec.and_assoc, BitVec.and_self]
      · rfl

theorem maskCode_idem {w : Nat} (len : Nat) (c : List Word) :
    maskCode w len (maskCode w len c) = maskCode w len c := maskCodeFrom_idem len 0 c

/-- The code words that commands read from DATA are W-bit words, CODE_WORDS of them. -/
theorem dataCode_wordOf {s : State} (hw : s.cfg.w ≤ 64) : ∀ v ∈ dataCode s, wordOf s.cfg.w v = v := by
  intro v hv
  simp only [dataCode, List.mem_map] at hv
  obtain ⟨u, _, rfl⟩ := hv
  exact wordOf_wordOf hw u

theorem dataCode_length {s : State} (h : s.data.length = s.cfg.ndata) : (dataCode s).length = s.cfg.codeWords := by
  simp only [dataCode, List.length_map, List.length_take, h, Params.ndata]
  omega

end Sys2Proof.Machine
end

