-- ==== Sys2Proof/Laws/Ops.lean ====
section
/-! SUPPORT. What the shared operations do: buffer reads and writes, the mode check, the error mechanism, the end of a
command. -/

namespace Sys2Proof.Machine

/-- A written word reads as its value, and nothing is drawn. -/
theorem bufRead_written {s : State} {i : Nat} {v : Word} (h : Memory.read s.buf i = some v) : bufRead s i = (v, s) := by
  simp [bufRead, h]

/-- An unwritten word reads as the next free value, and the draw is counted (R46). -/
theorem bufRead_unwritten {s : State} {i : Nat} (h : Memory.read s.buf i = none) :
    bufRead s i = (wordOf s.cfg.w (Config.freeValue s.draws), { s with draws := s.draws + 1 }) := by
  simp [bufRead, h, drawFree]

/-- Everything a buffer read can do. -/
theorem bufRead_cases (s : State) (i : Nat) :
    (∃ v, Memory.read s.buf i = some v ∧ bufRead s i = (v, s)) ∨
    (Memory.read s.buf i = none ∧
      bufRead s i = (wordOf s.cfg.w (Config.freeValue s.draws), { s with draws := s.draws + 1 })) := by
  cases h : Memory.read s.buf i with
  | some v => exact .inl ⟨v, rfl, bufRead_written h⟩
  | none => exact .inr ⟨rfl, bufRead_unwritten h⟩

/-- A buffer read changes nothing but the count of draws. -/
theorem bufRead_state (s : State) (i : Nat) : ∃ d, (bufRead s i).2 = { s with draws := d } := by
  rcases bufRead_cases s i with ⟨v, _, h⟩ | ⟨_, h⟩
  · exact ⟨s.draws, by rw [h]⟩
  · exact ⟨s.draws + 1, by rw [h]⟩

/-- A buffer write is read back, truncated to W bits, and leaves every other word alone. -/
theorem read_bufWrite_same (s : State) (i : Nat) (v : Word) :
    Memory.read (bufWrite s i v).buf i = some (wordOf s.cfg.w v) := by simp

theorem read_bufWrite_other (s : State) {i j : Nat} (v : Word) (h : j ≠ i) :
    Memory.read (bufWrite s i v).buf j = Memory.read s.buf j := by
  simp [Memory.read_write_other _ _ h]

/-- A buffer write below CAP_WORDS keeps the buffer well formed. -/
theorem bufferOk_bufWrite {s : State} (hw : s.cfg.w ≤ 64) (h : BufferOk s) {i : Nat} (hi : i < s.cfg.capWords)
    (v : Word) : BufferOk (bufWrite s i v) :=
  ⟨Memory.wf_write h.1 i _, Memory.all_write h.2 (by simp [hi, wordOf_wordOf hw])⟩

/-- A word that is read back from a well-formed buffer is a W-bit word. -/
theorem bufferOk_read {s : State} (h : BufferOk s) {i : Nat} {v : Word} (hv : Memory.read s.buf i = some v) :
    wordOf s.cfg.w v = v := by
  unfold Memory.read at hv
  split at hv
  · rename_i u hu
    cases hv
    have := cellsAll_get h.2 hu
    simp only [Bool.and_eq_true, decide_eq_true_eq] at this
    exact this.2
  · simp only [Memory.unlisted] at hv
    split at hv
    · cases hv
      exact wordOf_zero _
    · cases hv

/-! ### The mode check (R96, R97) -/

theorem whenLegal_fault {i : Instr} {s : State} {r : Result} (h : s.mode = .fault) : whenLegal i s r = .next s := by
  simp [whenLegal, h]

theorem whenLegal_illegal {i : Instr} {s : State} {r : Result} (h : s.mode ≠ .fault) (hl : legalIn i s.mode = false) :
    whenLegal i s r = .next (raise .wrongMode (encode i) s) := by
  simp [whenLegal, h, hl, fail]

theorem whenLegal_legal {i : Instr} {s : State} {r : Result} (h : s.mode ≠ .fault) (hl : legalIn i s.mode = true) :
    whenLegal i s r = r := by
  simp [whenLegal, h, hl]

/-- Everything the mode check can do. -/
theorem whenLegal_cases (i : Instr) (s : State) (r : Result) :
    (s.mode = .fault ∧ whenLegal i s r = .next s) ∨
    (s.mode ≠ .fault ∧ legalIn i s.mode = false ∧ whenLegal i s r = .next (raise .wrongMode (encode i) s)) ∨
    (s.mode ≠ .fault ∧ legalIn i s.mode = true ∧ whenLegal i s r = r) := by
  by_cases hf : s.mode = .fault
  · exact .inl ⟨hf, whenLegal_fault hf⟩
  · cases hl : legalIn i s.mode with
    | false => exact .inr (.inl ⟨hf, rfl, whenLegal_illegal hf hl⟩)
    | true => exact .inr (.inr ⟨hf, rfl, whenLegal_legal hf hl⟩)

/-! ### Outcomes -/

theorem fail_eq (e : ErrCode) (i : Instr) (s : State) : fail e i s = .next (raise e (encode i) s) := rfl

@[simp] theorem complete_next (s : State) : complete (.next s) = .next (endCommand s) := rfl

@[simp] theorem complete_fault (f : Fault) : complete (.fault f) = .fault f := rfl

@[simp] theorem complete_refused (r : Refusal) : complete (.refused r) = .refused r := rfl

/-- A command that ends in a next state ended its effect in one. -/
theorem complete_eq_next {r : Result} {t : State} (h : complete r = .next t) :
    ∃ s, r = .next s ∧ t = endCommand s := by
  cases r with
  | next s =>
    simp only [complete_next, Host.Outcome.next.injEq] at h
    exact ⟨s, rfl, h.symm⟩
  | fault f => cases h
  | refused r => cases h

end Sys2Proof.Machine
end

