-- ==== Sys2Proof/Laws/Decoder.lean ====
section
/-! SUPPORT. What a bit step and a walk do (44_decoder.md R210, R211, R214). -/

namespace Sys2Proof.Machine

/-- Everything the descent to a child can do (R210). -/
theorem descend_cases (ch : BitVec 16) (s : State) :
    (nodeGet s.nodes ch.toNat = .invalid ∧ descend ch s = .raised .badTree s) ∨
    (∃ sym, nodeGet s.nodes ch.toNat = .leaf sym ∧
      descend ch s = .emitted (emitSymbol sym { s with bitPos := s.bitPos + 1#64 })) ∨
    (∃ l r, nodeGet s.nodes ch.toNat = .internal l r ∧ s.bitPos + 1#64 = s.total ∧
      descend ch s = .raised .truncatedCode { s with bitPos := s.bitPos + 1#64, cursor := ch.setWidth 64 }) ∨
    (∃ l r, nodeGet s.nodes ch.toNat = .internal l r ∧ s.bitPos + 1#64 ≠ s.total ∧
      descend ch s = .moved { s with bitPos := s.bitPos + 1#64, cursor := ch.setWidth 64 }) := by
  cases h : nodeGet s.nodes ch.toNat with
  | invalid => exact .inl ⟨rfl, by simp [descend, h]⟩
  | leaf sym => exact .inr (.inl ⟨sym, rfl, by simp [descend, h]⟩)
  | internal l r =>
    by_cases he : s.bitPos + 1#64 = s.total
    · exact .inr (.inr (.inl ⟨l, r, rfl, he, by simp [descend, h, he]⟩))
    · exact .inr (.inr (.inr ⟨l, r, rfl, he, by simp [descend, h, he]⟩))

/-- The bit a step consumes, and the state with its read done. -/
def stepBit (s : State) : Bool := bitOfWord s.cfg.w (bufRead s (s.bitPos.toNat / s.cfg.w)).1 s.bitPos.toNat

/-- A bit step with BIT_POS below TOTAL, in range, from an INTERNAL cursor descends to the child its bit selects. -/
theorem step1_internal {s : State} {l r : BitVec 16} (hp : s.bitPos.toNat < s.total.toNat)
    (hi : s.bitPos.toNat / s.cfg.w < s.cfg.capWords) (hc : nodeAt s s.cursor = .internal l r) :
    step1 s = descend (childIndex l r (stepBit s)) (bufRead s (s.bitPos.toNat / s.cfg.w)).2 := by
  have hc' : nodeAt (bufRead s (s.bitPos.toNat / s.cfg.w)).2 (bufRead s (s.bitPos.toNat / s.cfg.w)).2.cursor =
      .internal l r := by
    simpa [nodeAt] using hc
  unfold step1
  rw [if_neg (by omega), if_neg (by omega)]
  simp only [hc', childIndex, stepBit]
  rfl

/-- Everything a bit step can do (R210), apart from the states it gives no meaning to. -/
theorem step1_cases (s : State) :
    (s.total.toNat ≤ s.bitPos.toNat ∧ step1 s = .stuck .walkPastEnd) ∨
    (s.bitPos.toNat < s.total.toNat ∧ s.cfg.capWords ≤ s.bitPos.toNat / s.cfg.w ∧
      step1 s = .stuck .bufferIndexOutOfRange) ∨
    (s.bitPos.toNat < s.total.toNat ∧ s.bitPos.toNat / s.cfg.w < s.cfg.capWords ∧
      (nodeAt s s.cursor).isInternal = false ∧
      step1 s = .raised .badTree (bufRead s (s.bitPos.toNat / s.cfg.w)).2) ∨
    (s.bitPos.toNat < s.total.toNat ∧ s.bitPos.toNat / s.cfg.w < s.cfg.capWords ∧
      ∃ l r, nodeAt s s.cursor = .internal l r ∧
        step1 s = descend (childIndex l r (stepBit s)) (bufRead s (s.bitPos.toNat / s.cfg.w)).2) := by
  by_cases hp : s.bitPos.toNat < s.total.toNat
  · by_cases hi : s.bitPos.toNat / s.cfg.w < s.cfg.capWords
    · cases hc : nodeAt s s.cursor with
      | internal l r => exact .inr (.inr (.inr ⟨hp, hi, l, r, rfl, step1_internal hp hi hc⟩))
      | invalid =>
        refine .inr (.inr (.inl ⟨hp, hi, rfl, ?_⟩))
        have hc' : nodeAt (bufRead s (s.bitPos.toNat / s.cfg.w)).2
            (bufRead s (s.bitPos.toNat / s.cfg.w)).2.cursor = .invalid := by simpa [nodeAt] using hc
        unfold step1
        rw [if_neg (by omega), if_neg (by omega)]
        simp only [hc']
      | leaf sym =>
        refine .inr (.inr (.inl ⟨hp, hi, rfl, ?_⟩))
        have hc' : nodeAt (bufRead s (s.bitPos.toNat / s.cfg.w)).2
            (bufRead s (s.bitPos.toNat / s.cfg.w)).2.cursor = .leaf sym := by simpa [nodeAt] using hc
        unfold step1
        rw [if_neg (by omega), if_neg (by omega)]
        simp only [hc']
    · refine .inr (.inl ⟨hp, by omega, ?_⟩)
      unfold step1
      rw [if_neg (by omega), if_pos (by omega)]
  · refine .inl ⟨by omega, ?_⟩
    unfold step1
    rw [if_pos (by omega)]

/-- The walk, one bit step at a time. -/
theorem walkSymbol_succ (fuel : Nat) (s : State) :
    walkSymbol (fuel + 1) s = match step1 s with
      | .moved s' => walkSymbol fuel s'
      | .emitted s' => .emitted s'
      | .raised e s' => .raised e s'
      | .stuck f => .stuck f := rfl

end Sys2Proof.Machine
end

