-- ==== Sys2Proof/Laws/Encoder.lean ====
section
/-! SUPPORT. What the append does (43_encoder.md R181 to R185): each step adds its bits to the stream behind the ones
that are there, and leaves a trailing word whose padding is 0. -/

namespace Sys2Proof.Machine

/-- Word `k` is a trailing word with fill `f`: written, W bits wide, its low W - f bits 0 (R32 I4). -/
def TrailOk (s : State) (k f : Nat) : Prop :=
  ∃ u, Memory.read s.buf k = some u ∧ wordOf s.cfg.w u = u ∧ ∀ i, i < s.cfg.w - f → u.getLsbD i = false

/-- From trailing word `k` at fill `f`, `n` bits `b` were added to the stream, leaving trailing word `k'` at fill `f'`;
nothing but the buffer changed. -/
structure Appended (s s' : State) (k f k' f' n : Nat) (b : Nat → Bool) : Prop where
  frame : ∃ m, s' = { s with buf := m }
  new : ∀ j, j < n → streamBit s' (k * s.cfg.w + f + j) = some (b j)
  old : ∀ j, j < k * s.cfg.w + f → streamBit s' j = streamBit s j
  trail : TrailOk s' k' f'
  position : k' * s.cfg.w + f' = k * s.cfg.w + f + n
  beyond : ∀ i, k' < i → Memory.read s'.buf i = Memory.read s.buf i
  buffer : BufferOk s → k' < s.cfg.capWords → BufferOk s'

/-- A stream bit by word and place. -/
theorem streamBit_at (s : State) {p i r : Nat} (hr : r < s.cfg.w) (hp : p = i * s.cfg.w + r) :
    streamBit s p = (Memory.read s.buf i).map fun v => v.getLsbD (s.cfg.w - 1 - r) := by
  have hw : 0 < s.cfg.w := by omega
  have h1 : p / s.cfg.w = i := by
    rw [hp, Nat.mul_comm, Nat.mul_add_div hw, Nat.div_eq_of_lt hr, Nat.add_zero]
  have h2 : p % s.cfg.w = r := by
    rw [hp, Nat.mul_comm, Nat.mul_add_mod, Nat.mod_eq_of_lt hr]
  unfold streamBit
  rw [h1]
  simp only [bitOfWord_eq, h2]

/-- A stream bit does not depend on anything but the word it lies in. -/
theorem streamBit_congr {s s' : State} (hc : s'.cfg = s.cfg) {p : Nat}
    (h : Memory.read s'.buf (p / s.cfg.w) = Memory.read s.buf (p / s.cfg.w)) : streamBit s' p = streamBit s p := by
  unfold streamBit
  rw [hc, h]

@[simp] theorem orWord_cfg (s : State) (k : Nat) (v : Word) : (orWord s k v).cfg = s.cfg := by simp [orWord]

/-- An OR into a written word. -/
theorem orWord_eq {s : State} {k : Nat} {u : Word} (h : Memory.read s.buf k = some u) (v : Word) :
    orWord s k v = bufWrite s k (u ||| v) := by
  simp [orWord, bufRead_written h]

theorem pushedBy_le (w f n : Nat) : pushedBy w f n ≤ 1 := by
  unfold pushedBy; split <;> omega

theorem fillAfter_lt {w f n : Nat} (hf : f < w) (hn : n ≤ w) : fillAfter w f n < w := by
  unfold fillAfter; split <;> [omega; split <;> omega]

/-- FILL and the words pushed account for the bits added (R183, R190). -/
theorem fillAfter_account {w f n : Nat} (hf : f < w) (k : Nat) :
    (k + pushedBy w f n) * w + fillAfter w f n = k * w + f + n := by
  unfold pushedBy fillAfter
  rcases Nat.lt_trichotomy (n + f) w with h | h | h
  · simp only [h, if_true, Nat.add_zero]; omega
  · rw [if_neg (by omega), if_neg (by omega), if_pos h, Nat.add_mul]; omega
  · rw [if_neg (by omega), if_neg (by omega), if_neg (by omega), Nat.add_mul]; omega

/-- Step 3 (R183): the `n` valid bits of the final code word join the stream. -/
theorem appendLastWord_appended {s : State} {k f n : Nat} {x : Word} (hw : s.cfg.w ≤ 64) (hf : f < s.cfg.w)
    (hn1 : 1 ≤ n) (hn : n ≤ s.cfg.w) (ht : TrailOk s k f) :
    Appended s (appendLastWord f n s k x) k f (k + pushedBy s.cfg.w f n) (fillAfter s.cfg.w f n) n
      (fun j => x.getLsbD (s.cfg.w - 1 - j)) := by
  obtain ⟨u, hu, huw, hul⟩ := ht
  -- the final code word with its padding cleared
  obtain ⟨cl, hcl⟩ : ∃ cl, cl = x &&& hiMask s.cfg.w n := ⟨_, rfl⟩
  have hclb : ∀ i, cl.getLsbD i = (x.getLsbD i && decide (s.cfg.w - n ≤ i ∧ i < s.cfg.w)) := by
    intro i; rw [hcl, BitVec.getLsbD_and, hiMask_getLsbD hw hn]
  have hclw : wordOf s.cfg.w cl = cl := by
    rw [wordOf_eq_iff hw]; intro i hi; rw [hclb]; simp; omega
  -- the trailing word after the OR
  obtain ⟨v, hv⟩ : ∃ v, v = u ||| wordShr cl f := ⟨_, rfl⟩
  have hvw : wordOf s.cfg.w v = v := by
    rw [hv]; exact wordOf_or hw huw (wordOf_wordShr hw hclw f)
  have hvb : ∀ i, v.getLsbD i = (u.getLsbD i || cl.getLsbD (f + i)) := by
    intro i; rw [hv, BitVec.getLsbD_or, wordShr_getLsbD]
  have hs1 : orWord s k (wordShr cl f) = bufWrite s k v := by rw [orWord_eq hu, hv]
  -- the pushed word, whichever of the two pushing cases applies
  obtain ⟨y, hy⟩ : ∃ y, y = wordShl s.cfg.w cl (s.cfg.w - f) := ⟨_, rfl⟩
  have hyw : wordOf s.cfg.w y = y := by rw [hy]; exact wordOf_wordShl hw cl _
  have hyb : ∀ i, y.getLsbD i =
      (decide (i < s.cfg.w) && decide (s.cfg.w - f ≤ i) && cl.getLsbD (i - (s.cfg.w - f))) := by
    intro i; rw [hy, wordShl_getLsbD hw]
  have hy0 : n + f = s.cfg.w → y = 0#64 := by
    intro h
    apply BitVec.eq_of_getLsbD_eq
    intro i _
    rw [hyb, hclb]
    simp; omega
  have hform : appendLastWord f n s k x =
      if n + f < s.cfg.w then bufWrite s k v else bufWrite (bufWrite s k v) (k + 1) y := by
    unfold appendLastWord
    simp only [← hcl, hs1, ← hy]
    split
    · rfl
    · split
      · rename_i h; rw [hy0 h]
      · rfl
  -- reads after the append
  obtain ⟨s', hs'⟩ : ∃ s', s' = appendLastWord f n s k x := ⟨_, rfl⟩
  have hcfg : s'.cfg = s.cfg := by rw [hs', hform]; split <;> rfl
  have hk : Memory.read s'.buf k = some v := by
    rw [hs', hform]
    split
    · rw [read_bufWrite_same, hvw]
    · rw [read_bufWrite_other _ _ (by omega), read_bufWrite_same, hvw]
  have hk1 : ¬ n + f < s.cfg.w → Memory.read s'.buf (k + 1) = some y := by
    intro h
    rw [hs', hform, if_neg h, read_bufWrite_same, bufWrite_cfg, hyw]
  have hother : ∀ i, i ≠ k → (n + f < s.cfg.w ∨ i ≠ k + 1) → Memory.read s'.buf i = Memory.read s.buf i := by
    intro i h1 h2
    rw [hs', hform]
    split
    · rw [read_bufWrite_other _ _ h1]
    · rename_i h
      rcases h2 with h2 | h2
      · exact absurd h2 h
      · rw [read_bufWrite_other _ _ h2, read_bufWrite_other _ _ h1]
  rw [← hs']
  refine ⟨?_, ?_, ?_, ?_, ?_, ?_, ?_⟩
  · -- frame
    rw [hs', hform]
    split
    · exact ⟨_, rfl⟩
    · exact ⟨_, rfl⟩
  · -- new bits
    intro j hj
    have hw0 : s'.cfg.w = s.cfg.w := by rw [hcfg]
    by_cases hjw : f + j < s.cfg.w
    · rw [streamBit_at s' (i := k) (r := f + j) (by omega) (by rw [hw0]; omega), hk]
      simp only [Option.map_some, Option.some.injEq, hvb, hclb, hw0]
      rw [hul _ (by omega)]
      have : f + (s.cfg.w - 1 - (f + j)) = s.cfg.w - 1 - j := by omega
      rw [this]
      simp; omega
    · rw [streamBit_at s' (i := k + 1) (r := f + j - s.cfg.w) (by omega) (by rw [hw0, Nat.add_mul]; omega),
        hk1 (by omega)]
      simp only [Option.map_some, Option.some.injEq, hyb, hclb, hw0]
      have : s.cfg.w - 1 - (f + j - s.cfg.w) - (s.cfg.w - f) = s.cfg.w - 1 - j := by omega
      rw [this]
      have h1 : s.cfg.w - 1 - (f + j - s.cfg.w) < s.cfg.w := by omega
      have h2 : s.cfg.w - f ≤ s.cfg.w - 1 - (f + j - s.cfg.w) := by omega
      have h3 : s.cfg.w - n ≤ s.cfg.w - 1 - j ∧ s.cfg.w - 1 - j < s.cfg.w := by omega
      simp [h1, h2, h3]
  · -- old bits
    intro p hp
    obtain ⟨i, hi⟩ : ∃ i, i = p / s.cfg.w := ⟨_, rfl⟩
    obtain ⟨r, hr⟩ : ∃ r, r = p % s.cfg.w := ⟨_, rfl⟩
    have hrw : r < s.cfg.w := by rw [hr]; exact Nat.mod_lt _ (by omega)
    have hpe : p = i * s.cfg.w + r := by rw [hi, hr, Nat.mul_comm]; exact (Nat.div_add_mod p _).symm
    have hik : i ≤ k := by
      by_contra hne
      have : (k + 1) * s.cfg.w ≤ i * s.cfg.w := Nat.mul_le_mul_right _ (by omega)
      rw [Nat.add_mul] at this
      omega
    by_cases hk' : i = k
    · subst hk'
      rw [streamBit_at s' (i := i) (r := r) (by rw [hcfg]; exact hrw) (by rw [hcfg]; exact hpe),
        streamBit_at s (i := i) (r := r) hrw hpe, hk, hu]
      simp only [Option.map_some, Option.some.injEq, hcfg, hvb, hclb]
      simp; omega
    · apply streamBit_congr hcfg
      rw [← hi]
      exact hother i hk' (.inr (by omega))
  · -- the trailing word
    unfold pushedBy fillAfter
    split
    · rename_i h
      refine ⟨v, by simpa using hk, by rw [hcfg]; exact hvw, ?_⟩
      intro i hi
      rw [hcfg] at hi
      rw [hvb, hclb, hul i (by omega)]
      simp; omega
    · rename_i h
      refine ⟨y, hk1 h, by rw [hcfg]; exact hyw, ?_⟩
      intro i hi
      rw [hcfg] at hi
      rw [hyb, hclb]
      split at hi
      · rename_i h'
        simp; omega
      · simp; omega
  · exact fillAfter_account hf k
  · -- words beyond the trailing one
    intro i hi
    have := pushedBy_le s.cfg.w f n
    refine hother i (by omega) ?_
    unfold pushedBy at hi
    split at hi
    · exact .inl ‹_›
    · exact .inr (by omega)
  · -- the buffer stays well formed
    intro hb hcap
    rw [hs', hform]
    unfold pushedBy at hcap
    split
    · rename_i h
      rw [if_pos h] at hcap
      exact bufferOk_bufWrite hw hb (by omega) v
    · rename_i h
      rw [if_neg h] at hcap
      exact bufferOk_bufWrite (s := bufWrite s k v) hw (bufferOk_bufWrite hw hb (by omega) v) hcap y

/-- Step 2 on one whole code word is step 3 with W valid bits (R182). -/
theorem appendFullWord_eq {s : State} {k f : Nat} {x : Word} (hw : s.cfg.w ≤ 64) (hf : f < s.cfg.w)
    (hx : wordOf s.cfg.w x = x) : appendFullWord f s k x = appendLastWord f s.cfg.w s k x := by
  have hcl : x &&& hiMask s.cfg.w s.cfg.w = x := by
    apply BitVec.eq_of_getLsbD_eq
    intro i _
    rw [wordOf_eq_iff hw] at hx
    rw [BitVec.getLsbD_and, hiMask_getLsbD hw (Nat.le_refl _)]
    by_cases hi : i < s.cfg.w
    · simp [hi]
    · simp [hi, hx i (by omega)]
  unfold appendFullWord appendLastWord
  simp only [hcl]
  rw [if_neg (by omega)]
  split
  · rename_i h
    rw [wordShl_ge hw _ (by omega)]
  · rfl

/-- Step 2 leaves the fill unchanged and pushes one word (R182, 90_conflicts.md C1). -/
theorem appendFullWord_appended {s : State} {k f : Nat} {x : Word} (hw : s.cfg.w ≤ 64) (hf : f < s.cfg.w)
    (hx : wordOf s.cfg.w x = x) (ht : TrailOk s k f) :
    Appended s (appendFullWord f s k x) k f (k + 1) f s.cfg.w (fun j => x.getLsbD (s.cfg.w - 1 - j)) := by
  have h := appendLastWord_appended (x := x) hw hf (by omega) (Nat.le_refl _) ht
  have h1 : pushedBy s.cfg.w f s.cfg.w = 1 := by unfold pushedBy; rw [if_neg (by omega)]
  have h2 : fillAfter s.cfg.w f s.cfg.w = f := by
    unfold fillAfter; rw [if_neg (by omega)]; split <;> omega
  rw [appendFullWord_eq hw hf hx]
  rwa [h1, h2] at h

theorem Appended.cfg {s s' : State} {k f k' f' n : Nat} {b : Nat → Bool} (h : Appended s s' k f k' f' n b) :
    s'.cfg = s.cfg := by
  obtain ⟨m, rfl⟩ := h.frame
  rfl

/-- Adding bits and then more bits adds both. -/
theorem Appended.trans {s s1 s2 : State} {k f k1 f1 k2 f2 n m : Nat} {b b' : Nat → Bool}
    (h1 : Appended s s1 k f k1 f1 n b) (h2 : Appended s1 s2 k1 f1 k2 f2 m b') (hk : k1 ≤ k2) :
    Appended s s2 k f k2 f2 (n + m) (fun j => if j < n then b j else b' (j - n)) := by
  have hc1 := h1.cfg
  have hp1 := h1.position
  have hp2 := h2.position
  rw [hc1] at hp2
  refine ⟨?_, ?_, ?_, h2.trail, by omega, ?_, ?_⟩
  · obtain ⟨m1, rfl⟩ := h1.frame
    obtain ⟨m2, rfl⟩ := h2.frame
    exact ⟨m2, rfl⟩
  · intro j hj
    by_cases hjn : j < n
    · simp only [hjn, if_true]
      rw [h2.old _ (by rw [hc1]; omega)]
      exact h1.new j hjn
    · simp only [hjn, if_false]
      have := h2.new (j - n) (by omega)
      rw [hc1, hp1] at this
      rw [← this]
      congr 1
      omega
  · intro j hj
    rw [h2.old _ (by rw [hc1]; omega)]
    exact h1.old j hj
  · intro i hi
    rw [h2.beyond i hi, h1.beyond i (by omega)]
  · intro hb hcap
    refine h2.buffer (h1.buffer hb (by omega)) ?_
    rw [hc1]
    exact hcap

/-- The bits added are named up to equality. -/
theorem Appended.congr {s s' : State} {k f k' f' n : Nat} {b b' : Nat → Bool} (h : Appended s s' k f k' f' n b)
    (hb : ∀ j, j < n → b j = b' j) : Appended s s' k f k' f' n b' :=
  { h with new := fun j hj => by rw [h.new j hj, hb j hj] }

/-- Step 2 on all the code words but the last (R182). -/
theorem appendFullWords_appended {s : State} {k f : Nat} {xs : List Word} (hw : s.cfg.w ≤ 64) (hf : f < s.cfg.w)
    (hx : ∀ x ∈ xs, wordOf s.cfg.w x = x) (ht : TrailOk s k f) :
    Appended s (appendFullWords f s k xs) k f (k + xs.length) f (xs.length * s.cfg.w)
      (fun j => codeBit s.cfg.w xs j) := by
  induction xs generalizing s k with
  | nil =>
    refine ⟨⟨s.buf, rfl⟩, ?_, fun _ _ => rfl, ht, ?_, fun _ _ => rfl, fun hb _ => hb⟩
    · intro j hj; simp at hj
    · simp
  | cons x rest ih =>
    have h1 := appendFullWord_appended (x := x) hw hf (hx x (by simp)) ht
    have hc := h1.cfg
    have h2 := ih (s := appendFullWord f s k x) (k := k + 1) (by rw [hc]; exact hw) (by rw [hc]; exact hf)
      (by intro y hy; rw [hc]; exact hx y (by simp [hy])) h1.trail
    have h := h1.trans h2 (by omega)
    rw [hc] at h
    have hlen : k + (x :: rest).length = k + 1 + rest.length := by simp; omega
    have hmul : (x :: rest).length * s.cfg.w = s.cfg.w + rest.length * s.cfg.w := by
      rw [List.length_cons, Nat.add_mul]; omega
    rw [hlen, hmul]
    have hb : (fun j => codeBit s.cfg.w (x :: rest) j) =
        (fun j => if j < s.cfg.w then x.getLsbD (s.cfg.w - 1 - j) else codeBit s.cfg.w rest (j - s.cfg.w)) := by
      funext j
      unfold codeBit
      split
      · rename_i h
        rw [Nat.div_eq_of_lt h, Nat.mod_eq_of_lt h, List.getD_cons_zero]
      · rename_i h
        have hd : j / s.cfg.w = (j - s.cfg.w) / s.cfg.w + 1 := by
          rw [Nat.div_eq_sub_div (by omega) (by omega)]
        have hm : j % s.cfg.w = (j - s.cfg.w) % s.cfg.w := Nat.mod_eq_sub_mod (by omega)
        rw [hd, hm, List.getD_cons_succ]
    rw [hb]
    exact h

/-- The code words, all but the last whole, account for the length (R15). -/
theorem codeLength_account {w len : Nat} (hw : 1 ≤ w) (hl : 1 ≤ len) :
    1 ≤ codeLength w len ∧ (codeLength w len - 1) * w + lastBits w len = len ∧
    1 ≤ lastBits w len ∧ lastBits w len ≤ w := by
  unfold lastBits codeLength ceilDiv
  have h1 : (len + w - 1) / w = (len - 1) / w + 1 := by
    have : len + w - 1 = len - 1 + w := by omega
    rw [this, Nat.add_div_right _ hw]
  rw [h1]
  have h2 := Nat.div_add_mod (len - 1) w
  have h3 := Nat.mod_lt (len - 1) hw
  have h4 : (len - 1) / w + 1 - 1 = (len - 1) / w := Nat.add_sub_cancel _ _
  rw [h4, Nat.mul_comm ((len - 1) / w) w]
  generalize (len - 1) / w = q at *
  generalize (len - 1) % w = r at *
  generalize w * q = p at *
  exact ⟨by omega, by omega, by omega, by omega⟩

/-- The whole append (R181), for a well-placed trailing word: it adds the `len` code bits. -/
theorem append_appended {s : State} {len : Nat} {c : List Word} (hw1 : 1 ≤ s.cfg.w) (hw : s.cfg.w ≤ 64)
    (hf : s.fill.toNat < s.cfg.w) (hl : 1 ≤ len) (hc : ∀ x ∈ c, wordOf s.cfg.w x = x)
    (hlen : codeLength s.cfg.w len ≤ c.length)
    (ht : TrailOk s (s.wordCount.toNat - 1) s.fill.toNat) :
    ∃ s3, append s len c =
        setExtent s3 (s.total.toNat + len) (fillAfter s.cfg.w s.fill.toNat (lastBits s.cfg.w len))
          (trailingAfter s len + 1) ∧
      Appended s s3 (s.wordCount.toNat - 1) s.fill.toNat (trailingAfter s len)
        (fillAfter s.cfg.w s.fill.toNat (lastBits s.cfg.w len)) len (codeBit s.cfg.w c) := by
  obtain ⟨hn1, hacc, hl1, hl2⟩ := codeLength_account hw1 hl
  obtain ⟨n, hn⟩ : ∃ n, n = codeLength s.cfg.w len - 1 := ⟨_, rfl⟩
  have htl : (c.take n).length = n := by rw [List.length_take]; omega
  have h2 := appendFullWords_appended (k := s.wordCount.toNat - 1) (xs := c.take n) hw hf
    (fun x hx => hc x (List.mem_of_mem_take hx)) ht
  rw [htl] at h2
  have hc2 := h2.cfg
  have h3 := appendLastWord_appended (n := lastBits s.cfg.w len) (x := c.getD n 0#64) (by rw [hc2]; exact hw)
    (by rw [hc2]; exact hf) hl1 (by rw [hc2]; exact hl2) h2.trail
  rw [hc2] at h3
  have h := h2.trans h3 (by omega)
  rw [hn, hacc] at h
  rw [← hn] at h hacc
  refine ⟨_, rfl, ?_⟩
  unfold trailingAfter
  simp only [← hn]
  refine h.congr fun j hj => ?_
  have hw0 : 0 < s.cfg.w := hw1
  split
  · rename_i hjn
    have : j / s.cfg.w < n := (Nat.div_lt_iff_lt_mul hw0).2 hjn
    simp [codeBit, List.getD, this]
  · rename_i hjn
    have hlo : n ≤ j / s.cfg.w := (Nat.le_div_iff_mul_le hw0).2 (by omega)
    have hhi : j / s.cfg.w < n + 1 := (Nat.div_lt_iff_lt_mul hw0).2 (by rw [Nat.add_mul]; omega)
    have hd : j / s.cfg.w = n := by omega
    have hm : j - n * s.cfg.w = j % s.cfg.w := by
      have := Nat.div_add_mod j s.cfg.w
      rw [hd, Nat.mul_comm] at this
      omega
    rw [hm]
    simp only [codeBit, hd]

end Sys2Proof.Machine
end

