-- ==== Sys2Proof/Laws/Encoding.lean ====
section
/-! SUPPORT. The command word as a number (30_encoding.md R99): its value, its three fields, and what a format's mask
leaves of it. -/

namespace Sys2Proof

open Sys2Proof.Machine

theorem opcField_eq (w : Reg) : opcField w = w.toNat % 2 ^ 8 := by simp [opcField]

theorem fieldA_eq (w : Reg) : fieldA w = w.toNat / 2 ^ 16 % 2 ^ 16 := by
  simp [fieldA, Nat.shiftRight_eq_div_pow]

theorem fieldB_eq (w : Reg) : fieldB w = w.toNat / 2 ^ 32 := by
  have h := w.isLt
  simp only [fieldB, BitVec.extractLsb'_toNat, Nat.shiftRight_eq_div_pow]
  omega

/-- Every operand of a well-formed command fits its field, and every OPC fits eight bits. -/
theorem Instr.fields_lt {i : Instr} (h : i.wf = true) : i.opc < 2 ^ 8 ∧ i.valueA < 2 ^ 16 ∧ i.valueB < 2 ^ 32 := by
  cases i <;> simp_all [Instr.wf, Instr.opc, Instr.valueA, Instr.valueB, fitsFieldA, fitsFieldB]

/-- The word of a well-formed command is `OPC + A * 2^16 + B * 2^32`. -/
theorem encode_toNat {i : Instr} (h : i.wf = true) :
    (encode i).toNat = i.opc + i.valueA * 2 ^ 16 + i.valueB * 2 ^ 32 := by
  obtain ⟨ho, ha, hb⟩ := Instr.fields_lt h
  have h1 : (BitVec.ofNat 64 i.opc).toNat = i.opc := by simp; omega
  have h2 : (BitVec.ofNat 64 i.valueA <<< 16).toNat = 2 ^ 16 * i.valueA := by
    simp [Nat.shiftLeft_eq]; omega
  have h3 : (BitVec.ofNat 64 i.valueB <<< 32).toNat = 2 ^ 32 * i.valueB := by
    simp [Nat.shiftLeft_eq]; omega
  rw [encode, BitVec.toNat_or, BitVec.toNat_or, h1, h2, h3, Nat.or_comm i.opc,
    ← Nat.two_pow_add_eq_or_of_lt (show i.opc < 2 ^ 16 by omega), Nat.or_comm,
    ← Nat.two_pow_add_eq_or_of_lt (show 2 ^ 16 * i.valueA + i.opc < 2 ^ 32 by omega)]
  omega

theorem opcField_encode {i : Instr} (h : i.wf = true) : opcField (encode i) = i.opc := by
  have := Instr.fields_lt h
  rw [opcField_eq, encode_toNat h]
  omega

theorem fieldA_encode {i : Instr} (h : i.wf = true) : fieldA (encode i) = i.valueA := by
  have := Instr.fields_lt h
  rw [fieldA_eq, encode_toNat h]
  omega

theorem fieldB_encode {i : Instr} (h : i.wf = true) : fieldB (encode i) = i.valueB := by
  have := Instr.fields_lt h
  rw [fieldB_eq, encode_toNat h]
  omega

/-- A command is the one that its OPC and its two fields name. -/
theorem commandOf_self (i : Instr) : commandOf i.opc i.valueA i.valueB = some i := by cases i <;> rfl

/-- A value and a mask with no bit in common. -/
theorem and_eq_zero_of_disjoint {v m : Reg} (h : ∀ j : Fin 64, v.getLsbD j = true → m.getLsbD j = false) :
    v &&& m = 0#64 := by
  apply BitVec.eq_of_getLsbD_eq
  intro j hj
  have hd := h ⟨j, hj⟩
  simp only [BitVec.getLsbD_and]
  cases hv : v.getLsbD j <;> simp_all

/-- Field A lies in bits 31:16. -/
theorem fieldA_bits {a : Nat} (h : a < 2 ^ 16) {j : Fin 64} (hj : (BitVec.ofNat 64 a <<< 16).getLsbD j = true) :
    16 ≤ j.val ∧ j.val < 32 := by
  have hl := j.isLt
  simp only [BitVec.getLsbD_shiftLeft, BitVec.getLsbD_ofNat, Bool.and_eq_true, Bool.not_eq_true',
    decide_eq_false_iff_not, decide_eq_true_eq] at hj
  refine ⟨by omega, ?_⟩
  by_contra hc
  have := Nat.testBit_lt_two_pow (lt_of_lt_of_le h (Nat.pow_le_pow_right (by decide) (show 16 ≤ j.val - 16 by omega)))
  simp [this] at hj

/-- Field B lies in bits 63:32. -/
theorem fieldB_bits {b : Nat} {j : Fin 64} (hj : (BitVec.ofNat 64 b <<< 32).getLsbD j = true) : 32 ≤ j.val := by
  simp only [BitVec.getLsbD_shiftLeft, BitVec.getLsbD_ofNat, Bool.and_eq_true, Bool.not_eq_true',
    decide_eq_false_iff_not, decide_eq_true_eq] at hj
  omega

/-- The masks of the formats that carry A have no bit in 31:16. -/
theorem maskA_bits (j : Fin 64) (h1 : 16 ≤ j.val) (h2 : j.val < 32) :
    (tableMask .a).getLsbD j = false ∧ (tableMask .ab).getLsbD j = false := by
  revert j
  decide

/-- The masks of the formats that carry B have no bit in 63:32. -/
theorem maskB_bits (j : Fin 64) (h : 32 ≤ j.val) :
    (tableMask .b).getLsbD j = false ∧ (tableMask .ab).getLsbD j = false := by
  revert j
  decide

/-- No format's mask reaches an operand field that the format carries. -/
theorem valueA_masked {i : Instr} (h : i.wf = true) :
    (BitVec.ofNat 64 i.valueA <<< 16) &&& tableMask i.format = 0#64 := by
  have ha := (Instr.fields_lt h).2.1
  have hm : i.valueA = 0 ∨ i.format = .a ∨ i.format = .ab := by
    cases i <;> simp [Instr.valueA, Instr.format]
  obtain hm | hm | hm := hm
  · rw [hm]; simp
  · rw [hm]
    exact and_eq_zero_of_disjoint fun j hj => (maskA_bits j (fieldA_bits ha hj).1 (fieldA_bits ha hj).2).1
  · rw [hm]
    exact and_eq_zero_of_disjoint fun j hj => (maskA_bits j (fieldA_bits ha hj).1 (fieldA_bits ha hj).2).2

theorem valueB_masked (i : Instr) : (BitVec.ofNat 64 i.valueB <<< 32) &&& tableMask i.format = 0#64 := by
  have hm : i.valueB = 0 ∨ i.format = .b ∨ i.format = .ab := by
    cases i <;> simp [Instr.valueB, Instr.format]
  obtain hm | hm | hm := hm
  · rw [hm]; simp
  · rw [hm]
    exact and_eq_zero_of_disjoint fun j hj => (maskB_bits j (fieldB_bits hj)).1
  · rw [hm]
    exact and_eq_zero_of_disjoint fun j hj => (maskB_bits j (fieldB_bits hj)).2

/-- Under its format's mask, a well-formed command's word is its OPC (R93: `word & mask = match`). -/
theorem encode_masked {i : Instr} (h : i.wf = true) : encode i &&& tableMask i.format = BitVec.ofNat 64 i.opc := by
  have hd : ∀ x y m : Reg, (x ||| y) &&& m = (x &&& m) ||| (y &&& m) := by
    intro x y m
    apply BitVec.eq_of_getLsbD_eq
    intro j _
    simp only [BitVec.getLsbD_and, BitVec.getLsbD_or]
    cases x.getLsbD j <;> cases y.getLsbD j <;> cases m.getLsbD j <;> rfl
  rw [encode, hd, hd, valueA_masked h, valueB_masked]
  have : BitVec.ofNat 64 i.opc &&& tableMask i.format = BitVec.ofNat 64 i.opc := by
    cases i <;> simp [Instr.opc, Instr.format, tableMask]
  simp [this]

end Sys2Proof
end

