-- ==== Sys2Proof/Laws/Exec.lean ====
section
/-! SUPPORT. Everything a command can do, said once: it is ignored in FAULT, it raises WRONG_MODE, it raises one of its
own errors, or it has its effect (`exec_cases`). -/

namespace Sys2Proof.Machine

/-- Step 2 of an append changes the buffer only (and the draws, if it reads an unwritten word). -/
theorem appendFullWords_frame (f : Nat) (cs : List Word) : ∀ (s : State) (k : Nat), ∃ m d,
    appendFullWords f s k cs = { s with buf := m, draws := d } := by
  induction cs with
  | nil => intro s k; exact ⟨s.buf, s.draws, rfl⟩
  | cons c rest ih =>
    intro s k
    obtain ⟨m, d, h⟩ := ih (appendFullWord f s k c) (k+1)
    obtain ⟨d', h'⟩ := bufRead_state s k
    unfold appendFullWords
    rw [h]
    refine ⟨m, d, ?_⟩
    unfold appendFullWord orWord bufWrite
    rw [h']

/-- An OR into a word changes the buffer only (and the draws). -/
theorem orWord_frame (s : State) (k : Nat) (v : Word) : ∃ m d, orWord s k v = { s with buf := m, draws := d } := by
  obtain ⟨d', h'⟩ := bufRead_state s k
  unfold orWord bufWrite
  rw [h']
  exact ⟨_, _, rfl⟩

/-- Step 3 of an append changes the buffer only (and the draws). -/
theorem appendLastWord_frame (f last : Nat) (s : State) (k : Nat) (c : Word) : ∃ m d,
    appendLastWord f last s k c = { s with buf := m, draws := d } := by
  unfold appendLastWord
  dsimp only
  obtain ⟨m, d, h⟩ := orWord_frame s k (wordShr (c &&& hiMask s.cfg.w last) f)
  rw [h]
  split
  · exact ⟨_, _, rfl⟩
  · split
    · exact ⟨_, _, rfl⟩
    · exact ⟨_, _, rfl⟩

/-- An append changes the buffer and the extent registers only (and the draws). -/
theorem append_frame (s : State) (len : Nat) (c : List Word) : ∃ m d t f w b,
    append s len c = { s with buf := m, draws := d, total := t, fill := f, wordCount := w, blockCount := b } := by
  unfold append
  dsimp only
  obtain ⟨m, d, h⟩ := appendFullWords_frame s.fill.toNat (c.take (codeLength s.cfg.w len - 1)) s (s.wordCount.toNat - 1)
  rw [h]
  obtain ⟨m', d', h'⟩ := appendLastWord_frame s.fill.toNat (lastBits s.cfg.w len) { s with buf := m, draws := d }
    (s.wordCount.toNat - 1 + (codeLength s.cfg.w len - 1)) (c.getD (codeLength s.cfg.w len - 1) 0#64)
  rw [h']
  exact ⟨m', d', _, _, _, _, rfl⟩

/-- What a bit step leaves of the state it starts from (R210). -/
def StepFrame (s : State) : BitStep → Prop
  | .emitted t => ∃ bp os e d,
    t = { s with
      bitPos := bp, outSym := os, eos := e, draws := d, symValid := true, cursor := s.root, count := s.count + 1#64 } ∧
    (e = s.eos ∨ e = true ∧ bp = s.total)
  | .moved t => ∃ bp c d, t = { s with bitPos := bp, cursor := c, draws := d }
  | .raised e t => (e = .badTree ∨ e = .truncatedCode) ∧ ∃ bp c d, t = { s with bitPos := bp, cursor := c, draws := d }
  | .stuck _ => True

/-- What a bit step leaves (R210). -/
theorem step1_frame (s : State) : StepFrame s (step1 s) := by
  rcases step1_cases s with ⟨_, h⟩ | ⟨_, _, h⟩ | ⟨_, _, _, h⟩ | ⟨_, _, l, r, hc, h⟩
  · rw [h]; trivial
  · rw [h]; trivial
  · obtain ⟨d, hd⟩ := bufRead_state s (s.bitPos.toNat / s.cfg.w)
    rw [h]
    exact ⟨.inl rfl, _, _, d, by rw [hd]⟩
  · rw [h]
    obtain ⟨d, hd⟩ := bufRead_state s (s.bitPos.toNat / s.cfg.w)
    rw [hd]
    rcases descend_cases (childIndex l r (stepBit s)) { s with draws := d } with
      ⟨hq, hr⟩ | ⟨sym, hq, hr⟩ | ⟨l', r', hq, hx, hr⟩ | ⟨l', r', hq, hx, hr⟩
    · rw [hr]; exact ⟨.inl rfl, _, _, d, rfl⟩
    · rw [hr]; refine ⟨_, _, _, d, rfl, ?_⟩
      show (s.eos || decide (s.bitPos + 1#64 = s.total)) = s.eos ∨ _
      by_cases h : s.bitPos + 1#64 = s.total
      · right; exact ⟨by simp [h], h⟩
      · left; simp [h]
    · rw [hr]; exact ⟨.inr rfl, _, _, d, rfl⟩
    · rw [hr]; exact ⟨_, _, d, rfl⟩

/-- The walk ends in an emission, an error or a fault, never between two bits. -/
theorem walk_ne_moved (fuel : Nat) (s t : State) : walkSymbol fuel s ≠ .moved t := by
  induction fuel generalizing s with
  | zero => intro h; cases h
  | succ n ih =>
    rw [walkSymbol_succ]
    split
    · exact ih _
    · intro h; cases h
    · intro h; cases h
    · intro h; cases h

/-- What a walk leaves (R214). -/
theorem walk_frame (n : Nat) (s : State) : StepFrame s (walkSymbol n s) := by
  induction n generalizing s with
  | zero => trivial
  | succ n ih =>
    rw [walkSymbol_succ]
    have h := step1_frame s
    split <;> rename_i heq <;> rw [heq] at h
    · rename_i s'
      obtain ⟨bp, c, d, rfl⟩ := h
      have h2 := ih { s with bitPos := bp, cursor := c, draws := d }
      have hnm := walk_ne_moved n { s with bitPos := bp, cursor := c, draws := d }
      generalize walkSymbol n { s with bitPos := bp, cursor := c, draws := d } = b at *
      cases b with
      | emitted t =>
        obtain ⟨bp', os, e, d', rfl, he⟩ := h2
        exact ⟨bp', os, e, d', rfl, he⟩
      | moved t => exact absurd rfl (hnm t)
      | raised e t =>
        obtain ⟨he, bp', c', d', rfl⟩ := h2
        exact ⟨he, bp', c', d', rfl⟩
      | stuck f => trivial
    · exact h
    · exact h
    · exact h

/-- The effect of each command when it neither raises nor is ignored, with the conditions it checked. -/
def Effect (s t : State) : Instr → Prop
  | .nop => t = s
  | .reset => t = resetBlock s
  | .abort => t = clearError s
  | .clrTables => s.mode = .idle ∧ t = { s with nodes := [], codes := [], root := 0#64 }
  | .writeNode n => s.mode = .idle ∧ n < s.cfg.maxNodes ∧ nodeWordOk s.cfg (dataGet s 0) = true ∧
    t = { s with nodes := nodeSet s.nodes n (nodeOfWord (dataGet s 0)) }
  | .setRoot n => s.mode = .idle ∧ n < s.cfg.maxNodes ∧ t = { s with root := BitVec.ofNat 64 n }
  | .writeCode sym len => s.mode = .idle ∧ sym < 2^s.cfg.symW ∧ 1 ≤ len ∧ len ≤ s.cfg.lMax ∧
    t = { s with codes := codeSet s.codes sym ⟨len, maskCode s.cfg.w len (dataCode s)⟩ }
  | .bufWrite n => s.mode = .idle ∧ n < s.cfg.capWords ∧ t = bufWrite s n (dataGet s 0)
  | .bufRead n => n < s.cfg.capWords ∧ t = dataSet (bufRead s n).2 0 (bufRead s n).1
  | .setLength => s.mode = .idle ∧
    t = setExtent s (dataGet s 0).toNat (dataGet s 1).toNat ((dataGet s 0).toNat / s.cfg.w + 1) ∧
       (dataGet s 0).toNat / s.cfg.w + 1 ≤ s.cfg.capWords ∧ (dataGet s 1).toNat = (dataGet s 0).toNat % s.cfg.w
  | .encInit => t = { startFlags false (setExtent (bufWrite s 0 0#64) 0 0 1) with count := 0#64, mode := .encode }
  | .encSym sym => s.mode = .encode ∧ sym < 2^s.cfg.symW ∧ ∃ e, codeGet s.codes sym = some e ∧ fits s e.len = true ∧
    t = countUp (append s e.len e.words)
  | .encBits len => s.mode = .encode ∧ 1 ≤ len ∧ len ≤ s.cfg.lMax ∧ fits s len = true ∧
    t = countUp (append s len (maskCode s.cfg.w len (dataCode s)))
  | .encEnd => s.mode = .encode ∧ t = { s with mode := .idle }
  | .decInit => ∃ l r, nodeAt s s.root = .internal l r ∧
    t = { startFlags (decide (s.total = 0#64)) s with cursor := s.root, bitPos := 0#64, count := 0#64, mode := .decode }
  | .decBit => s.mode = .decode ∧ (s.eos = true ∧ t = clearSymValid s ∨ s.eos = false ∧
    (step1 (clearSymValid s) = .emitted t ∨ step1 (clearSymValid s) = .moved t))
  | .decSym => s.mode = .decode ∧ (s.eos = true ∧ t = clearSymValid s ∨ s.eos = false ∧
    walkSymbol (s.total.toNat - s.bitPos.toNat) (clearSymValid s) = .emitted t)
  | .decEnd => s.mode = .decode ∧ t = { s with mode := .idle }

/-- Which errors each command's own checks raise, and the state `u` they are raised from. -/
def Raises (s : State) (e : ErrCode) (u : State) : Instr → Prop
  | .nop => False
  | .reset => False
  | .abort => False
  | .clrTables => False
  | .writeNode _ => e = .badCommand ∧ u = s
  | .setRoot _ => e = .badCommand ∧ u = s
  | .writeCode _ _ => (e = .badCommand ∨ e = .zeroLengthCode) ∧ u = s
  | .bufWrite _ => e = .badCommand ∧ u = s
  | .bufRead _ => e = .badCommand ∧ u = s
  | .setLength => e = .lengthMismatch ∧ u = s
  | .encInit => False
  | .encSym _ => (e = .codeNotFound ∨ e = .bufferOverflow) ∧ u = s
  | .encBits _ => (e = .badCommand ∨ e = .zeroLengthCode ∨ e = .bufferOverflow) ∧ u = s
  | .encEnd => False
  | .decInit => (e = .badTree ∨ e = .degenerateTree) ∧ u = s
  | .decBit => (e = .badTree ∨ e = .truncatedCode) ∧ s.mode = .decode ∧ s.eos = false ∧
    step1 (clearSymValid s) = .raised e u
  | .decSym => (e = .badTree ∨ e = .truncatedCode) ∧ s.mode = .decode ∧ s.eos = false ∧
    walkSymbol (s.total.toNat - s.bitPos.toNat) (clearSymValid s) = .raised e u
  | .decEnd => False

/-- A command legal only in IDLE runs in IDLE. -/
theorem legalIn_idle {i : Instr} {m : Mode} : (legalIn i m = true) → (∀ m, legalIn i m = (m == .idle)) → m = .idle := by
  intro h1 h2
  rw [h2] at h1
  simpa using h1

/-- Everything a command that answers a next state can have done. -/
theorem exec_cases {s t : State} {i : Instr} (h : exec i s = .next t) :
   (s.mode = .fault ∧ t = s ∧ i.format ≠ .z) ∨
   (s.mode ≠ .fault ∧ legalIn i s.mode = false ∧ t = raise .wrongMode (encode i) s) ∨
   (legalIn i s.mode = true ∧ s.mode ≠ .fault ∧ ∃ e u, Raises s e u i ∧ t = raise e (encode i) u) ∨
   (legalIn i s.mode = true ∧ (s.mode = .fault → i.format = .z) ∧ Effect s t i) := by
  have key : ∀ r, whenLegal i s r = .next t → i.format ≠ .z →
     (r = .next t → s.mode ≠ .fault → legalIn i s.mode = true → (∃ e u, Raises s e u i ∧ t = raise e (encode i) u) ∨
       Effect s t i) →
   ((s.mode = .fault ∧ t = s ∧ i.format ≠ .z) ∨
   (s.mode ≠ .fault ∧ legalIn i s.mode = false ∧ t = raise .wrongMode (encode i) s) ∨
   (legalIn i s.mode = true ∧ s.mode ≠ .fault ∧ ∃ e u, Raises s e u i ∧ t = raise e (encode i) u) ∨
   (legalIn i s.mode = true ∧ (s.mode = .fault → i.format = .z) ∧ Effect s t i)) := by
    intro r hr hz hk
    rcases whenLegal_cases i s r with ⟨h1, he⟩ | ⟨h1, h2, he⟩ | ⟨h1, h2, he⟩
    · rw [he] at hr; cases hr; exact .inl ⟨h1, rfl, hz⟩
    · rw [he] at hr; cases hr; exact .inr (.inl ⟨h1, h2, rfl⟩)
    · rw [he] at hr
      rcases hk hr h1 h2 with h3 | h3
      · exact .inr (.inr (.inl ⟨h2, h1, h3⟩))
      · exact .inr (.inr (.inr ⟨h2, fun hc => absurd hc h1, h3⟩))
  have hidle : legalIn i s.mode = true → (∀ m, legalIn i m = (m == .idle)) → s.mode = .idle := legalIn_idle
  cases i with
  | nop => cases h; exact .inr (.inr (.inr ⟨rfl, fun _ => rfl, rfl⟩))
  | reset => cases h; exact .inr (.inr (.inr ⟨rfl, fun _ => rfl, rfl⟩))
  | abort => cases h; exact .inr (.inr (.inr ⟨rfl, fun _ => rfl, rfl⟩))
  | clrTables =>
    refine key _ h (by simp [Instr.format]) fun hr h1 h2 => ?_
    cases hr; exact .inr ⟨hidle h2 (fun _ => rfl), rfl⟩
  | writeNode n =>
    refine key _ h (by simp [Instr.format]) fun hr h1 h2 => ?_
    split at hr
    · cases hr; exact .inl ⟨_, _, ⟨rfl, rfl⟩, rfl⟩
    · split at hr
      · cases hr; exact .inr ⟨hidle h2 (fun _ => rfl), by omega, by assumption, rfl⟩
      · cases hr; exact .inl ⟨_, _, ⟨rfl, rfl⟩, rfl⟩
  | setRoot n =>
    refine key _ h (by simp [Instr.format]) fun hr h1 h2 => ?_
    split at hr
    · cases hr; exact .inl ⟨_, _, ⟨rfl, rfl⟩, rfl⟩
    · cases hr; exact .inr ⟨hidle h2 (fun _ => rfl), by omega, rfl⟩
  | writeCode sym len =>
    refine key _ h (by simp [Instr.format]) fun hr h1 h2 => ?_
    split at hr
    · cases hr; exact .inl ⟨_, _, ⟨.inl rfl, rfl⟩, rfl⟩
    · split at hr
      · cases hr; exact .inl ⟨_, _, ⟨.inr rfl, rfl⟩, rfl⟩
      · split at hr
        · cases hr; exact .inl ⟨_, _, ⟨.inl rfl, rfl⟩, rfl⟩
        · cases hr; exact .inr ⟨hidle h2 (fun _ => rfl), by omega, by omega, by omega, rfl⟩
  | bufWrite n =>
    refine key _ h (by simp [Instr.format]) fun hr h1 h2 => ?_
    split at hr
    · cases hr; exact .inl ⟨_, _, ⟨rfl, rfl⟩, rfl⟩
    · cases hr; exact .inr ⟨hidle h2 (fun _ => rfl), by omega, rfl⟩
  | bufRead n =>
    refine key _ h (by simp [Instr.format]) fun hr h1 h2 => ?_
    split at hr
    · cases hr; exact .inl ⟨_, _, ⟨rfl, rfl⟩, rfl⟩
    · cases hr; exact .inr ⟨by omega, rfl⟩
  | setLength =>
    refine key _ h (by simp [Instr.format]) fun hr h1 h2 => ?_
    dsimp only at hr
    split at hr
    · cases hr; exact .inl ⟨_, _, ⟨rfl, rfl⟩, rfl⟩
    · split at hr
      · cases hr; exact .inl ⟨_, _, ⟨rfl, rfl⟩, rfl⟩
      · rename_i a b
        cases hr; exact .inr ⟨hidle h2 (fun _ => rfl), rfl, by omega, by by_contra hc; exact b hc⟩
  | encInit =>
    refine key _ h (by simp [Instr.format]) fun hr h1 h2 => ?_
    cases hr; exact .inr rfl
  | encSym sym =>
    refine key _ h (by simp [Instr.format]) fun hr h1 h2 => ?_
    have hm : s.mode = .encode := by simpa [legalIn] using h2
    split at hr
    · cases hr; exact .inl ⟨_, _, ⟨.inl rfl, rfl⟩, rfl⟩
    · split at hr
      · cases hr; exact .inl ⟨_, _, ⟨.inl rfl, rfl⟩, rfl⟩
      · unfold appendCode at hr
        split at hr
        · split at hr
          · cases hr; exact .inr ⟨hm, by omega, _, by assumption, by assumption, rfl⟩
          · cases hr
        · cases hr; exact .inl ⟨_, _, ⟨.inr rfl, rfl⟩, rfl⟩
  | encBits len =>
    refine key _ h (by simp [Instr.format]) fun hr h1 h2 => ?_
    have hm : s.mode = .encode := by simpa [legalIn] using h2
    split at hr
    · cases hr; exact .inl ⟨_, _, ⟨.inr (.inl rfl), rfl⟩, rfl⟩
    · split at hr
      · cases hr; exact .inl ⟨_, _, ⟨.inl rfl, rfl⟩, rfl⟩
      · unfold appendCode at hr
        split at hr
        · split at hr
          · cases hr; exact .inr ⟨hm, by omega, by omega, by assumption, rfl⟩
          · cases hr
        · cases hr; exact .inl ⟨_, _, ⟨.inr (.inr rfl), rfl⟩, rfl⟩
  | encEnd =>
    refine key _ h (by simp [Instr.format]) fun hr h1 h2 => ?_
    have hm : s.mode = .encode := by simpa [legalIn] using h2
    cases hr; exact .inr ⟨hm, rfl⟩
  | decInit =>
    refine key _ h (by simp [Instr.format]) fun hr h1 h2 => ?_
    split at hr
    · cases hr; exact .inl ⟨_, _, ⟨.inl rfl, rfl⟩, rfl⟩
    · cases hr; exact .inl ⟨_, _, ⟨.inr rfl, rfl⟩, rfl⟩
    · cases hr; exact .inr ⟨_, _, by assumption, rfl⟩
  | decBit =>
    refine key _ h (by simp [Instr.format]) fun hr h1 h2 => ?_
    have hm : s.mode = .decode := by simpa [legalIn] using h2
    split at hr
    · rename_i he; cases hr; exact .inr ⟨hm, .inl ⟨he, rfl⟩⟩
    · rename_i he
      have he : s.eos = false := by simpa using he
      have hf := step1_frame (clearSymValid s)
      cases hb : step1 (clearSymValid s) with
      | emitted u => rw [hb] at hr; cases hr; exact .inr ⟨hm, .inr ⟨he, .inl hb⟩⟩
      | moved u => rw [hb] at hr; cases hr; exact .inr ⟨hm, .inr ⟨he, .inr hb⟩⟩
      | raised e u => rw [hb] at hr hf; cases hr; exact .inl ⟨e, u, ⟨hf.1, hm, he, hb⟩, rfl⟩
      | stuck f => rw [hb] at hr; cases hr
  | decSym =>
    refine key _ h (by simp [Instr.format]) fun hr h1 h2 => ?_
    have hm : s.mode = .decode := by simpa [legalIn] using h2
    split at hr
    · rename_i he; cases hr; exact .inr ⟨hm, .inl ⟨he, rfl⟩⟩
    · rename_i he
      have he : s.eos = false := by simpa using he
      have hf := walk_frame (s.total.toNat - s.bitPos.toNat) (clearSymValid s)
      cases hb : walkSymbol (s.total.toNat - s.bitPos.toNat) (clearSymValid s) with
      | emitted u => rw [hb] at hr; cases hr; exact .inr ⟨hm, .inr ⟨he, hb⟩⟩
      | moved u => exact absurd hb (walk_ne_moved _ _ _)
      | raised e u => rw [hb] at hr hf; cases hr; exact .inl ⟨e, u, ⟨hf.1, hm, he, hb⟩, rfl⟩
      | stuck f => rw [hb] at hr; cases hr
  | decEnd =>
    refine key _ h (by simp [Instr.format]) fun hr h1 h2 => ?_
    have hm : s.mode = .decode := by simpa [legalIn] using h2
    cases hr; exact .inr ⟨hm, rfl⟩

/-- A command's own error is raised from the state it started in, but for the bits a decode consumed (R247). -/
theorem raises_frame {s u : State} {e : ErrCode} {i : Instr} (h : Raises s e u i) :
    e ≠ .noError ∧ e ≠ .emptyInput ∧ e ≠ .wrongMode ∧
      (u = s ∨ (i = .decBit ∨ i = .decSym) ∧ ∃ bp c d,
      u = { s with bitPos := bp, cursor := c, draws := d, symValid := false }) := by
  cases i <;> simp only [Raises] at h
  all_goals first
    | exact h.elim
    | (obtain ⟨rfl, rfl⟩ := h; simp)
    | (obtain ⟨rfl | rfl, rfl⟩ := h <;> simp)
    | (obtain ⟨rfl | rfl | rfl, rfl⟩ := h <;> simp)
    | skip
  · obtain ⟨he, hm, heo, hs⟩ := h
    have hf := step1_frame (clearSymValid s)
    rw [hs] at hf
    obtain ⟨_, bp, c, d, rfl⟩ := hf
    refine ⟨?_, ?_, ?_, .inr ⟨.inl rfl, bp, c, d, rfl⟩⟩ <;> rcases he with rfl | rfl <;> simp
  · obtain ⟨he, hm, heo, hs⟩ := h
    have hf := walk_frame (s.total.toNat - s.bitPos.toNat) (clearSymValid s)
    rw [hs] at hf
    obtain ⟨_, bp, c, d, rfl⟩ := hf
    refine ⟨?_, ?_, ?_, .inr ⟨.inr rfl, bp, c, d, rfl⟩⟩ <;> rcases he with rfl | rfl <;> simp

/-- No effect leads to FAULT: only a raise does (60_exceptions.md R243). -/
theorem effect_mode {s t : State} {i : Instr} (h : Effect s t i) (hm : s.mode ≠ .fault) : t.mode ≠ .fault := by
  cases i <;> simp only [Effect] at h
  case nop => subst h; exact hm
  case reset => subst h; simp [resetBlock, State.resetWith]
  case abort => subst h; simp [clearError, clearFlags]
  case clrTables => obtain ⟨_, rfl⟩ := h; exact hm
  case writeNode => obtain ⟨_, _, _, rfl⟩ := h; exact hm
  case setRoot => obtain ⟨_, _, rfl⟩ := h; exact hm
  case writeCode => obtain ⟨_, _, _, _, rfl⟩ := h; exact hm
  case bufWrite => obtain ⟨_, _, rfl⟩ := h; exact hm
  case bufRead n =>
    obtain ⟨_, rfl⟩ := h; obtain ⟨d, hd⟩ := bufRead_state s n; rw [hd]; exact hm
  case setLength => obtain ⟨_, rfl, _⟩ := h; exact hm
  case encInit => subst h; simp
  case encSym =>
    obtain ⟨_, _, e, _, _, rfl⟩ := h
    obtain ⟨m, d, t, f, w, b, hh⟩ := append_frame s e.len e.words
    rw [hh]; exact hm
  case encBits len =>
    obtain ⟨_, _, _, _, rfl⟩ := h
    obtain ⟨m, d, t, f, w, b, hh⟩ := append_frame s len (maskCode s.cfg.w len (dataCode s))
    rw [hh]; exact hm
  case encEnd => obtain ⟨_, rfl⟩ := h; simp
  case decInit => obtain ⟨_, _, _, rfl⟩ := h; simp
  case decBit =>
    have hf := step1_frame (clearSymValid s)
    obtain ⟨_, ⟨_, rfl⟩ | ⟨_, hb | hb⟩⟩ := h
    · exact hm
    · rw [hb] at hf; obtain ⟨_, _, _, _, rfl, _⟩ := hf; exact hm
    · rw [hb] at hf; obtain ⟨_, _, _, rfl⟩ := hf; exact hm
  case decSym =>
    have hf := walk_frame (s.total.toNat - s.bitPos.toNat) (clearSymValid s)
    obtain ⟨_, ⟨_, rfl⟩ | ⟨_, hb⟩⟩ := h
    · exact hm
    · rw [hb] at hf; obtain ⟨_, _, _, _, rfl, _⟩ := hf; exact hm
  case decEnd => obtain ⟨_, rfl⟩ := h; simp


end Sys2Proof.Machine
end

