-- ==== Sys2Proof/Laws/Extent.lean ====
section
/-! SUPPORT. The accounting of the buffer (10_state.md R27 to R32): TOTAL, FILL, WORD_COUNT and BLOCK_COUNT through
SET_LENGTH and through an append. -/

namespace Sys2Proof.Machine

theorem cap_pos {c : Params} (h : c.Legal) : 1 ≤ c.capWords := Nat.mul_pos h.numBlocks h.arraySize

/-- The buffer holds at most `2^38` bits, so no bit count wraps a 64-bit register. -/
theorem capBits_le {c : Params} (h : c.Legal) : c.capWords * c.w ≤ 2 ^ 38 :=
  calc c.capWords * c.w ≤ 2 ^ 32 * 64 := Nat.mul_le_mul h.capWords h.w.2
    _ = 2 ^ 38 := by norm_num

theorem ceilDiv_le (a : Nat) {b : Nat} (hb : 1 ≤ b) : ceilDiv a b ≤ a := by
  unfold ceilDiv
  rcases Nat.eq_zero_or_pos a with rfl | ha
  · rw [Nat.div_eq_of_lt (by omega)]
  · apply Nat.div_le_of_le_mul
    have h1 : b - 1 ≤ (b - 1) * a := Nat.le_mul_of_pos_right _ ha
    have h2 : b * a = (b - 1) * a + a := by
      conv_lhs => rw [show b = b - 1 + 1 by omega, Nat.add_mul, Nat.one_mul]
    omega

/-- A bit count whose words fit the buffer is below CAP_WORDS * W. -/
theorem lt_capBits {c : Params} (h : c.Legal) {t : Nat} (ht : t / c.w + 1 ≤ c.capWords) : t < c.capWords * c.w :=
  (Nat.div_lt_iff_lt_mul h.w.1).1 (Nat.lt_of_succ_le ht)

/-- TOTAL is at most CAP_WORDS * W - 1 (R27). -/
theorem total_lt {s : State} (hl : s.cfg.Legal) (h : ExtentOk s) : s.total.toNat < s.cfg.capWords * s.cfg.w :=
  lt_capBits hl (by rw [← h.2.1]; exact h.2.2.2)

theorem fill_lt {s : State} (hl : s.cfg.Legal) (h : ExtentOk s) : s.fill.toNat < s.cfg.w := by
  rw [h.1]; exact Nat.mod_lt _ hl.w.1

theorem wordCount_pos {s : State} (h : ExtentOk s) : 1 ≤ s.wordCount.toNat := by
  rw [h.2.1]; exact Nat.succ_pos _

/-- The trailing word and its fill are TOTAL (10_state.md R26). -/
theorem append_position {s : State} (h : ExtentOk s) :
    (s.wordCount.toNat - 1) * s.cfg.w + s.fill.toNat = s.total.toNat := by
  rw [h.2.1, h.1, Nat.add_sub_cancel, Nat.mul_comm]
  exact Nat.div_add_mod _ _

/-- Registers set from a bit count that fits satisfy I1, I2 and I3. -/
theorem extentOk_setExtent {s : State} (hl : s.cfg.Legal) {t : Nat} (ht : t / s.cfg.w + 1 ≤ s.cfg.capWords) :
    ExtentOk (setExtent s t (t % s.cfg.w) (t / s.cfg.w + 1)) := by
  have hw := hl.w
  have hc := hl.capWords
  have ht2 : t < 2 ^ 64 := by
    have h1 := lt_capBits hl ht
    have h2 := capBits_le hl
    omega
  have hf : t % s.cfg.w < 2 ^ 64 := by
    have := Nat.mod_lt t hw.1
    omega
  have hn : t / s.cfg.w + 1 < 2 ^ 64 := by omega
  have hb := ceilDiv_le (t / s.cfg.w + 1) hl.arraySize
  refine ⟨?_, ?_, ?_, ?_⟩ <;>
    simp only [setExtent_fill, setExtent_total, setExtent_cfg, setExtent_wordCount, setExtent_blockCount,
      BitVec.toNat_ofNat]
  · rw [Nat.mod_eq_of_lt hf, Nat.mod_eq_of_lt ht2]
  · rw [Nat.mod_eq_of_lt ht2, Nat.mod_eq_of_lt hn]
  · rw [Nat.mod_eq_of_lt hn, Nat.mod_eq_of_lt (by omega)]
  · rw [Nat.mod_eq_of_lt hn]; exact ht

/-- After an append of `len` bits the trailing word is word (TOTAL + len) div W and its fill (TOTAL + len) mod W. -/
theorem after_append {s : State} (hl : s.cfg.Legal) (h : ExtentOk s) {len : Nat} (h1 : 1 ≤ len) :
    trailingAfter s len = (s.total.toNat + len) / s.cfg.w ∧
    fillAfter s.cfg.w s.fill.toNat (lastBits s.cfg.w len) = (s.total.toNat + len) % s.cfg.w := by
  have hw := hl.w
  obtain ⟨_, hacc, _, hlast⟩ := codeLength_account hw.1 h1
  have hf := fill_lt hl h
  have hlt := fillAfter_lt hf hlast
  have hT := append_position h
  have key : trailingAfter s len * s.cfg.w + fillAfter s.cfg.w s.fill.toNat (lastBits s.cfg.w len) =
      s.total.toNat + len := by
    unfold trailingAfter
    rw [fillAfter_account hf, Nat.add_mul]
    omega
  generalize fillAfter s.cfg.w s.fill.toNat (lastBits s.cfg.w len) = f' at *
  generalize trailingAfter s len = k' at *
  rw [← key]
  constructor
  · rw [Nat.mul_comm, Nat.mul_add_div hw.1, Nat.div_eq_of_lt hlt, Nat.add_zero]
  · rw [Nat.mul_comm, Nat.mul_add_mod, Nat.mod_eq_of_lt hlt]

/-- In a packed buffer the trailing word is in place for an append. -/
theorem trailOk_of_packed {s : State} (hl : s.cfg.Legal) (hb : BufferOk s) (he : ExtentOk s) (hp : Packed s) :
    TrailOk s (s.wordCount.toNat - 1) s.fill.toNat := by
  obtain ⟨h1, h2⟩ := hp
  have hw := hl.w
  have hwc := wordCount_pos he
  obtain ⟨u, hu⟩ := Option.isSome_iff_exists.1 (h1 (s.wordCount.toNat - 1) (by omega))
  refine ⟨u, hu, bufferOk_read hb hu, ?_⟩
  rw [hu] at h2
  simp only [Option.all_some, decide_eq_true_eq] at h2
  exact (and_lowMask_eq_zero (by omega) u).1 h2

/-- A stream bit is there exactly when its word is written. -/
theorem streamBit_isSome (s : State) (j : Nat) :
    (streamBit s j).isSome = (Memory.read s.buf (j / s.cfg.w)).isSome := by
  simp [streamBit]

/-- Everything an append that fits does to a packed buffer (R181, R184): it adds the code bits to the stream, sets the
extent registers, and leaves the buffer packed. -/
theorem append_spec {s : State} {len : Nat} {c : List Word} (hl : s.cfg.Legal) (hb : BufferOk s) (he : ExtentOk s)
    (hp : Packed s) (h1 : 1 ≤ len) (hc : ∀ x ∈ c, wordOf s.cfg.w x = x) (hlen : codeLength s.cfg.w len ≤ c.length)
    (hfit : fits s len = true) :
    ∃ m, append s len c = setExtent { s with buf := m } (s.total.toNat + len) ((s.total.toNat + len) % s.cfg.w)
          ((s.total.toNat + len) / s.cfg.w + 1) ∧
      (∀ j, j < len → streamBit (append s len c) (s.total.toNat + j) = some (codeBit s.cfg.w c j)) ∧
      (∀ j, j < s.total.toNat → streamBit (append s len c) j = streamBit s j) ∧
      (∀ i, (s.total.toNat + len) / s.cfg.w < i →
        Memory.read (append s len c).buf i = Memory.read s.buf i) ∧
      BufferOk (append s len c) ∧ ExtentOk (append s len c) ∧ Packed (append s len c) := by
  have hw := hl.w
  have hf := fill_lt hl he
  have hT := append_position he
  simp only [fits, decide_eq_true_eq] at hfit
  obtain ⟨hk, hfa⟩ := after_append hl he h1
  obtain ⟨s3, heq, ha⟩ := append_appended hw.1 hw.2 hf h1 hc hlen (trailOk_of_packed hl hb he hp)
  rw [hk, hfa] at heq ha
  obtain ⟨m, rfl⟩ := ha.frame
  have hpos := ha.position
  have hext := extentOk_setExtent (s := { s with buf := m }) hl (t := s.total.toNat + len) hfit
  have hold := ha.old
  have hnew := ha.new
  rw [hT] at hold hnew
  have hsb : ∀ j, streamBit (append s len c) j = streamBit { s with buf := m } j := by
    intro j; rw [heq]; rfl
  refine ⟨m, heq, fun j hj => ?_, fun j hj => ?_, fun i hi => ?_, ?_, ?_, ?_, ?_⟩
  · rw [hsb]; exact hnew j hj
  · rw [hsb]; exact hold j hj
  · rw [heq]; exact ha.beyond i hi
  · rw [heq]; exact ha.buffer hb (by omega)
  · rw [heq]; exact hext
  · -- every word of the buffer is written
    intro i hi
    rw [heq] at hi ⊢
    rw [hext.2.1] at hi
    simp only [setExtent_total, setExtent_cfg, setExtent_buf] at hi ⊢
    have htot : (BitVec.ofNat 64 (s.total.toNat + len)).toNat = s.total.toNat + len := by
      have h1 := lt_capBits hl hfit
      have h2 := capBits_le hl
      rw [BitVec.toNat_ofNat, Nat.mod_eq_of_lt (by omega)]
    rw [htot] at hi
    by_cases hi' : i = (s.total.toNat + len) / s.cfg.w
    · obtain ⟨u, hu, _⟩ := ha.trail
      rw [hi']
      exact Option.isSome_iff_exists.2 ⟨u, hu⟩
    · have hilt : i < (s.total.toNat + len) / s.cfg.w := Nat.lt_of_le_of_ne (Nat.le_of_lt_succ hi) hi'
      have hjT : i * s.cfg.w < s.total.toNat + len := by
        have h1 := (Nat.le_div_iff_mul_le hw.1).1 (Nat.succ_le_of_lt hilt)
        rw [Nat.succ_mul] at h1
        exact lt_of_lt_of_le (Nat.lt_add_of_pos_right hw.1) h1
      have hdiv : i * s.cfg.w / s.cfg.w = i := Nat.mul_div_cancel _ hw.1
      have hsome : (streamBit { s with buf := m } (i * s.cfg.w)).isSome = true := by
        by_cases hj : i * s.cfg.w < s.total.toNat
        · rw [hold _ hj, streamBit_isSome, hdiv]
          apply hp.1
          rw [he.2.1]
          have : i ≤ s.total.toNat / s.cfg.w := (Nat.le_div_iff_mul_le hw.1).2 (Nat.le_of_lt hj)
          omega
        · have := hnew (i * s.cfg.w - s.total.toNat) (by omega)
          rw [show s.total.toNat + (i * s.cfg.w - s.total.toNat) = i * s.cfg.w by omega] at this
          rw [this]
          rfl
      rw [streamBit_isSome, hdiv] at hsome
      exact hsome
  · -- the padding is 0
    obtain ⟨u, hu, _, hul⟩ := ha.trail
    have hwc : (append s len c).wordCount.toNat - 1 = (s.total.toNat + len) / s.cfg.w := by
      rw [heq, hext.2.1]
      simp only [setExtent_total, setExtent_cfg]
      have h1 := lt_capBits hl hfit
      have h2 := capBits_le hl
      rw [BitVec.toNat_ofNat, Nat.mod_eq_of_lt (by omega), Nat.add_sub_cancel]
    have hfl : (append s len c).fill.toNat = (s.total.toNat + len) % s.cfg.w := by
      rw [heq]
      simp only [setExtent_fill]
      have := Nat.mod_lt (s.total.toNat + len) hw.1
      rw [BitVec.toNat_ofNat, Nat.mod_eq_of_lt (by omega)]
    rw [hwc, hfl]
    have hbuf : (append s len c).buf = m := by rw [heq]; rfl
    have hcfg : (append s len c).cfg = s.cfg := by rw [heq]; rfl
    have hu' : Memory.read m ((s.total.toNat + len) / s.cfg.w) = some u := hu
    rw [hbuf, hcfg, hu']
    simp only [Option.all_some, decide_eq_true_eq]
    exact (and_lowMask_eq_zero (by omega) u).2 hul

/-- Under the same conditions the append names only words that exist, so ENC_SYM and ENC_BITS complete. -/
theorem trailingAfter_lt_cap {s : State} {len : Nat} (hl : s.cfg.Legal) (he : ExtentOk s) (h1 : 1 ≤ len)
    (hfit : fits s len = true) : trailingAfter s len < s.cfg.capWords := by
  simp only [fits, decide_eq_true_eq] at hfit
  rw [(after_append hl he h1).1]
  omega

end Sys2Proof.Machine
end

