-- ==== Sys2Proof/Laws/HostProgram.lean ====
section
/-! SUPPORT. The node-entry words that LDNODE writes (30_encoding.md R100) are the entries they name (10_state.md R34). -/

namespace Sys2Proof.Machine

/-- A symbol that fits the SYM field is the entry's symbol. -/
theorem nodeOfWord_leafEntry {sym : Nat} (h : sym < 2 ^ 16) :
    nodeOfWord (leafEntry sym) = .leaf (BitVec.ofNat 16 sym) := by
  have hn : 1 <<< 62 ||| sym <<< 32 = 2 ^ 62 + 2 ^ 32 * sym := by
    rw [Nat.shiftLeft_eq, Nat.shiftLeft_eq, Nat.mul_comm sym, show 1 * 2 ^ 62 = 2 ^ 62 * 1 by rfl,
      ← Nat.two_pow_add_eq_or_of_lt (show 2 ^ 32 * sym < 2 ^ 62 by omega), Nat.mul_one]
  have hv : (leafEntry sym).toNat = 2 ^ 62 + 2 ^ 32 * sym := by
    rw [leafEntry, hn, BitVec.toNat_ofNat]
    omega
  have hk : nodeKind (leafEntry sym) = 1 := by
    simp only [nodeKind, BitVec.extractLsb'_toNat, Nat.shiftRight_eq_div_pow, hv]
    omega
  have hs : nodeSym (leafEntry sym) = BitVec.ofNat 16 sym := by
    apply BitVec.eq_of_toNat_eq
    simp only [nodeSym, BitVec.extractLsb'_toNat, Nat.shiftRight_eq_div_pow, hv, BitVec.toNat_ofNat]
    omega
  simp only [nodeOfWord, hk, hs]

/-- Two indices that fit their fields are the entry's children. -/
theorem nodeOfWord_internalEntry {l r : Nat} (hl : l < 2 ^ 16) (hr : r < 2 ^ 16) :
    nodeOfWord (internalEntry l r) = .internal (BitVec.ofNat 16 l) (BitVec.ofNat 16 r) := by
  have hn : 2 <<< 62 ||| l <<< 16 ||| r = 2 ^ 63 + 2 ^ 16 * l + r := by
    rw [Nat.shiftLeft_eq, Nat.shiftLeft_eq, Nat.mul_comm l,
      show 2 * 2 ^ 62 = 2 ^ 63 * 1 by rfl, ← Nat.two_pow_add_eq_or_of_lt (show 2 ^ 16 * l < 2 ^ 63 by omega),
      show 2 ^ 63 * 1 + 2 ^ 16 * l = 2 ^ 16 * (2 ^ 47 + l) by omega, ← Nat.two_pow_add_eq_or_of_lt hr]
    omega
  have hv : (internalEntry l r).toNat = 2 ^ 63 + 2 ^ 16 * l + r := by
    rw [internalEntry, hn, BitVec.toNat_ofNat]
    omega
  have hk : nodeKind (internalEntry l r) = 2 := by
    simp only [nodeKind, BitVec.extractLsb'_toNat, Nat.shiftRight_eq_div_pow, hv]
    omega
  have h1 : nodeLeft (internalEntry l r) = BitVec.ofNat 16 l := by
    apply BitVec.eq_of_toNat_eq
    simp only [nodeLeft, BitVec.extractLsb'_toNat, Nat.shiftRight_eq_div_pow, hv, BitVec.toNat_ofNat]
    omega
  have h2 : nodeRight (internalEntry l r) = BitVec.ofNat 16 r := by
    apply BitVec.eq_of_toNat_eq
    simp only [nodeRight, BitVec.extractLsb'_toNat, Nat.shiftRight_eq_div_pow, hv, BitVec.toNat_ofNat]
    omega
  simp only [nodeOfWord, hk, h1, h2]

end Sys2Proof.Machine
end

