-- ==== Sys2Proof/Laws/Invariant.lean ====
section
/-! SUPPORT. Parts of the invariant's preservation that several commands share: errors, the append and the walk. -/

namespace Sys2Proof.Machine

/-- Taking an error keeps the invariant (60_exceptions.md R242). -/
theorem inv_raise {s : State} (h : Inv s) {e : ErrCode} (h1 : e ≠ .noError) (h2 : e ≠ .emptyInput) (cmd : Reg) :
    Inv (raise e cmd s) :=
  ⟨h.legal, h.data, h.buffer, h.tables, h.extent, h.pointers, ⟨by simp [h1], h2, by simp⟩, by simp [EncodeOk],
    by simp [DecodeOk]⟩

/-- So does a command that fails. -/
theorem inv_fail {s t : State} {i : Instr} {e : ErrCode} (h : Inv s) (h1 : e ≠ .noError) (h2 : e ≠ .emptyInput)
    (ht : fail e i s = .next t) : Inv t := by
  simp only [fail, Host.Outcome.next.injEq] at ht
  subst ht
  exact inv_raise h h1 h2 _

/-- The mode steps of R96 keep the invariant if the effect does. -/
theorem inv_whenLegal {s t : State} {i : Instr} {r : Result} (h : Inv s)
    (hr : s.mode ≠ .fault → legalIn i s.mode = true → r = .next t → Inv t)
    (ht : whenLegal i s r = .next t) : Inv t := by
  rcases whenLegal_cases i s r with ⟨_, he⟩ | ⟨_, _, he⟩ | ⟨h1, h2, he⟩
  · rw [he] at ht; cases ht; exact h
  · rw [he] at ht; cases ht; exact inv_raise h (by simp) (by simp) _
  · rw [he] at ht; exact hr h1 h2 ht

/-- Outside FAULT, ERR and ERR_CMD are 0 (60_exceptions.md R243). -/
theorem inv_error_nofault {s : State} (h : Inv s) (hm : s.mode ≠ .fault) : s.err = .noError ∧ s.errCmd = 0#64 := by
  refine ⟨?_, h.error.2.2 hm⟩
  by_contra hne
  exact hm (h.error.1.1 hne)

/-- The invariant says nothing of the host's side, the latch, the reset input or the draws. -/
theorem inv_host {s : State} (h : Inv s) (r : Bool)
    (ho : List HostOp) (tu : List Turn) (re : List Reg) (d : Nat) (p : Option Reg) :
    Inv { s with rst := r, host := ho, turns := tu, responses := re, draws := d, pending := p } :=
  ⟨h.legal, h.data, h.buffer, h.tables, h.extent, h.pointers, h.error, h.encode, h.decode⟩

/-- The entry that a checked entry word stores is in range (41_tables.md R144). -/
theorem nodeOfWord_ok {c : Params} {e : Reg} (h : nodeWordOk c e = true) : nodeOk c (nodeOfWord e) = true := by
  unfold nodeWordOk at h
  unfold nodeOfWord
  split at h <;> simp_all [nodeOk]

/-- A longer code has no fewer code words. -/
theorem codeLength_mono {w a b : Nat} (h : a ≤ b) : codeLength w a ≤ codeLength w b := by
  unfold codeLength ceilDiv
  exact Nat.div_le_div_right (by omega)

/-- The shared end of ENC_SYM and ENC_BITS keeps the invariant (43_encoder.md R184). -/
theorem inv_appendCode {s t : State} {i : Instr} {len : Nat} {c : List Word} (h : Inv s) (hm : s.mode = .encode)
    (h1 : 1 ≤ len) (hc : ∀ x ∈ c, wordOf s.cfg.w x = x) (hlen : codeLength s.cfg.w len ≤ c.length)
    (ht : appendCode i len c s = .next t) : Inv t := by
  unfold appendCode at ht
  split at ht
  · rename_i hfit
    split at ht
    · cases ht
      obtain ⟨hp, hs, he⟩ := h.encode hm
      obtain ⟨m, heq, _, _, _, hb, hx, hpk⟩ := append_spec h.legal h.buffer h.extent hp h1 hc hlen hfit
      have hcfg : (append s len c).cfg = s.cfg := by rw [heq]; rfl
      refine ⟨?_, ?_, hb, ?_, hx, ?_, ?_, ?_, ?_⟩
      · show (append s len c).cfg.Legal
        rw [hcfg]; exact h.legal
      · show (append s len c).data.length = (append s len c).cfg.ndata
        rw [heq]; exact h.data
      · show TablesOk (append s len c)
        rw [heq]; exact h.tables
      · show PointersOk (append s len c)
        rw [heq]; exact h.pointers
      · show ErrorOk (append s len c)
        rw [heq]; exact h.error
      · intro _
        refine ⟨hpk, ?_, ?_⟩
        · show (append s len c).symValid = false
          rw [heq]; exact hs
        · show (append s len c).eos = false
          rw [heq]; exact he
      · intro hd
        have : (append s len c).mode = .decode := hd
        rw [heq] at this
        have : s.mode = .decode := this
        rw [hm] at this; cases this
    · cases ht
  · exact inv_fail h (by simp) (by simp) ht

/-- Clearing SYM_VALID keeps the invariant. -/
theorem inv_clear {s : State} (h : Inv s) : Inv (clearSymValid s) :=
  ⟨h.legal, h.data, h.buffer, h.tables, h.extent, h.pointers, h.error,
    fun hm => ⟨(h.encode hm).1, rfl, (h.encode hm).2.2⟩, h.decode⟩

/-- A bit step that ends in the invariant: what the walk needs of it. -/
def GoodStep (s : State) : BitStep → Prop
  | .emitted t => Inv t
  | .moved t => Inv t ∧ t.mode = .decode ∧ t.eos = false ∧ t.total = s.total ∧ t.bitPos.toNat = s.bitPos.toNat + 1
  | .raised e t => (e ≠ .noError ∧ e ≠ .emptyInput) ∧ ∀ cmd, Inv (raise e cmd t)
  | .stuck _ => False

/-- The outcome of a command whose last bit step kept the invariant. -/
theorem inv_endWalk {s t : State} {i : Instr} {b : BitStep} (h : GoodStep s b)
    (ht : endWalk i b = .next t) : Inv t := by
  cases b with
  | emitted t' => cases ht; exact h
  | moved t' => cases ht; exact h.1
  | raised e t' => cases ht; exact h.2 _
  | stuck f => exact h.elim

/-- An error raised from a state with every part of the invariant that does not depend on the mode. -/
theorem inv_raise_of {s : State} (h1 : s.cfg.Legal) (h2 : s.data.length = s.cfg.ndata) (h3 : BufferOk s)
    (h4 : TablesOk s) (h5 : ExtentOk s) (h6 : PointersOk s)
    {e : ErrCode} (he1 : e ≠ .noError) (he2 : e ≠ .emptyInput) (cmd : Reg) :
    Inv (raise e cmd s) :=
  ⟨h1, h2, h3, h4, h5, h6, ⟨by simp [he1], he2, by simp⟩, by simp [EncodeOk], by simp [DecodeOk]⟩

/-- A bit step of a decode session keeps the invariant, however it ends, and is never stuck (44_decoder.md R210,
10_state.md R45). -/
theorem step1_good {s : State} (h : Inv s) (hm : s.mode = .decode) (he : s.eos = false) : GoodStep s (step1 s) := by
  have hw := h.legal.w
  obtain ⟨hle, hcur, hroot, heos, hbc⟩ := h.decode hm
  have hne : s.bitPos ≠ s.total := fun hc => by rw [heos.2 hc] at he; cases he
  have hlt : s.bitPos.toNat < s.total.toNat := by
    rcases Nat.lt_or_eq_of_le hle with h1 | h1
    · exact h1
    · exact absurd (BitVec.eq_of_toNat_eq h1) hne
  have hidx : s.bitPos.toNat / s.cfg.w < s.cfg.capWords := by
    have h1 : s.bitPos.toNat / s.cfg.w ≤ s.total.toNat / s.cfg.w := Nat.div_le_div_right hle
    have h2 := h.extent.2.1
    have h3 := h.extent.2.2.2
    rw [h2] at h3
    exact lt_of_le_of_lt h1 h3
  have hb1 : (s.bitPos + 1#64).toNat = s.bitPos.toNat + 1 := by
    have := s.total.isLt
    rw [BitVec.toNat_add]
    simp
    omega
  rcases step1_cases s with ⟨h1, _⟩ | ⟨_, h1, _⟩ | ⟨_, _, h1, _⟩ | ⟨_, _, l, r, hc, hs⟩
  · omega
  · omega
  · rw [hcur] at h1; cases h1
  · rw [hs]
    obtain ⟨d, hd⟩ := bufRead_state s (s.bitPos.toNat / s.cfg.w)
    rw [hd]
    obtain ⟨ch, hch⟩ : ∃ ch, ch = childIndex l r (stepBit s) := ⟨_, rfl⟩
    rw [← hch]
    have hnode := cellsAll_nodeGet h.tables.2.1 (i := s.cursor.toNat) (by
      show nodeAt s s.cursor ≠ .invalid
      rw [hc]; simp)
    rw [show nodeGet s.nodes s.cursor.toNat = .internal l r from hc] at hnode
    simp only [nodeOk, Bool.and_eq_true, decide_eq_true_eq] at hnode
    have hchlt : ch.toNat < s.cfg.maxNodes := by
      rw [hch]; unfold childIndex; split <;> omega
    have hset : (ch.setWidth 64).toNat = ch.toNat := by
      rw [BitVec.toNat_setWidth]; have := ch.isLt; omega
    rcases descend_cases ch { s with draws := d } with
      ⟨hq, hr⟩ | ⟨sym, hq, hr⟩ | ⟨l', r', hq, hx, hr⟩ | ⟨l', r', hq, hx, hr⟩
    · rw [hr]
      refine ⟨⟨by simp, by simp⟩, fun cmd => ?_⟩
      exact inv_raise_of (s := {s with draws := d}) h.legal h.data h.buffer h.tables h.extent h.pointers
        (by simp) (by simp) cmd
    · rw [hr]
      have hleaf := cellsAll_nodeGet h.tables.2.1 (i := ch.toNat) (by
        intro hcc; rw [show nodeGet s.nodes ch.toNat = .leaf sym from hq] at hcc; cases hcc)
      rw [show nodeGet s.nodes ch.toNat = .leaf sym from hq] at hleaf
      simp only [nodeOk, Bool.and_eq_true, decide_eq_true_eq] at hleaf
      refine ⟨h.legal, h.data, h.buffer, h.tables, h.extent, ⟨h.pointers.1, h.pointers.1, ?_⟩, h.error, ?_, ?_⟩
      · show (sym.setWidth 64).toNat < _
        rw [BitVec.toNat_setWidth]; have := sym.isLt
        exact lt_of_le_of_lt (Nat.mod_le _ _) hleaf.2
      · intro hc
        have hc : s.mode = .encode := hc
        rw [hm] at hc
        cases hc
      · intro _
        refine ⟨?_, hroot, hroot, ?_, fun _ => rfl⟩
        · show (s.bitPos + 1#64).toNat ≤ s.total.toNat
          rw [hb1]; omega
        · show (s.eos || decide (s.bitPos + 1#64 = s.total)) = true ↔ s.bitPos + 1#64 = s.total
          rw [he]; simp
    · rw [hr]
      refine ⟨⟨by simp, by simp⟩, fun cmd => ?_⟩
      refine inv_raise_of (s := {s with draws := d, bitPos := s.bitPos + 1#64, cursor := ch.setWidth 64})
        h.legal h.data h.buffer h.tables h.extent ⟨h.pointers.1, ?_, h.pointers.2.2⟩ (by simp) (by simp) cmd
      show (ch.setWidth 64).toNat < _
      rw [hset]; exact hchlt
    · rw [hr]
      refine ⟨⟨h.legal, h.data, h.buffer, h.tables, h.extent, ⟨h.pointers.1, ?_, h.pointers.2.2⟩, h.error, ?_, ?_⟩,
        hm, he, rfl, hb1⟩
      · show (ch.setWidth 64).toNat < _
        rw [hset]; exact hchlt
      · intro hc
        have : s.mode = .encode := hc
        rw [hm] at this
        cases this
      · intro _
        have hx' : s.bitPos + 1#64 ≠ s.total := hx
        refine ⟨?_, ?_, hroot, ?_, fun hc => absurd hc hx'⟩
        · show (s.bitPos + 1#64).toNat ≤ s.total.toNat
          rw [hb1]; omega
        · show (nodeGet s.nodes (ch.setWidth 64).toNat).isInternal = true
          rw [hset, show nodeGet s.nodes ch.toNat = .internal l' r' from hq]; rfl
        · show s.eos = true ↔ s.bitPos + 1#64 = s.total
          rw [he]; simp [hx']

/-- The walk of a decode session keeps the invariant and is never stuck (R214). -/
theorem walk_good (fuel : Nat) {s : State} (h : Inv s) (hm : s.mode = .decode) (he : s.eos = false)
    (hf : fuel = s.total.toNat - s.bitPos.toNat) : GoodStep s (walkSymbol fuel s) := by
  induction fuel generalizing s with
  | zero =>
    exfalso
    obtain ⟨hle, hcur, hroot, heos, hbc⟩ := h.decode hm
    have : s.bitPos = s.total := BitVec.eq_of_toNat_eq (by omega)
    rw [heos.2 this] at he
    cases he
  | succ n ih =>
    rw [walkSymbol_succ]
    have hg := step1_good h hm he
    split <;> rename_i heq <;> rw [heq] at hg
    · rename_i s'
      obtain ⟨h1, h2, h3, h4, h5⟩ := hg
      have hg2 := ih h1 h2 h3 (by rw [h4, h5]; omega)
      have hnm := walk_ne_moved n s'
      generalize walkSymbol n s' = b at *
      cases b with
      | emitted t => exact hg2
      | moved t => exact absurd rfl (hnm t)
      | raised e t => exact hg2
      | stuck f => exact hg2
    · exact hg
    · exact hg
    · exact hg

end Sys2Proof.Machine
end

