-- ==== Sys2Proof/Laws/PerInstr.lean ====
section
/-! SUPPORT. Statements about the commands as syntax, one lemma per command. -/

/-- Family `MatchesTable` (30_encoding.md R93): the word of a well-formed command, under the mask of the command's
format, is the command's match value, its OPC. -/
def Sys2Proof.Laws.MatchesTable.Statement (i : Sys2Proof.Instr) : Prop :=
  i.wf = true → Sys2Proof.encode i &&& Sys2Proof.Machine.tableMask i.format = BitVec.ofNat 64 i.opc

namespace Sys2Proof.Laws.MatchesTable

theorem nop : Statement .nop := encode_masked

theorem reset : Statement .reset := encode_masked

theorem abort : Statement .abort := encode_masked

theorem clrTables : Statement .clrTables := encode_masked

theorem writeNode (node : Nat) : Statement (.writeNode node) := encode_masked

theorem setRoot (node : Nat) : Statement (.setRoot node) := encode_masked

theorem writeCode (sym len : Nat) : Statement (.writeCode sym len) := encode_masked

theorem bufWrite (index : Nat) : Statement (.bufWrite index) := encode_masked

theorem bufRead (index : Nat) : Statement (.bufRead index) := encode_masked

theorem setLength : Statement .setLength := encode_masked

theorem encInit : Statement .encInit := encode_masked

theorem encSym (sym : Nat) : Statement (.encSym sym) := encode_masked

theorem encBits (len : Nat) : Statement (.encBits len) := encode_masked

theorem encEnd : Statement .encEnd := encode_masked

theorem decInit : Statement .decInit := encode_masked

theorem decBit : Statement .decBit := encode_masked

theorem decSym : Statement .decSym := encode_masked

theorem decEnd : Statement .decEnd := encode_masked

end Sys2Proof.Laws.MatchesTable
end

