-- ==== Sys2Proof/Laws/Step.lean ====
section
/-! SUPPORT. What a step does, by who moves (70_reset_and_hazards.md R274), and what a host access does to the state. -/

namespace Sys2Proof.Machine

/-- The block's turn on a latched word. -/
theorem step_atBlock (w : Reg) (s : State) : step (atBlock w s) = blockTurn { s with pending := some w } := rfl

/-- The host's turn with `rst` low performs its next access. -/
theorem step_atHost (op : HostOp) (s : State) (h : s.rst = false) : step (atHost op s) = hostAccess op s := by
  show (if s.rst = true then _ else hostAccess op s) = _
  rw [h]; rfl

/-- The block executes the latched word and ends the command (R274). -/
theorem blockTurn_latched {s : State} {w : Reg} (h : s.rst = false) (hp : s.pending = some w) :
    blockTurn s = complete (executeWord w s) := by
  unfold blockTurn
  rw [h, hp]; rfl

/-- A word that decodes runs its command. -/
theorem executeWord_ok {s : State} {w : Reg} {i} (hd : decode w = .ok i) : executeWord w s = exec i s := by
  unfold executeWord; rw [hd]

/-- A word that is no command raises BAD_COMMAND, or is ignored in FAULT (30_encoding.md R96). -/
theorem executeWord_error {s : State} {w : Reg} {e} (hd : decode w = .error e) :
    executeWord w s = if s.mode = .fault then .next s else .next (raise .badCommand w s) := by
  unfold executeWord; rw [hd]

/-- An aligned 64-bit access inside the window is admitted (20_memory.md R64). -/
theorem admitAccess_ok {c : Params} {off : Nat} (h1 : off % 8 = 0) (h2 : off < 0x200) :
    admitAccess c (c.base + off) 8 = .ok off := by
  unfold admitAccess windowBytes
  rw [if_neg (by simp), if_neg (by omega), if_neg (by simp [h1])]
  simp

/-- A host read changes nothing but the draws (20_memory.md R62, R72). -/
theorem busRead_state (s : State) (off : Nat) : ∃ d, (busRead s off).2 = { s with draws := d } := by
  unfold busRead
  split
  · split
    · exact ⟨s.draws, rfl⟩
    · exact ⟨s.draws + 1, rfl⟩
  · split
    · exact ⟨s.draws, rfl⟩
    · exact ⟨s.draws + 1, rfl⟩

end Sys2Proof.Machine
end

