-- ==== Sys2Proof/Tests/Slice0.lean ====
section
/-! SUPPORT. Tests of the model. Every expected value is the spec's: 95_test_vectors.md (the vector or program is named)
or a word written out from 30_encoding.md R92 and R93. After them, for every statement with hypotheses, a state and
operands that meet them. -/

namespace Sys2Proof.Tests

open Sys2Proof Sys2Proof.Machine

/-! ### WellFormed refuses an operand that does not fit its field -/

theorem test_wf_refuses_writeNode : (Instr.writeNode (2 ^ 32)).wf = false := by decide
theorem test_wf_refuses_setRoot : (Instr.setRoot (2 ^ 32)).wf = false := by decide
theorem test_wf_refuses_writeCode_sym : (Instr.writeCode (2 ^ 16) 3).wf = false := by decide
theorem test_wf_refuses_writeCode_len : (Instr.writeCode 0x61 (2 ^ 32)).wf = false := by decide
theorem test_wf_refuses_bufWrite : (Instr.bufWrite (2 ^ 32)).wf = false := by decide
theorem test_wf_refuses_bufRead : (Instr.bufRead (2 ^ 32)).wf = false := by decide
theorem test_wf_refuses_encSym : (Instr.encSym (2 ^ 16)).wf = false := by decide
theorem test_wf_refuses_encBits : (Instr.encBits (2 ^ 16)).wf = false := by decide

/-! ### Decoding, by words of 95_test_vectors.md §1, §3 and §4 -/

theorem test_decode_nop : decode 0x1234567800000000#64 = .ok .nop := by rfl
theorem test_decode_reset : decode 0xABCD000000000001#64 = .ok .reset := by rfl
theorem test_decode_abort : decode 0xFFFFFFFFFFFFFF02#64 = .ok .abort := by rfl
theorem test_decode_clrTables : decode 0x0000000000000003#64 = .ok .clrTables := by rfl
theorem test_decode_writeNode : decode 0x0000000800000004#64 = .ok (.writeNode 8) := by rfl
theorem test_decode_setRoot : decode 0x000001FF00000005#64 = .ok (.setRoot 511) := by rfl
theorem test_decode_writeCode : decode 0x0000004600610006#64 = .ok (.writeCode 0x61 70) := by rfl
theorem test_decode_bufWrite : decode 0x00003FFF00000007#64 = .ok (.bufWrite 16383) := by rfl
theorem test_decode_bufRead : decode 0x0000400000000008#64 = .ok (.bufRead 16384) := by rfl
theorem test_decode_setLength : decode 0x0000000000000009#64 = .ok .setLength := by rfl
theorem test_decode_encInit : decode 0x0000000000000010#64 = .ok .encInit := by rfl
theorem test_decode_encSym : decode 0x0000000001000011#64 = .ok (.encSym 256) := by rfl
theorem test_decode_encBits : decode 0x0000000001010012#64 = .ok (.encBits 257) := by rfl
theorem test_decode_encEnd : decode 0x0000000000000013#64 = .ok .encEnd := by rfl
theorem test_decode_decInit : decode 0x0000000000000020#64 = .ok .decInit := by rfl
theorem test_decode_decBit : decode 0x0000000000000021#64 = .ok .decBit := by rfl
theorem test_decode_decSym : decode 0x0000000000000022#64 = .ok .decSym := by rfl
theorem test_decode_decEnd : decode 0x0000000000000023#64 = .ok .decEnd := by rfl

/-- V-X1, V-X4. -/
theorem test_decode_reserved_opcode :
    decode 0x0A#64 = .error .reservedOpcode ∧ decode 0xFF#64 = .error .reservedOpcode := ⟨by rfl, by rfl⟩

/-- V-T12, V-T23, V-T26, V-E32: one word of each format with such bits. -/
theorem test_decode_reserved_bits :
    decode 0x0000000000000104#64 = .error .reservedBits ∧ decode 0x0000000300610106#64 = .error .reservedBits ∧
    decode 0x0000000100000003#64 = .error .reservedBits ∧ decode 0x0000000100610011#64 = .error .reservedBits :=
  ⟨by rfl, by rfl, by rfl, by rfl⟩

/-- 95_test_vectors.md §1 and §3. -/
theorem test_encode_words :
    encode (.writeCode 0x61 3) = 0x0000000300610006#64 ∧ encode (.writeNode 5) = 0x0000000500000004#64 ∧
    encode (.encBits 100) = 0x640012#64 ∧ encode (.bufRead 1) = 0x0000000100000008#64 := by decide

/-- spec/opcode_table.json row ENC_SYM: the row's bits reach the decoder and the next step. -/
theorem test_table_word : decodeTableWord 64 0x610011 = some (.encSym 0x61) := by decide

/-! ### One step on a small state -/

def stateOf : Result → Option State
  | .next t => some t
  | .fault _ => none
  | .refused _ => none

/-- The state after the block executes the command word `w`. -/
def issue (w : Reg) (s : State) : Option State := stateOf (step (s.withFetchWord 64 w.toNat))

/-- STATUS, ERR_CMD and TOTAL after it. -/
def report (w : Reg) (s : State) : Option (Reg × Reg × Reg) :=
  (issue w s).map fun t => (statusWord t, t.errCmd, t.total)

/-- The tree of 95_test_vectors.md §1. -/
def tree : List (Nat × Node) :=
  [(0, .internal 1 2), (1, .internal 3 4), (2, .internal 5 6), (3, .leaf 0x64), (4, .leaf 0x62), (5, .internal 7 8),
    (6, .leaf 0x63), (7, .leaf 0x65), (8, .leaf 0x61)]

/-- The codes of 95_test_vectors.md §1 at W = 64. -/
def codes : List (Nat × CodeEntry) :=
  [(0x61, ⟨3, [0xA000000000000000, 0, 0, 0]⟩), (0x62, ⟨2, [0x4000000000000000, 0, 0, 0]⟩),
    (0x63, ⟨2, [0xC000000000000000, 0, 0, 0]⟩), (0x64, ⟨2, [0, 0, 0, 0]⟩), (0x65, ⟨3, [0x8000000000000000, 0, 0, 0]⟩)]

/-- "Tables loaded", in the reference configuration. -/
def loaded : State := { State.reset with nodes := tree, codes := codes }

/-- A state in ENCODE mode whose buffer holds the words `m` and `t` bits, at W = 64. -/
def encoding (m : Memory) (t : Nat) (n : Nat) : State :=
  { loaded with
    mode := .encode, buf := m, total := BitVec.ofNat 64 t, fill := BitVec.ofNat 64 (t % 64)
    wordCount := BitVec.ofNat 64 (t / 64 + 1), count := BitVec.ofNat 64 n }

/-- A state in DECODE mode after DEC_INIT, word 0 being `v` and TOTAL `t`, below 64. -/
def decoding (v : Word) (t : Nat) : State :=
  { loaded with mode := .decode, buf := [(0, v)], total := BitVec.ofNat 64 t, fill := BitVec.ofNat 64 t }

def data (a b c d : Reg) (s : State) : State := { s with data := [a, b, c, d] }

/-- V-C1. -/
theorem test_nop_reset : issue 0x1234567800000000#64 State.reset = some State.reset := by decide

/-- V-C4. -/
theorem test_nop_encode : (issue 0#64 (encoding [(0, 0xB6AABFFE01200000)] 45 20)) =
    some (encoding [(0, 0xB6AABFFE01200000)] 45 20) := by decide

/-- V-C2. -/
theorem test_reset_encode : issue 0xABCD000000000001#64 (encoding [(0, 0xA000000000000000)] 3 1) =
    some State.reset := by decide

/-- V-C5. -/
theorem test_reset_fault : issue 0x01#64 { State.reset with mode := .fault, err := .codeNotFound, errCmd := 0x7A0011 } =
    some State.reset := by decide

/-- V-C3. -/
theorem test_abort_fault : report 0xFFFFFFFFFFFFFF02#64
    { State.reset with mode := .fault, err := .wrongMode, errCmd := 0x610011 } = some (0, 0, 0) := by decide

/-- P6, the ABORT: the decoder's position is kept. -/
theorem test_abort_keeps_position : (issue 0x02#64 { decoding 0xB6AABFFE01200000 44 with
    mode := .fault, err := .truncatedCode, errCmd := 0x22, bitPos := 44, cursor := 5, count := 19, outSym := 0x65 }).map
      (fun t => (statusWord t, t.bitPos, t.cursor, t.count, t.outSym)) = some (0, 44, 5, 19, 0x65) := by decide

/-- V-T24. -/
theorem test_clrTables : issue 0x03#64 loaded = some State.reset := by decide

/-- V-T26. -/
theorem test_clrTables_reserved : report 0x0000000100000003#64 State.reset =
    some (0x906, 0x0000000100000003, 0) := by decide

/-- V-T9: both children at the last index. -/
theorem test_writeNode_internal : (issue 0x0000000500000004#64 (data 0x8000000001FF01FF 0 0 0 State.reset)).map
    (fun t => (statusWord t, t.nodes)) = some (0, [(5, .internal 511 511)]) := by decide

/-- V-T4: a symbol at 2^SYM_W. -/
theorem test_writeNode_symbol : report 0x0000000500000004#64 (data 0x4000010000000000 0 0 0 State.reset) =
    some (0x906, 0x0000000500000004, 0) := by decide

/-- V-T14. -/
theorem test_setRoot_last : (issue 0x000001FF00000005#64 State.reset).map (fun t => (statusWord t, t.root)) =
    some (0, 511) := by decide

/-- V-T15. -/
theorem test_setRoot_range : report 0x0000020000000005#64 State.reset =
    some (0x906, 0x0000020000000005, 0) := by decide

/-- V-T17: a code longer than W, its padding cleared. -/
theorem test_writeCode_padding : (issue 0x0000004600610006#64
    (data 0xFFFFFFFFFFFFFFFF 0xFFFFFFFFFFFFFFFF 0xFFFFFFFFFFFFFFFF 0xFFFFFFFFFFFFFFFF State.reset)).map (·.codes) =
      some [(0x61, ⟨70, [0xFFFFFFFFFFFFFFFF, 0xFC00000000000000, 0, 0]⟩)] := by decide

/-- V-T21: the symbol check comes before the zero-length check. -/
theorem test_writeCode_order : report 0x0000000001000006#64 State.reset = some (0x906, 0x0000000001000006, 0) := by
  decide

/-- V-B6: only DATA0[7:0], at W = 8. -/
theorem test_bufWrite_narrow : (issue 0x0000000300000007#64
    { State.resetWith { Params.reference with w := 8 } with data := [0x1AB] }).map (·.buf) = some [(3, 0xAB)] := by
  decide

/-- V-B2. -/
theorem test_bufWrite_range : report 0x0000400000000007#64 State.reset = some (0x906, 0x0000400000000007, 0) := by
  decide

/-- P3: BUF_READ 0. -/
theorem test_bufRead : (issue 0x0000000000000008#64 { State.reset with buf := [(0, 0x5555555555555555), (1, 0)] }).map
    (·.data) = some [0x5555555555555555, 0, 0, 0] := by decide

/-- V-B3. -/
theorem test_bufRead_range : report 0x0000400000000008#64 State.reset = some (0x906, 0x0000400000000008, 0) := by decide

/-- V-B12: the largest legal length. -/
theorem test_setLength_largest : (issue 0x09#64 (data 1048575 63 0 0 State.reset)).map
    (fun t => (t.total, t.fill, t.wordCount, t.blockCount)) = some (1048575, 63, 16384, 16) := by decide

/-- V-B11: FILL = W at a multiple of W is refused (90_conflicts.md C2). -/
theorem test_setLength_full : report 0x09#64 (data 64 64 0 0 State.reset) = some (0x806, 0x09, 0) := by decide

/-- V-E36. -/
theorem test_encInit_restarts : (issue 0x10#64 (encoding [(0, 0xA000000000000000)] 3 1)) =
    some (encoding [] 0 0) := by decide

/-- V-E31, the 32nd ENC_SYM: the code fills the word exactly and an empty word is pushed (R183, case 2). -/
theorem test_encSym_exact : (issue 0x620011#64 (encoding [(0, 0x5555555555555554)] 62 31)) =
    some (encoding [(0, 0x5555555555555555), (1, 0)] 64 32) := by decide

/-- V-E29: a symbol outside the alphabet has no code. -/
theorem test_encSym_no_code : report 0x1000011#64 (encoding [] 0 0) = some (0x206, 0x1000011, 0) := by decide

/-- V-E23: step 2 at fill 0 shifts by W and pushes 0 (00_scope.md R12). -/
theorem test_encBits_fill_zero :
    (issue 0x800012#64 (data 0x0123456789ABCDEF 0xFEDCBA9876543210 0 0 (encoding [] 0 0))).map
    (fun t => (t.buf, t.total, t.fill, t.wordCount)) =
      some ([(0, 0x0123456789ABCDEF), (1, 0xFEDCBA9876543210), (2, 0)], 128, 0, 3) := by decide

/-- V-E24: step 2 leaves the fill unchanged (90_conflicts.md C1). -/
theorem test_encBits_long : (issue 0x640012#64 (data 0xFFFFFFFFFFFFFFFF 0xFFFFFFFFFFFFFFFF 0xFFFFFFFFFFFFFFFF
    0xFFFFFFFFFFFFFFFF (encoding [(0, 0xB6AABFFE01200000)] 45 20))).map (fun t => (t.buf, t.total, t.fill, t.count)) =
      some ([(0, 0xB6AABFFE0127FFFF), (1, 0xFFFFFFFFFFFFFFFF), (2, 0xFFFF800000000000)], 145, 17, 21) := by decide

/-- V-E35. -/
theorem test_encEnd : issue 0x13#64 { State.reset with mode := .encode } = some State.reset := by decide

/-- V-E34. -/
theorem test_encEnd_idle : report 0x13#64 State.reset = some (0xA06, 0x13, 0) := by decide

/-- V-D1: TOTAL 0 is the end of the stream at once. -/
theorem test_decInit_empty : (issue 0x20#64 loaded).map (fun t => (statusWord t, t.bitPos, t.count)) =
    some (0x14, 0, 0) := by decide

/-- V-D3. -/
theorem test_decInit_leaf : report 0x20#64 { State.reset with nodes := [(0, .leaf 0x78)] } = some (0x506, 0x20, 0) := by
  decide

/-- V-D7: the last bit ends on a leaf. -/
theorem test_decBit_emits : (issue 0x21#64 { decoding 0x4000000000000000 2 with bitPos := 1, cursor := 1 }).map
    (fun t => (statusWord t, t.outSym, t.bitPos, t.cursor, t.count)) = some (0x1C, 0x62, 2, 0, 1) := by decide

/-- V-D5: the last bit ends on an internal node. -/
theorem test_decBit_truncated : (issue 0x21#64 (decoding 0x8000000000000000 1)).map
    (fun t => (statusWord t, t.errCmd, t.bitPos, t.cursor)) = some (0x306, 0x21, 1, 2) := by decide

/-- P2, the first DEC_SYM. -/
theorem test_decSym_first : (issue 0x22#64 (decoding 0xB6AABFFE01200000 45)).map
    (fun t => (statusWord t, t.outSym, t.bitPos, t.cursor, t.count)) = some (0xC, 0x61, 3, 0, 1) := by decide

/-- V-D13: the bit consumed before the failing one stays consumed. -/
theorem test_decSym_bad_tree : (issue 0x22#64 { decoding 0x4000000000000000 4 with
    nodes := nodeSet tree 3 .invalid, bitPos := 2, count := 1, outSym := 0x62 }).map
      (fun t => (statusWord t, t.errCmd, t.bitPos, t.cursor, t.outSym, t.count)) =
        some (0x606, 0x22, 3, 1, 0x62, 1) := by decide

/-- P2, the DEC_END. -/
theorem test_decEnd : (issue 0x23#64 { decoding 0xB6AABFFE01200000 45 with
    symValid := true, eos := true, bitPos := 45, outSym := 0x65, count := 20 }).map
      (fun t => (statusWord t, t.bitPos, t.outSym, t.count)) = some (0x18, 45, 0x65, 20) := by decide

/-- V-D11: DEC_END before EOS. -/
theorem test_decEnd_early : report 0x23#64 { decoding 0xA000000000000000 3 with bitPos := 1, cursor := 2 } =
    some (0, 0, 3) := by decide

/-- V-X4: in FAULT a reserved opcode is ignored. -/
theorem test_fault_ignores : report 0xFF#64 { State.reset with mode := .fault, err := .wrongMode, errCmd := 0x610011 } =
    some (0xA06, 0x610011, 0) := by decide

/-- V-X2: the reserved-bit check comes before the mode check. -/
theorem test_bits_before_mode : report 0x0000000100610011#64 State.reset = some (0x906, 0x0000000100610011, 0) := by
  decide

/-- V-X6, the write of DATA0 before the block's step: dropped, with OVR set and BUSY still 1. -/
theorem test_write_while_busy :
    (stateOf (step (atHost (.write 0x100 8 5) { State.reset with pending := some 0x10 }))).map
    (fun t => (statusWord t, t.data)) = some (0x21, [0, 0, 0, 0]) := by decide

/-- V-X9 and V-X10: STATUS while BUSY, and CFG_CODE_WORDS. -/
theorem test_host_reads :
    (stateOf (step (atHost (.read 0x48 8) { State.reset with pending := some 0x10 }))).map (·.responses) = some [1] ∧
    (stateOf (step (atHost (.read 0x30 8) State.reset))).map (·.responses) = some [4] := by decide

/-- 90_conflicts.md C1 at W = 8 (V-E5): an append of 16 bits at fill 3. -/
theorem test_append_conflict : (issue 0x100012#64 { State.resetWith { Params.reference with w := 8 } with
    mode := .encode, buf := [(0, 0xE0)], total := 3, fill := 3, count := 1, data := [0xCC, 0xAA] }).map
      (fun t => (t.buf, t.total, t.fill, t.wordCount)) = some ([(0, 0xF9), (1, 0x95), (2, 0x40)], 19, 3, 3) := by decide

/-- P1: LDNODE 0 and LDCODE 'a' expand to the accesses that the program lists (30_encoding.md R100). -/
theorem test_pseudo_instructions :
    hostLdInternal Params.reference 0 1 2 =
      [.write 0x100 8 0x8000000000010002, .write 0x40 8 0x0000000000000004, .wait] ∧
    hostLdCode Params.reference 0x61 [true, false, true] =
      [.write 0x100 8 0xA000000000000000, .write 0x108 8 0, .write 0x110 8 0, .write 0x118 8 0,
        .write 0x40 8 0x0000000300610006, .wait] := by decide

/-- 30_encoding.md R100: the parts of a node-entry word are ORed, also where an operand is wider than its field. -/
theorem test_pseudo_instructions_wide :
    hostLdInternal Params.reference 0 1 0x10000 =
      [.write 0x100 8 0x8000000000010000, .write 0x40 8 0x0000000000000004, .wait] ∧
    hostLdLeaf Params.reference 0 0x40000061 =
      [.write 0x100 8 0x4000006100000000, .write 0x40 8 0x0000000000000004, .wait] := by decide

/-! ### States that meet the statements' hypotheses

A small instance: W = 8, two storage blocks of one word, codes of at most 16 bits, the window at 0x200. -/

def small : Params :=
  { Params.reference with w := 8, arraySize := 1, numBlocks := 2, lMax := 16, base := 0x200 }

theorem legalOf {c : Params}
    (h : (1 ≤ c.w ∧ c.w ≤ 64) ∧ 1 ≤ c.arraySize ∧ 1 ≤ c.numBlocks ∧ c.capWords ≤ 2 ^ 32 ∧ (1 ≤ c.symW ∧ c.symW ≤ 16) ∧
      (3 ≤ c.maxNodes ∧ c.maxNodes ≤ 65536) ∧ 1 ≤ c.lMax ∧ c.codeWords ≤ 32 ∧ c.base % 512 = 0) : c.Legal :=
  ⟨h.1, h.2.1, h.2.2.1, h.2.2.2.1, h.2.2.2.2.1, h.2.2.2.2.2.1, h.2.2.2.2.2.2.1, h.2.2.2.2.2.2.2.1, h.2.2.2.2.2.2.2.2⟩

theorem small_legal : small.Legal := legalOf (by decide)

theorem invOf {s : State} (hc : s.cfg = small)
    (h : s.data.length = s.cfg.ndata ∧ BufferOk s ∧ TablesOk s ∧ ExtentOk s ∧ PointersOk s ∧ ErrorOk s ∧ EncodeOk s ∧
      DecodeOk s) : Inv s :=
  ⟨hc ▸ small_legal, h.1, h.2.1, h.2.2.1, h.2.2.2.1, h.2.2.2.2.1, h.2.2.2.2.2.1, h.2.2.2.2.2.2.1, h.2.2.2.2.2.2.2⟩

/-- In IDLE, the tree and the codes of 95_test_vectors.md §1 loaded. -/
def idle : State :=
  { State.resetWith small with
    nodes := tree
    codes := [(0x61, ⟨3, [0xA0, 0]⟩), (0x62, ⟨2, [0x40, 0]⟩), (0x63, ⟨2, [0xC0, 0]⟩), (0x64, ⟨2, [0, 0]⟩),
      (0x65, ⟨3, [0x80, 0]⟩)] }

/-- In ENCODE with 13 bits appended: a code of 2 bits just fits, one of 3 does not. -/
def enc : State :=
  { idle with
    mode := .encode, buf := [(0, 0xFF), (1, 0xF8)], total := 13, fill := 5, wordCount := 2, blockCount := 2, count := 2 }

/-- In DECODE after DEC_INIT, over the 15 bits of "aaabbb". -/
def dec : State :=
  { idle with mode := .decode, buf := [(0, 0xB6), (1, 0xAA)], total := 15, fill := 7, wordCount := 2, blockCount := 2 }

/-- In DECODE at the end of the stream. -/
def decEnded : State := { dec with bitPos := 15, eos := true, symValid := true, outSym := 0x62, count := 6 }

/-- In DECODE one bit before the end of a stream that ends inside a code. -/
def decCut : State := { dec with total := 14, fill := 6, bitPos := 13 }

/-- In DECODE before the code 00, whose leaf is gone. -/
def decTorn : State := { dec with nodes := nodeSet tree 3 .invalid, buf := [(1, 0x2A)], bitPos := 8 }

/-- In DECODE before a word that nothing has written. -/
def decBlank : State := { dec with buf := [(0, 0xB6)], bitPos := 8, cursor := 5 }

/-- In FAULT. -/
def failed : State := { idle with mode := .fault, err := .wrongMode, errCmd := 0x610011 }

theorem inv_idle : Inv idle := invOf rfl (by decide)
theorem inv_enc : Inv enc := invOf rfl (by decide)
theorem inv_dec : Inv dec := invOf rfl (by decide)
theorem inv_decEnded : Inv decEnded := invOf rfl (by decide)
theorem inv_decCut : Inv decCut := invOf rfl (by decide)
theorem inv_decTorn : Inv decTorn := invOf rfl (by decide)
theorem inv_decBlank : Inv decBlank := invOf rfl (by decide)
theorem inv_failed : Inv failed := invOf rfl (by decide)

/-- Every mode that a statement's hypothesis names, FAULT among them, at a state that meets the invariant. -/
theorem witness_modes : (idle.mode = .idle ∧ Inv idle) ∧ (enc.mode = .encode ∧ Inv enc) ∧
    (dec.mode = .decode ∧ Inv dec) ∧ (failed.mode = .fault ∧ Inv failed) ∧
    idle.rst = false ∧ idle.data.length = idle.cfg.ndata ∧ idle.cfg.Legal :=
  ⟨⟨rfl, inv_idle⟩, ⟨rfl, inv_enc⟩, ⟨rfl, inv_dec⟩, ⟨rfl, inv_failed⟩, rfl, by decide, small_legal⟩

theorem witness_DecodeOfEncode :
    (Instr.writeCode 0xFFFF 0xFFFFFFFF).wf = true ∧ (Instr.writeCode 0 0).wf = true ∧ (Instr.encSym 0xFFFF).wf = true ∧
    (Instr.encBits 0xFFFF).wf = true ∧ (Instr.writeNode 0xFFFFFFFF).wf = true ∧ (Instr.setRoot 0xFFFFFFFF).wf = true ∧
    (Instr.bufWrite 0xFFFFFFFF).wf = true ∧ (Instr.bufRead 0xFFFFFFFF).wf = true ∧ Instr.nop.wf = true := by decide

theorem witness_EncodeOfDecode :
    (decode 0xABCD000000000001#64 = .ok .reset ∧ Instr.reset.format = .z) ∧
    decode 0xFFFFFFFFFFFF0006#64 = .ok (.writeCode 0xFFFF 0xFFFFFFFF) ∧
    (Instr.writeCode 0xFFFF 0xFFFFFFFF).format ≠ .z := ⟨⟨by rfl, by decide⟩, by rfl, by decide⟩

/-- Both ends of the three ranges. -/
theorem witness_ReservedOpcodes : ∀ w ∈ [0x0A#64, 0x0F#64, 0x14#64, 0x1F#64, 0x24#64, 0xFF#64],
    reservedOpc (opcField w) := by
  intro w hw
  unfold reservedOpc
  fin_cases hw <;> decide

/-- Both ends of the must-be-zero bits of each format. -/
theorem witness_ReservedBits_n : ∀ w ∈ [0x103#64, 0x8000000000000023#64],
    opcField w ∈ [0x03, 0x09, 0x10, 0x13, 0x20, 0x21, 0x22, 0x23] ∧ w.extractLsb' 8 56 ≠ 0#56 := by
  intro w hw; fin_cases hw <;> decide

theorem witness_ReservedBits_a : ∀ w ∈ [0x100000011#64, 0x8000000000000012#64, 0x111#64, 0x8012#64],
    opcField w ∈ [0x11, 0x12] ∧ (w.extractLsb' 32 32 ≠ 0#32 ∨ w.extractLsb' 8 8 ≠ 0#8) := by
  intro w hw; fin_cases hw <;> decide

theorem witness_ReservedBits_b : ∀ w ∈ [0x104#64, 0x80000008#64],
    opcField w ∈ [0x04, 0x05, 0x07, 0x08] ∧ w.extractLsb' 8 24 ≠ 0#24 := by
  intro w hw; fin_cases hw <;> decide

theorem witness_ReservedBits_ab : ∀ w ∈ [0x106#64, 0x8006#64], opcField w = 0x06 ∧ w.extractLsb' 8 8 ≠ 0#8 := by
  intro w hw; fin_cases hw <;> decide

/-- The hypotheses of `RefusesBits`, for each OPC and mask it is stated of, at both ends of the mask's runs of bits. -/
theorem witness_RefusesBits_n : ∀ o ∈ [0x03#64, 0x09#64, 0x10#64, 0x13#64, 0x20#64, 0x21#64, 0x22#64, 0x23#64],
    ∀ b ∈ [0x100#64, 0x8000000000000000#64],
      opcField (o ||| b) = o.toNat ∧ (o ||| b) &&& 0xFFFFFFFFFFFFFF00#64 ≠ 0#64 := by
  intro o ho b hb; fin_cases ho <;> fin_cases hb <;> decide

theorem witness_RefusesBits_a : ∀ o ∈ [0x11#64, 0x12#64],
    ∀ b ∈ [0x100#64, 0x8000#64, 0x100000000#64, 0x8000000000000000#64],
      opcField (o ||| b) = o.toNat ∧ (o ||| b) &&& 0xFFFFFFFF0000FF00#64 ≠ 0#64 := by
  intro o ho b hb; fin_cases ho <;> fin_cases hb <;> decide

theorem witness_RefusesBits_b : ∀ o ∈ [0x04#64, 0x05#64, 0x07#64, 0x08#64], ∀ b ∈ [0x100#64, 0x80000000#64],
    opcField (o ||| b) = o.toNat ∧ (o ||| b) &&& 0x00000000FFFFFF00#64 ≠ 0#64 := by
  intro o ho b hb; fin_cases ho <;> fin_cases hb <;> decide

theorem witness_RefusesBits_ab : ∀ b ∈ [0x100#64, 0x8000#64],
    opcField (0x06#64 ||| b) = 0x06 ∧ (0x06#64 ||| b) &&& 0x000000000000FF00#64 ≠ 0#64 := by
  intro b hb; fin_cases hb <;> decide

/-- The state after a command, as the hypothesis `exec i s = .next t` names it. -/
def after (i : Instr) (s : State) : State := (stateOf (exec i s)).getD s

theorem next_after {i : Instr} {s : State} (h : (stateOf (exec i s)).isSome = true) : exec i s = .next (after i s) := by
  unfold after
  cases he : exec i s with
  | next t => rfl
  | fault f => rw [he] at h; cases h
  | refused r => rw [he] at h; cases h

/-- Each group of commands completes without error in a mode the matrix gives it. -/
theorem witness_ModeLegality :
    (∀ i ∈ [Instr.clrTables, .writeNode 8, .setRoot 0, .writeCode 0x61 3, .bufWrite 0, .setLength],
      exec i idle = .next (after i idle) ∧ (after i idle).mode ≠ .fault) ∧
    (∀ i ∈ [Instr.encSym 0x62, .encBits 1, .encEnd], exec i enc = .next (after i enc) ∧ (after i enc).mode ≠ .fault) ∧
    (∀ i ∈ [Instr.decBit, .decSym, .decEnd], exec i dec = .next (after i dec) ∧ (after i dec).mode ≠ .fault) ∧
    ∀ i ∈ [Instr.bufRead 0, .encInit, .decInit], ∀ s ∈ [idle, enc, dec],
      s.err ≠ .wrongMode ∧ exec i s = .next (after i s) ∧ (after i s).mode ≠ .fault := by
  refine ⟨?_, ?_, ?_, ?_⟩
  · intro i hi; fin_cases hi <;> exact ⟨next_after (by decide), by decide⟩
  · intro i hi; fin_cases hi <;> exact ⟨next_after (by decide), by decide⟩
  · intro i hi; fin_cases hi <;> exact ⟨next_after (by decide), by decide⟩
  · intro i hi s hs
    fin_cases hi <;> fin_cases hs <;> exact ⟨by decide, next_after (by decide), by decide⟩

theorem witness_StepRunsDecodedCommand :
    (idle.rst = false ∧ idle.turns = [] ∧ decode 0x10#64 = .ok .encInit) ∧
    exec .encInit { idle with pending := some 0x10#64 } = .next (after .encInit { idle with pending := some 0x10#64 }) ∧
    decodeTableWord 64 0x10 = some .encInit ∧ decode 0xFF#64 = .error .reservedOpcode :=
  ⟨⟨rfl, rfl, by rfl⟩, next_after (by decide), by decide, by rfl⟩

/-- W = 1, 8 and 64; the shift amounts 0, W - 1 and W. -/
theorem witness_BitOrderAndShifts :
    (Memory.read dec.buf (8 / dec.cfg.w) = some 0xAA ∧ Memory.read dec.buf (7 / dec.cfg.w) = some 0xB6) ∧
    ([0xA0#64, 0x80#64] : List Word)[8 / 8]? = some 0x80 ∧
    (∀ w ∈ [1, 8, 64], 1 ≤ w ∧ w ≤ 64 ∧ (1#64).toNat < 2 ^ w ∧ ∀ n ∈ [w, w + 1], w ≤ n) := by decide

/-- The first and the last bit of the first and the last byte. -/
theorem witness_ByteOrders : dec.cfg.Legal ∧ dec.cfg.w % 8 = 0 ∧ (∀ j ∈ [0, 7], j < 8) ∧
    Memory.read dec.buf (0 / (dec.cfg.w / 8)) = some 0xB6 ∧ Memory.read dec.buf (1 / (dec.cfg.w / 8)) = some 0xAA :=
  ⟨small_legal, by decide, by decide, by decide, by decide⟩

/-- The first and last register offset, CMD, the first and last DATA register and the unmapped offset behind it. -/
theorem witness_HostWriteEffect : idle.rst = false ∧
    (∀ off ∈ [0x000, 0x040, 0x100, 0x108, 0x110, 0x1F8], off % 8 = 0 ∧ off < 0x200) ∧
    (0x108 - 0x100) / 8 < idle.cfg.ndata ∧ ¬ (0x110 - 0x100) / 8 < idle.cfg.ndata := by decide

theorem witness_HostReadValue : idle.rst = false ∧
    (∀ off ∈ [0x000, 0x030, 0x038, 0x048, 0x050, 0x0C0, 0x0C8, 0x0F8, 0x100, 0x108, 0x110, 0x1F8], off % 8 = 0 ∧
      off < 0x200) := by
  decide

/-- A read of the last CFG register and of STATUS while a command is latched: both are defined. -/
theorem witness_HostReadValue_busy : { idle with pending := some 0x10#64 }.rst = false ∧
    { idle with pending := some 0x10#64 }.pending ≠ none ∧ ∀ off ∈ [0x030, 0x048], off = 0x48 ∨ off ≤ 0x30 :=
  ⟨rfl, by simp, by decide⟩

/-- A read of CMD, TOTAL, DATA[0] and the first and last unmapped offsets while a command is latched: each takes the
free value, whatever it is, and counts the draw. -/
theorem witness_HostReadValue_free : ∀ off ∈ [0x038, 0x040, 0x080, 0x100, 0x1F8],
    { idle with pending := some 0x10#64 }.rst = false ∧ off % 8 = 0 ∧ off < 0x200 ∧
    ¬ ({ idle with pending := some 0x10#64 }.pending = none ∨ off = 0x48 ∨ off ≤ 0x30) ∧
    ∃ t, step (atHost (.read (idle.cfg.base + off) 8) { idle with pending := some 0x10#64 }) = .next t ∧
      t.responses = [Config.freeValue 0] ∧ t.draws = 1 := by
  intro off h
  have hs : off % 8 = 0 ∧ off < 0x200 ∧ ¬ (off = 0x48 ∨ off ≤ 0x30) := by fin_cases h <;> decide
  have hb : busRead { idle with pending := some 0x10#64 } off = drawFree { idle with pending := some 0x10#64 } := by
    fin_cases h <;> rfl
  refine ⟨rfl, hs.1, hs.2.1, by simpa using hs.2.2, respond (drawFree { idle with pending := some 0x10#64 }).2
    (drawFree { idle with pending := some 0x10#64 }).1, ?_, rfl, rfl⟩
  rw [step_atHost _ _ rfl, ← hb]
  simp only [hostAccess]
  rw [show idle.cfg.base + off = { idle with pending := some 0x10#64 }.cfg.base + off from rfl,
    admitAccess_ok hs.1 hs.2.1]

/-- Each clause at the ends of its range; the window of `small` is 0x200 to 0x3FF. -/
theorem witness_HostAccessRefused :
    { idle with rst := true }.rst = true ∧ idle.rst = false ∧ (∀ bytes ∈ [7, 9], bytes ≠ 8) ∧
    (∀ addr ∈ [0x1FF, 0x400], addr < idle.cfg.base ∨ idle.cfg.base + 0x200 ≤ addr) ∧
    ∀ addr ∈ [0x201, 0x3FF], idle.cfg.base ≤ addr ∧ addr < idle.cfg.base + 0x200 ∧ (addr - idle.cfg.base) % 8 ≠ 0 := by
  decide

theorem witness_BusyProtectsBlock : { idle with pending := some 0x10#64 }.pending.isSome = true ∧
    ∃ t, step (atHost (.write 0x300 8 5) { idle with pending := some 0x10#64 }) = .next t ∧ t.ovr = true :=
  ⟨rfl, _, rfl, rfl⟩

theorem witness_ResetInputState : { idle with rst := true }.rst = true := rfl

/-- Both ends of the parameters' ranges. -/
theorem witness_InvAtReset : Params.reference.Legal ∧
    (⟨1, 1, 1, 1, 3, 1, 0⟩ : Params).Legal ∧ (⟨64, 2 ^ 16, 2 ^ 16, 16, 65536, 2048, 512⟩ : Params).Legal :=
  ⟨legalOf (by decide), legalOf (by decide), legalOf (by decide)⟩

theorem witness_StepKeepsInv : Inv { idle with pending := some 0x10#64 } ∧
    step { idle with pending := some 0x10#64 } = .next (after .encInit idle) := ⟨invOf rfl (by decide), rfl⟩

theorem witness_BufferInvariantsKept :
    Inv enc ∧ Packed enc ∧ exec (.encSym 0x62) enc = .next (after (.encSym 0x62) enc) ∧
    (after (.encSym 0x62) enc).mode = .encode ∧ exec .reset enc = .next (after .reset enc) ∧
    exec .setLength idle = .next (after .setLength idle) :=
  ⟨inv_enc, by decide, next_after (by decide), by decide, next_after (by decide), next_after (by decide)⟩

/-- A raise before any state change, and one inside the walk. -/
theorem witness_ErrorEntryFrame :
    (idle.mode ≠ .fault ∧ exec (.encSym 0x61) idle = .next (after (.encSym 0x61) idle) ∧
      (after (.encSym 0x61) idle).mode = .fault) ∧
    decCut.mode ≠ .fault ∧ exec .decBit decCut = .next (after .decBit decCut) ∧ (after .decBit decCut).mode = .fault :=
  ⟨⟨by decide, next_after (by decide), by decide⟩, by decide, next_after (by decide), by decide⟩

/-- A step that enters FAULT, and the three that leave it. -/
theorem witness_FaultEntryAndExit :
    (Inv { idle with pending := some 0x13#64 } ∧ ∃ t, step { idle with pending := some 0x13#64 } = .next t ∧
      t.mode = .fault) ∧
    (∀ w ∈ [0x01#64, 0x02#64], ∃ t, step { failed with pending := some w } = .next t ∧ t.mode ≠ .fault) ∧
    ∃ t, step { failed with turns := [.rst true] } = .next t ∧ t.mode ≠ .fault := by
  refine ⟨⟨invOf rfl (by decide), _, rfl, by decide⟩, ?_, _, rfl, by decide⟩
  intro w hw
  fin_cases hw <;> exact ⟨_, rfl, by decide⟩

theorem witness_FaultIgnoresCommands : failed.rst = false ∧ failed.mode = .fault ∧
    opcField 0x03#64 ∉ [0x00, 0x01, 0x02] ∧ opcField 0xFF#64 ∉ [0x00, 0x01, 0x02] ∧
    opcField 0x00#64 = 0x00 ∧ opcField 0x01#64 = 0x01 ∧ opcField 0x02#64 = 0x02 :=
  ⟨rfl, rfl, by decide, by decide, by decide, by decide, by decide⟩

/-- One command for each code of ERR that is raised. -/
theorem witness_ErrorCodeSources :
    (after (.encSym 0x7A) enc).err = .codeNotFound ∧ (after .decBit decCut).err = .truncatedCode ∧
    (after (.writeCode 0x61 0) idle).err = .zeroLengthCode ∧
    (after .decInit { idle with root := 3 }).err = .degenerateTree ∧
    (after .decSym decTorn).err = .badTree ∧ (after (.encSym 0x61) enc).err = .bufferOverflow ∧
    (after .setLength { idle with data := [9, 0] }).err = .lengthMismatch ∧
    (after (.setRoot 512) idle).err = .badCommand ∧ (after .encEnd idle).err = .wrongMode := by decide

/-- NOP, RESET and ABORT words with their upper bits set; the ends of the window. -/
theorem witness_NopRule : opcField 0xFFFFFFFFFFFFFF00#64 = 0x00 ∧ opcField 0xFFFFFFFFFFFFFF01#64 = 0x01 ∧
    opcField 0xFFFFFFFFFFFFFF02#64 = 0x02 ∧ idle.rst = false ∧
    ∀ addr ∈ [0x200, 0x3F8], idle.cfg.base ≤ addr ∧ addr < idle.cfg.base + 0x200 ∧ (addr - idle.cfg.base) % 8 = 0 := by
  decide

/-- ABORT leaves FAULT. -/
theorem witness_AbortRule : failed.mode = .fault ∧ exec .abort failed = .next (after .abort failed) ∧
    (after .abort failed).mode ≠ .fault := ⟨rfl, next_after (by decide), by decide⟩

/-- CLR_TABLES in IDLE, and an ENC_INIT after it. -/
theorem witness_ClrTablesRule : idle.mode = .idle ∧
    exec .encInit (after .clrTables idle) = .next (after .encInit (after .clrTables idle)) :=
  ⟨rfl, next_after (by decide)⟩

/-- SET_ROOT: the last node index and the first that does not exist; the last operand that fits. -/
theorem witness_SetRootRule : idle.mode = .idle ∧ 511 < idle.cfg.maxNodes ∧ idle.cfg.maxNodes ≤ 512 ∧
    2 ^ 32 - 1 < 2 ^ 32 := by decide

/-- Entry words of the three kinds that pass the check at the ends of the ranges, and one that fails each part. -/
theorem witness_WriteNodeRule : idle.mode = .idle ∧ 511 < idle.cfg.maxNodes ∧ idle.cfg.maxNodes ≤ 512 ∧
    (∀ e ∈ [0x0000000000000000#64, 0x4000000000000000#64, 0x400000FF00000000#64, 0x8000000000000000#64,
      0x8000000001FF01FF#64], e = dataGet { idle with data := [e, 0] } 0 ∧ nodeWordOk idle.cfg e = true) ∧
    ∀ e ∈ [0xC000000000000000#64, 0x4001006100000000#64, 0x4000006100000001#64, 0x4000010000000000#64,
      0x8000000002000001#64, 0x8000000000010200#64, 0x8000000100010002#64, 0x0000000000000001#64],
      nodeWordOk idle.cfg e = false := by
  refine ⟨rfl, by decide, by decide, ?_, ?_⟩ <;> intro e he <;> fin_cases he <;> decide

/-- WRITE_CODE: the last symbol and the first that does not exist; lengths 0, 1, L_MAX and L_MAX + 1. -/
theorem witness_WriteCodeRule : idle.mode = .idle ∧ idle.cfg.Legal ∧ idle.data.length = idle.cfg.ndata ∧
    2 ^ idle.cfg.symW ≤ 256 ∧ 255 < 2 ^ idle.cfg.symW ∧ 16 ≤ idle.cfg.lMax ∧ idle.cfg.lMax < 17 :=
  ⟨rfl, small_legal, by decide, by decide, by decide, by decide, by decide⟩

/-- BUF_WRITE: the last word and the first that does not exist. -/
theorem witness_BufWriteRule : idle.mode = .idle ∧ idle.cfg.Legal ∧ 1 < idle.cfg.capWords ∧ idle.cfg.capWords ≤ 2 :=
  ⟨rfl, small_legal, by decide, by decide⟩

/-- BUF_READ of a word that is written and of one that is not. -/
theorem witness_BufReadRule : idle.mode ≠ .fault ∧ failed.mode = .fault ∧ idle.cfg.capWords ≤ 2 ∧
    1 < idle.cfg.capWords ∧
    Memory.read idle.buf 0 = some 0 ∧ Memory.read idle.buf 1 = none := by decide

theorem witness_SetLengthRule : idle.mode = .idle := rfl

theorem witness_EncInitRule : enc.mode ≠ .fault ∧ enc.cfg.Legal := ⟨by decide, small_legal⟩

/-- ENC_SYM: the last symbol and the first outside the alphabet, a code that just fits, and one that does not. -/
theorem witness_EncSymRule : enc.mode = .encode ∧ Inv enc ∧ 2 ^ enc.cfg.symW ≤ 256 ∧ codeGet enc.codes 255 = none ∧
    (0x62 < 2 ^ enc.cfg.symW ∧ codeGet enc.codes 0x62 = some ⟨2, [0x40, 0]⟩ ∧
      (enc.total.toNat + 2) / enc.cfg.w + 1 ≤ enc.cfg.capWords) ∧
    codeGet enc.codes 0x61 = some ⟨3, [0xA0, 0]⟩ ∧ enc.cfg.capWords < (enc.total.toNat + 3) / enc.cfg.w + 1 :=
  ⟨rfl, inv_enc, by decide, by decide, by decide, by decide, by decide⟩

/-- ENC_BITS: lengths 0, 1, 2 (it just fits), 3, L_MAX and L_MAX + 1. -/
theorem witness_EncBitsRule : enc.mode = .encode ∧ Inv enc ∧ enc.cfg.lMax < 17 ∧
    (1 ≤ 2 ∧ 2 ≤ enc.cfg.lMax ∧ (enc.total.toNat + 2) / enc.cfg.w + 1 ≤ enc.cfg.capWords) ∧
    (3 ≤ enc.cfg.lMax ∧ enc.cfg.capWords < (enc.total.toNat + 3) / enc.cfg.w + 1) ∧
    16 ≤ enc.cfg.lMax ∧ enc.cfg.capWords < (enc.total.toNat + 16) / enc.cfg.w + 1 :=
  ⟨rfl, inv_enc, by decide, by decide, by decide, by decide, by decide⟩

theorem witness_EncEndRule : enc.mode = .encode := rfl

/-- DEC_INIT with the root INVALID, a LEAF and INTERNAL. -/
theorem witness_DecInitRule : idle.mode ≠ .fault ∧ nodeGet idle.nodes 9 = .invalid ∧ nodeGet idle.nodes 3 = .leaf 0x64 ∧
    nodeGet idle.nodes idle.root.toNat = .internal 1 2 := by decide

/-- DEC_BIT at the end of the stream; before an internal child, with bits left and at the last bit; before a leaf;
before an INVALID child; and before a word that nothing has written. -/
theorem witness_DecBitRule :
    (decEnded.mode = .decode ∧ Inv decEnded ∧ decEnded.eos = true) ∧
    (dec.mode = .decode ∧ Inv dec ∧ dec.eos = false ∧ nodeGet dec.nodes dec.cursor.toNat = .internal 1 2 ∧
      NextBit dec true 0 ∧ nodeGet dec.nodes 2 = .internal 5 6) ∧
    (Inv decCut ∧ NextBit decCut false 0 ∧ decCut.bitPos + 1#64 = decCut.total ∧
      nodeGet decCut.nodes 1 = .internal 3 4) ∧
    (Inv { decTorn with cursor := 1, bitPos := 9 } ∧ NextBit { decTorn with cursor := 1, bitPos := 9 } false 0 ∧
      nodeGet decTorn.nodes 1 = .internal 3 4 ∧ nodeGet decTorn.nodes 3 = .invalid ∧
        nodeGet decTorn.nodes 4 = .leaf 0x62) ∧
    Inv decBlank ∧ streamBit decBlank decBlank.bitPos.toNat = none ∧
      NextBit decBlank (bitOfWord 8 (wordOf 8 (Config.freeValue 0)) 8) 1 :=
  ⟨⟨rfl, inv_decEnded, rfl⟩, ⟨rfl, inv_dec, rfl, by decide, .inl (by decide), by decide⟩,
    ⟨inv_decCut, .inl (by decide), by decide, by decide⟩,
    ⟨invOf rfl (by decide), .inl (by decide), by decide, by decide, by decide⟩,
    inv_decBlank, by decide, .inr ⟨by decide, by decide, rfl⟩⟩

/-- DEC_SYM: a path to a leaf, the shortest stream that ends inside a code, and a path to an INVALID child. -/
theorem witness_DecSymRule :
    (decEnded.mode = .decode ∧ Inv decEnded ∧ decEnded.eos = true) ∧
    (dec.mode = .decode ∧ Inv dec ∧ dec.eos = false ∧ StreamHas dec dec.bitPos.toNat [true, false, true] ∧
      dec.bitPos.toNat + 3 ≤ dec.total.toNat ∧ LeafPath dec.nodes dec.cursor.toNat [true, false, true] 0x61) ∧
    (Inv decCut ∧ StreamHas decCut decCut.bitPos.toNat [false] ∧ decCut.bitPos.toNat + 1 = decCut.total.toNat ∧
      treeWalk decCut.nodes decCut.cursor.toNat [false] = some 1 ∧ nodeGet decCut.nodes 1 = .internal 3 4) ∧
    Inv decTorn ∧ StreamHas decTorn decTorn.bitPos.toNat [false] ∧ decTorn.bitPos.toNat + 1 < decTorn.total.toNat ∧
      treeWalk decTorn.nodes decTorn.cursor.toNat [false] = some 1 ∧ nodeGet decTorn.nodes 1 = .internal 3 4 ∧
      streamBit decTorn (decTorn.bitPos.toNat + 1) = some false ∧ nodeGet decTorn.nodes 3 = .invalid :=
  ⟨⟨rfl, inv_decEnded, rfl⟩,
    ⟨rfl, inv_dec, rfl, by unfold StreamHas; decide, by decide, by decide, 8, by decide, by decide⟩,
    ⟨inv_decCut, by unfold StreamHas; decide, by decide, by decide, by decide⟩,
    inv_decTorn, by unfold StreamHas; decide, by decide, by decide, by decide, by decide, by decide⟩

theorem witness_EncSymEqualsEncBits : Inv { enc with data := [0x40, 0] } ∧ enc.mode = .encode ∧
    codeGet enc.codes 0x62 = some ⟨2, [0x40, 0]⟩ ∧
    (∀ k, k < enc.cfg.codeWords → dataGet { enc with data := [0x40, 0] } k = ([0x40, 0] : List Word).getD k 0#64) ∧
    (enc.total.toNat + 2) / enc.cfg.w + 1 ≤ enc.cfg.capWords :=
  ⟨invOf rfl (by decide), rfl, by decide, by decide, by decide⟩

/-- The encode of "bbbb" from IDLE: 8 bits, a positive multiple of W. -/
theorem witness_EncodeAccounting : Inv idle ∧ idle.mode ≠ .fault ∧
    ∃ t, execAll (.encInit :: [0x62, 0x62, 0x62, 0x62].map .encSym) idle = .next t ∧ t.mode ≠ .fault ∧
      t.total.toNat ≠ 0 ∧ t.total.toNat % idle.cfg.w = 0 :=
  ⟨inv_idle, by decide, _, rfl, by decide, by decide, by decide⟩

/-- The encode of "ab", whose codes are their paths in the tree. -/
theorem witness_RoundTrip : Inv idle ∧ idle.mode ≠ .fault ∧ [0x61, 0x62] ≠ [] ∧
    (∀ sym ∈ [0x61, 0x62], CodeAgrees idle sym) ∧
    ∃ t, execAll (.encInit :: [0x61, 0x62].map .encSym) idle = .next t ∧ t.mode ≠ .fault := by
  refine ⟨inv_idle, by decide, by decide, ?_, _, rfl, by decide⟩
  intro sym hs
  fin_cases hs
  · exact ⟨⟨3, [0xA0, 0]⟩, by decide, by decide, 8, by decide, by decide⟩
  · exact ⟨⟨2, [0x40, 0]⟩, by decide, by decide, 4, by decide, by decide⟩

theorem witness_DecSymIsRepeatedDecBit : Inv dec ∧ dec.mode = .decode ∧ dec.eos = false ∧
    exec .decSym dec = .next (after .decSym dec) ∧ (after .decSym dec).symValid = true :=
  ⟨inv_dec, rfl, rfl, next_after (by decide), by decide⟩

/-- A DEC_SYM that emits, one at the end of the stream, and two that raise. -/
theorem witness_DecSymBounded :
    (Inv dec ∧ dec.mode = .decode ∧ dec.eos = false ∧ (after .decSym dec).mode ≠ .fault) ∧
    (Inv decEnded ∧ (after .decSym decEnded).mode ≠ .fault) ∧ (Inv decCut ∧ (after .decSym decCut).mode = .fault) ∧
    Inv decTorn ∧ (after .decSym decTorn).mode = .fault :=
  ⟨⟨inv_dec, rfl, rfl, by decide⟩, ⟨inv_decEnded, by decide⟩, ⟨inv_decCut, by decide⟩, inv_decTorn, by decide⟩

/-- A buffer with another padding bit, another word behind it, and the same 15 stream bits. -/
theorem witness_DecodeIgnoresPadding :
    (∀ j, j < dec.total.toNat → streamBit { dec with buf := [(0, 0xB6), (1, 0xAB), (2, 0x55)] } j = streamBit dec j) ∧
    ∀ i ∈ [Instr.decInit, .decBit, .decSym, .decEnd], exec i dec = .next (after i dec) := by
  refine ⟨by decide, ?_⟩
  intro i hi
  fin_cases hi <;> exact next_after (by decide)

theorem witness_SessionImmutability :
    (∀ i ∈ [Instr.encInit, .encSym 0x62, .encBits 2, .bufRead 1, .nop],
      enc.mode ≠ .idle ∧ i ≠ .reset ∧ exec i enc = .next (after i enc)) ∧
    ∀ i ∈ [Instr.decSym, .decEnd], dec.mode ≠ .idle ∧ i ≠ .reset ∧ exec i dec = .next (after i dec) := by
  constructor <;> intro i hi <;> fin_cases hi <;> exact ⟨by decide, by decide, next_after (by decide)⟩

/-- Commands that keep the flags, clear them, raise, emit, and end the stream. -/
theorem witness_FlagUpdates :
    (∀ i ∈ [Instr.bufRead 1, .decEnd, .decBit, .decSym, .encInit, .decInit, .abort, .reset],
      exec i decEnded = .next (after i decEnded) ∧ (after i decEnded).mode ≠ .fault) ∧
    ((after .encEnd decEnded).mode = .fault ∧ decEnded.mode ≠ .fault) ∧
    dec.mode = .decode ∧ exec .decSym dec = .next (after .decSym dec) ∧ (after .decSym dec).symValid = true := by
  refine ⟨?_, ⟨by decide, by decide⟩, rfl, next_after (by decide), by decide⟩
  intro i hi
  fin_cases hi <;> exact ⟨next_after (by decide), by decide⟩

theorem witness_RegisterWriters : Instr.encSym 0x62 ≠ .reset ∧
    exec (.encSym 0x62) enc = .next (after (.encSym 0x62) enc) :=
  ⟨by decide, next_after (by decide)⟩

theorem witness_ConfigurationConstant : step { idle with pending := some 0x01#64 } = .next (after .reset idle) := rfl

theorem witness_BlockCountRange : Inv enc ∧ enc.blockCount.toNat = enc.cfg.numBlocks := ⟨inv_enc, by decide⟩

/-- W = 1 and 64, with code words of W bits. -/
theorem witness_MaskCodeKeepsCode : (1 ≤ 1 ∧ 1 ≤ 64 ∧ ∀ v ∈ ([1, 0] : List Word), v.toNat < 2 ^ 1) ∧
    1 ≤ 64 ∧ 64 ≤ 64 ∧ ∀ v ∈ ([0xFFFFFFFFFFFFFFFF, 0] : List Word), v.toNat < 2 ^ 64 := by
  refine ⟨⟨by decide, by decide, ?_⟩, by decide, by decide, ?_⟩ <;> intro v hv <;> fin_cases hv <;> decide

theorem witness_IssueRunsCommand : idle.rst = false ∧ idle.turns = [] ∧ idle.pending = none ∧ Instr.encInit.wf = true ∧
    { idle with host := hostIssue idle.cfg .encInit ++ [HostOp.check] }.host =
      hostIssue idle.cfg .encInit ++ [HostOp.check] ∧
    exec .encInit { idle with pending := some (encode .encInit), host := [.wait, .check] } =
      .next (after .encInit { idle with pending := some (encode .encInit), host := [.wait, .check] }) :=
  ⟨rfl, rfl, rfl, rfl, rfl, next_after (by decide)⟩

end Sys2Proof.Tests
end

/-! PROOFS. Scope (00_scope.md R11 to R16): the shifts on W-bit words as arithmetic, the places of the stream and code
bits, and `mask_code` bit by bit. -/

namespace Sys2Proof.Machine

/-! ### W-bit words as numbers -/

/-- Truncating to W bits is the remainder modulo `2^W`. -/
theorem wordOf_toNat {w : Nat} (hw : w ≤ 64) (v : Reg) : (wordOf w v).toNat = v.toNat % 2 ^ w := by
  have hpos := Nat.two_pow_pos w
  have hle : 2 ^ w ≤ 2 ^ 64 := Nat.pow_le_pow_right (by decide) hw
  have hmask : (lowMask w).toNat = 2 ^ w - 1 := by
    rw [lowMask, BitVec.toNat_ofNat, Nat.mod_eq_of_lt (by omega)]
  rw [wordOf, BitVec.toNat_and, hmask, Nat.and_two_pow_sub_one_eq_mod]

/-- The two spellings of "a W-bit word". -/
theorem wordOf_eq_iff_lt {w : Nat} (hw : w ≤ 64) (v : Reg) : wordOf w v = v ↔ v.toNat < 2 ^ w := by
  rw [← BitVec.toNat_inj, wordOf_toNat hw, Nat.mod_eq_iff_lt (Nat.two_pow_pos w).ne']

theorem wordShr_toNat (x : Word) (n : Nat) : (wordShr x n).toNat = x.toNat / 2 ^ n := by
  rw [wordShr, BitVec.toNat_ushiftRight, Nat.shiftRight_eq_div_pow]

theorem wordShl_toNat {w : Nat} (hw : w ≤ 64) (x : Word) (n : Nat) :
    (wordShl w x n).toNat = x.toNat * 2 ^ n % 2 ^ w := by
  change (wordOf w (x <<< n)).toNat = _
  rw [wordOf_toNat hw, BitVec.toNat_shiftLeft, Nat.shiftLeft_eq, Nat.mod_mod_of_dvd _ (Nat.pow_dvd_pow 2 hw)]

/-! ### `mask_code`, bit by bit -/

theorem maskCode_wordOf {w : Nat} (hw : w ≤ 64) (len : Nat) {c : List Word} (hc : ∀ v ∈ c, wordOf w v = v) :
    ∀ v ∈ maskCode w len c, wordOf w v = v :=
  maskCodeFrom_wordOf hw len 0 hc

/-- Bit `r` of a word, from the top, after the mask that keeps its top `n` bits. -/
theorem and_hiMask_getLsbD {w n r : Nat} (hw : w ≤ 64) (hn : n ≤ w) (hr : r < w) (v : Word) :
    (v &&& hiMask w n).getLsbD (w - 1 - r) = (decide (r < n) && v.getLsbD (w - 1 - r)) := by
  have h : w - n ≤ w - 1 - r ∧ w - 1 - r < w ↔ r < n := by omega
  rw [BitVec.getLsbD_and, hiMask_getLsbD hw hn, decide_eq_decide.2 h, Bool.and_comm]

/-- R16: the three cases are a word that is kept whole, the word that `len` cuts, and a word that is cleared. -/
theorem codeBit_maskCode {w : Nat} (hw1 : 1 ≤ w) (hw : w ≤ 64) (len : Nat) (c : List Word) (k : Nat) :
    codeBit w (maskCode w len c) k = (decide (k < len) && codeBit w c k) := by
  have hk : k / w * w + k % w = k := Nat.div_add_mod' k w
  have hr : k % w < w := Nat.mod_lt k hw1
  have hnext : (k / w + 1) * w = k / w * w + w := Nat.succ_mul _ _
  unfold codeBit
  rw [maskCode_getD, hnext]
  split
  case isTrue hwhole =>
    have hlt : k < len := by omega
    simp [hlt]
  case isFalse hcut =>
    split
    case isTrue hpart =>
      have hlt : k % w < len - k / w * w ↔ k < len := by omega
      rw [and_hiMask_getLsbD hw (by omega) hr, decide_eq_decide.2 hlt]
    case isFalse hclear =>
      have hge : ¬ k < len := by omega
      simp [hge]

/-! ### The obligations -/

/-- Settles O59: the masked words stay W bits wide, and each code bit is read off the word of the masked code that
holds it. -/
theorem maskCodeKeepsCode : Obligations.MaskCodeKeepsCode := by
  intro w len c hw1 hw hc
  have hword : ∀ v ∈ c, wordOf w v = v := fun v hv => (wordOf_eq_iff_lt hw v).2 (hc v hv)
  exact ⟨maskCode_length w len c,
    fun v hv => (wordOf_eq_iff_lt hw v).1 (maskCode_wordOf hw len hword v hv),
    codeBit_maskCode hw1 hw len c⟩

/-- Settles O10: the bit places are those of `bitOfWord` and `codeBit`, and a shift by W or more leaves no bit of a
W-bit word. -/
theorem bitOrderAndShifts : Obligations.BitOrderAndShifts := by
  refine ⟨?streamBits, ?codeBits, ?shifts⟩
  case streamBits =>
    intro s j v hv
    rw [streamBit, hv, Option.map_some, bitOfWord_eq]
  case codeBits =>
    intro w k cs v hv
    rw [codeBit, List.getD_eq_getElem?_getD, hv, Option.getD_some]
  case shifts =>
    intro w n x _ hw hx
    have hword : wordOf w x = x := (wordOf_eq_iff_lt hw x).2 hx
    exact ⟨wordShr_toNat x n, wordShl_toNat hw x n, fun hn => ⟨wordShr_ge hw hword hn, wordShl_ge hw x hn⟩⟩

end Sys2Proof.Machine

/-! PROOFS. State (10_state.md): what a step and a host access can do, what each command leaves of the registers, and
the invariant of the block through every command and every step. -/

namespace Sys2Proof.Machine

/-! ### What a step can do -/

/-- What a host write can do to the state (20_memory.md R63). -/
theorem busWrite_cases (s : State) (off : Nat) (v : Reg) :
    busWrite s off v = setOvr s ∨ busWrite s off v = { s with pending := some v } ∨
      (∃ i, busWrite s off v = dataSet s i v) ∨ busWrite s off v = s := by
  unfold busWrite
  split
  · exact .inl rfl
  · split
    · exact .inr (.inl rfl)
    · exact .inr (.inr (.inl ⟨_, rfl⟩))
    · exact .inr (.inr (.inr rfl))

/-- What a host access leaves of the block: only OVR, the latch and the values of the DATA registers can change, with
the host's side and the draws. -/
theorem hostAccess_frame {op : HostOp} {s t : State} (h : hostAccess op s = .next t) :
    ∃ o p dt ho re d, dt.length = s.data.length ∧
      t = { s with ovr := o, pending := p, data := dt, host := ho, responses := re, draws := d } := by
  cases op with
  | read addr bytes =>
    simp only [hostAccess] at h
    split at h
    · rename_i off _
      obtain ⟨d, hd⟩ := busRead_state s off
      rw [hd] at h
      cases h
      exact ⟨_, _, s.data, _, _, _, rfl, rfl⟩
    · cases h
  | write addr bytes v =>
    simp only [hostAccess] at h
    split at h
    · rename_i off _
      cases h
      rcases busWrite_cases s off v with he | he | ⟨i, he⟩ | he <;> rw [he]
      · exact ⟨_, _, s.data, _, _, _, rfl, rfl⟩
      · exact ⟨_, _, s.data, _, _, _, rfl, rfl⟩
      · exact ⟨_, _, s.data.set i v, _, _, _, List.length_set, rfl⟩
      · exact ⟨_, _, s.data, _, _, _, rfl, rfl⟩
    · cases h
  | wait =>
    simp only [hostAccess] at h
    split at h <;> cases h
    · exact ⟨_, _, s.data, _, _, _, rfl, rfl⟩
    · exact ⟨_, _, s.data, _, _, _, rfl, rfl⟩
  | check =>
    simp only [hostAccess] at h
    split at h <;> cases h
    exact ⟨_, _, s.data, _, _, _, rfl, rfl⟩

/-- Everything the execution of a word that answers a next state can have done (30_encoding.md R96). -/
theorem executeWord_cases {w : Reg} {s t : State} (h : executeWord w s = .next t) :
    (s.mode = .fault ∧ t = s) ∨ (s.mode ≠ .fault ∧ t = raise .badCommand w s) ∨
      ∃ i, decode w = .ok i ∧ exec i s = .next t := by
  cases hd : decode w with
  | ok i => exact .inr (.inr ⟨i, rfl, by rwa [executeWord_ok hd] at h⟩)
  | error e =>
    rw [executeWord_error hd] at h
    split at h
    · cases h
      exact .inl ⟨‹_›, rfl⟩
    · cases h
      exact .inr (.inl ⟨‹_›, rfl⟩)

/-- A relation between the states before and after a move of the machine that every kind of move meets. -/
structure MoveClosed (R : State → State → Prop) : Prop where
  /-- The schedule advances. -/
  turns : ∀ s tu, R s { s with turns := tu }
  /-- The reset input acts on the block. -/
  reset : ∀ s l, R s { resetBlock s with rst := l }
  /-- The host's next access is taken off its program. -/
  host : ∀ s ho, R s { s with host := ho }
  access : ∀ op s t, hostAccess op s = .next t → R s t
  word : ∀ w s t, executeWord w s = .next t → R s (endCommand t)
  trans : ∀ s t u, R s t → R t u → R s u

section Moves

variable {R : State → State → Prop} (hR : MoveClosed R)
include hR

/-- A state that does not move is a move that leaves the schedule as it is. -/
theorem MoveClosed.refl (s : State) : R s s := hR.turns s s.turns

theorem MoveClosed.of_hostTurn {s t : State} (h : hostTurn s = .next t) : R s t := by
  unfold hostTurn at h
  split at h
  · cases h
    unfold holdReset
    split
    · exact hR.reset s s.rst
    · exact hR.refl s
  · split at h
    · cases h
    · exact hR.trans _ _ _ (hR.host s _) (hR.access _ _ _ h)

theorem MoveClosed.of_blockTurn {s t : State} (h : blockTurn s = .next t) : R s t := by
  unfold blockTurn at h
  split at h
  · cases h
    exact hR.reset s s.rst
  · split at h
    · cases h
      exact hR.refl s
    · obtain ⟨u, hu, rfl⟩ := complete_eq_next h
      exact hR.word _ _ _ hu

theorem MoveClosed.of_driveReset (l : Bool) (s : State) : R s (driveReset l s) := by
  unfold driveReset
  split
  · exact hR.reset s l
  · exact hR.refl s

/-- A relation that every kind of move meets holds between the two states of a step, whoever moves. -/
theorem MoveClosed.of_step {s t : State} (h : step s = .next t) : R s t := by
  unfold step takeTurn at h
  split at h
  · unfold defaultTurn at h
    split at h
    · exact hR.of_blockTurn h
    · exact hR.of_hostTurn h
  · exact hR.trans _ _ _ (hR.turns s _) (hR.of_hostTurn h)
  · exact hR.trans _ _ _ (hR.turns s _) (hR.of_blockTurn h)
  · cases h
    exact hR.trans _ _ _ (hR.turns s _) (hR.of_driveReset _ _)

end Moves

/-! ### The invariant: the shapes of a change -/

theorem maxNodes_pos {c : Params} (h : c.Legal) : 0 < c.maxNodes := by
  have := h.maxNodes
  omega

/-- In IDLE the invariant asks nothing of a session. -/
theorem inv_of_idle {s : State} (hm : s.mode = .idle) (hl : s.cfg.Legal) (hd : s.data.length = s.cfg.ndata)
    (hb : BufferOk s) (ht : TablesOk s) (hx : ExtentOk s) (hp : PointersOk s)
    (he : s.err = .noError ∧ s.errCmd = 0#64) : Inv s :=
  ⟨hl, hd, hb, ht, hx, hp, by simp [ErrorOk, he, hm], by simp [EncodeOk, hm], by simp [DecodeOk, hm]⟩

/-- In IDLE, ERR and ERR_CMD are 0. -/
theorem inv_error_idle {s : State} (h : Inv s) (hm : s.mode = .idle) : s.err = .noError ∧ s.errCmd = 0#64 :=
  inv_error_nofault h (by simp [hm])

/-- The invariant asks of the DATA registers only that there are NDATA of them, and nothing of OVR. -/
theorem inv_data_ovr {s : State} (h : Inv s) {dt : List Reg} (hd : dt.length = s.data.length) (o : Bool) :
    Inv { s with data := dt, ovr := o } :=
  ⟨h.legal, hd.trans h.data, h.buffer, h.tables, h.extent, h.pointers, h.error, h.encode, h.decode⟩

/-- Neither does it ask anything of what a host access changes besides. -/
theorem inv_hostAccess {op : HostOp} {s t : State} (h : Inv s) (ht : hostAccess op s = .next t) : Inv t := by
  obtain ⟨o, p, dt, ho, re, d, hd, rfl⟩ := hostAccess_frame ht
  exact inv_host (inv_data_ovr h hd o) s.rst ho s.turns re d p

/-! ### The invariant at reset -/

/-- The extent of an empty buffer: no bits, and the one word that is always there (R29). -/
theorem extentOk_empty {s : State} (hl : s.cfg.Legal) : ExtentOk (setExtent s 0 0 1) := by
  have h := extentOk_setExtent hl (t := 0) (by simpa using cap_pos hl)
  rwa [Nat.zero_mod, Nat.zero_div] at h

/-- After reset the buffer is empty, and its one word is in one storage block (R44). -/
theorem extentOk_resetWith {c : Params} (hl : c.Legal) : ExtentOk (State.resetWith c) := by
  have h := extentOk_empty (s := State.resetWith c) hl
  have hblock : ceilDiv 1 c.arraySize = 1 := by
    have := hl.arraySize
    unfold ceilDiv
    rw [Nat.add_sub_cancel_left, Nat.div_self this]
  simpa [ExtentOk, setExtent, State.resetWith, hblock] using h

theorem inv_resetWith {c : Params} (hl : c.Legal) : Inv (State.resetWith c) :=
  inv_of_idle rfl hl List.length_replicate ⟨rfl, rfl⟩ ⟨rfl, rfl, rfl, rfl⟩ (extentOk_resetWith hl)
    ⟨maxNodes_pos hl, maxNodes_pos hl, Nat.two_pow_pos _⟩ ⟨rfl, rfl⟩

theorem inv_resetBlock {s : State} (h : Inv s) : Inv (resetBlock s) :=
  inv_host (inv_resetWith h.legal) s.rst s.host s.turns s.responses s.draws none

/-- A buffer of one word that reads 0 is packed, whatever its FILL. -/
theorem packed_of_zero_word {s : State} (hn : s.wordCount = 1#64) (h0 : Memory.read s.buf 0 = some 0#64) :
    Packed s := by
  have hn1 : s.wordCount.toNat = 1 := by rw [hn]; rfl
  refine ⟨fun i hi => ?_, ?_⟩
  · obtain rfl : i = 0 := by omega
    simp [h0]
  · simp [hn1, h0]

/-- The reference configuration of 00_scope.md R8 is legal. -/
theorem reference_legal : Params.reference.Legal := by
  constructor <;> decide

/-! ### The invariant: the commands -/

theorem inv_clrTables {s : State} (h : Inv s) (hm : s.mode = .idle) :
    Inv { s with nodes := [], codes := [], root := 0#64 } :=
  inv_of_idle hm h.legal h.data h.buffer ⟨rfl, rfl, rfl, rfl⟩ h.extent
    ⟨maxNodes_pos h.legal, h.pointers.2⟩ (inv_error_idle (s := s) h hm)

/-- The tables, replaced in IDLE by tables in range. -/
theorem inv_tables {s : State} (h : Inv s) (hm : s.mode = .idle) {no : List (Nat × Node)} {co : List (Nat × CodeEntry)}
    (ht : TablesOk { s with nodes := no, codes := co }) : Inv { s with nodes := no, codes := co } :=
  inv_of_idle hm h.legal h.data h.buffer ht h.extent h.pointers (inv_error_idle (s := s) h hm)

theorem inv_writeNode {s : State} (h : Inv s) (hm : s.mode = .idle) {n : Nat} (hn : n < s.cfg.maxNodes) {e : Reg}
    (he : nodeWordOk s.cfg e = true) : Inv { s with nodes := nodeSet s.nodes n (nodeOfWord e) } := by
  obtain ⟨hwf, hall, hcodes⟩ := h.tables
  exact inv_tables h hm ⟨nodesWf_set hwf _ _, cellsAll_nodeSet hall fun _ => by simp [hn, nodeOfWord_ok he], hcodes⟩

/-- The code that a command takes from DATA is CODE_WORDS words of W bits, also after its mask. -/
theorem maskCode_dataCode {s : State} (h : Inv s) (len : Nat) :
    (maskCode s.cfg.w len (dataCode s)).length = s.cfg.codeWords ∧
      ∀ v ∈ maskCode s.cfg.w len (dataCode s), wordOf s.cfg.w v = v :=
  ⟨by rw [maskCode_length, dataCode_length h.data],
    maskCode_wordOf h.legal.w.2 len (dataCode_wordOf h.legal.w.2)⟩

theorem codeOk_maskCode {s : State} (h : Inv s) {len : Nat} (h1 : 1 ≤ len) (hmax : len ≤ s.cfg.lMax) :
    codeOk s.cfg ⟨len, maskCode s.cfg.w len (dataCode s)⟩ = true := by
  obtain ⟨hlen, hword⟩ := maskCode_dataCode h len
  simp only [codeOk, h1, hmax, hlen, maskCode_idem, decide_true, Bool.and_true, Bool.true_and, List.all_eq_true,
    decide_eq_true_eq]
  exact hword

theorem inv_writeCode {s : State} (h : Inv s) (hm : s.mode = .idle) {sym len : Nat} (hsym : sym < 2 ^ s.cfg.symW)
    (h1 : 1 ≤ len) (hmax : len ≤ s.cfg.lMax) :
    Inv { s with codes := codeSet s.codes sym ⟨len, maskCode s.cfg.w len (dataCode s)⟩ } := by
  obtain ⟨hwf, hall, hrise, hcodes⟩ := h.tables
  exact inv_tables h hm
    ⟨hwf, hall, cellsRising_set hrise _ _, cellsAll_set hcodes (by simp [hsym, codeOk_maskCode h h1 hmax])⟩

theorem inv_setRoot {s : State} (h : Inv s) (hm : s.mode = .idle) {n : Nat} (hn : n < s.cfg.maxNodes) :
    Inv { s with root := BitVec.ofNat 64 n } := by
  refine inv_of_idle hm h.legal h.data h.buffer h.tables h.extent ⟨?_, h.pointers.2⟩
    (inv_error_idle (s := s) h hm)
  exact lt_of_le_of_lt (BitVec.toNat_ofNat n 64 ▸ Nat.mod_le _ _) hn

theorem inv_bufWrite {s : State} (h : Inv s) (hm : s.mode = .idle) {n : Nat} (hn : n < s.cfg.capWords) (v : Word) :
    Inv (bufWrite s n v) :=
  inv_of_idle hm h.legal h.data (bufferOk_bufWrite h.legal.w.2 h.buffer hn v) h.tables h.extent h.pointers
    (inv_error_idle (s := s) h hm)

theorem inv_bufRead {s : State} (h : Inv s) (n : Nat) (v : Reg) : Inv (dataSet (bufRead s n).2 0 v) := by
  obtain ⟨d, hd⟩ := bufRead_state s n
  rw [hd]
  exact inv_host (inv_data_ovr h (List.length_set (i := 0) (a := v)) s.ovr) s.rst s.host s.turns s.responses d s.pending

/-- SET_LENGTH: `t` bits whose words fit the buffer (R27, R32). -/
theorem inv_setLength {s : State} (h : Inv s) (hm : s.mode = .idle) {t : Nat} (ht : t / s.cfg.w + 1 ≤ s.cfg.capWords) :
    Inv (setExtent s t (t % s.cfg.w) (t / s.cfg.w + 1)) :=
  inv_of_idle hm h.legal h.data h.buffer h.tables (extentOk_setExtent h.legal ht) h.pointers
    (inv_error_idle (s := s) h hm)

theorem inv_encInit {s : State} (h : Inv s) (hm : s.mode ≠ .fault) :
    Inv { startFlags false (setExtent (bufWrite s 0 0#64) 0 0 1) with count := 0#64, mode := .encode } := by
  have hb := bufferOk_bufWrite h.legal.w.2 h.buffer (i := 0) (cap_pos h.legal) 0#64
  have hx := extentOk_empty (s := bufWrite s 0 0#64) h.legal
  have he := inv_error_nofault h hm
  refine ⟨h.legal, h.data, hb, h.tables, hx, h.pointers, by simp [ErrorOk, he], fun _ => ⟨?_, rfl, rfl⟩, nofun⟩
  exact packed_of_zero_word rfl (by simp [wordOf_zero])

/-- ENC_SYM and ENC_BITS append a code that fits (43_encoder.md R184). -/
theorem inv_append {s : State} (h : Inv s) (hm : s.mode = .encode) {len : Nat} {c : List Word} (h1 : 1 ≤ len)
    (hmax : len ≤ s.cfg.lMax) (hlen : c.length = s.cfg.codeWords) (hc : ∀ x ∈ c, wordOf s.cfg.w x = x)
    (hfit : fits s len = true) : Inv (countUp (append s len c)) := by
  have hin := trailingAfter_lt_cap h.legal h.extent h1 hfit
  have hle : codeLength s.cfg.w len ≤ c.length := hlen ▸ codeLength_mono hmax
  exact inv_appendCode (i := .encBits len) h hm h1 hc hle (by simp [appendCode, hfit, hin])

/-- A stored code has what an append asks of it (R36). -/
theorem inv_encSym {s : State} (h : Inv s) (hm : s.mode = .encode) {sym : Nat} {e : CodeEntry}
    (hget : codeGet s.codes sym = some e) (hfit : fits s e.len = true) : Inv (countUp (append s e.len e.words)) := by
  obtain ⟨-, -, -, hcodes⟩ := h.tables
  have hok := cellsAll_get hcodes hget
  simp only [codeOk, Bool.and_eq_true, decide_eq_true_eq, List.all_eq_true] at hok
  obtain ⟨-, ⟨⟨⟨h1, hmax⟩, hlen⟩, hword⟩, -⟩ := hok
  exact inv_append h hm h1 hmax hlen hword hfit

theorem inv_encBits {s : State} (h : Inv s) (hm : s.mode = .encode) {len : Nat} (h1 : 1 ≤ len) (hmax : len ≤ s.cfg.lMax)
    (hfit : fits s len = true) : Inv (countUp (append s len (maskCode s.cfg.w len (dataCode s)))) := by
  obtain ⟨hlen, hword⟩ := maskCode_dataCode h len
  exact inv_append h hm h1 hmax hlen hword hfit

/-- ENC_END and DEC_END. -/
theorem inv_endSession {s : State} (h : Inv s) (hm : s.mode ≠ .fault) : Inv { s with mode := .idle } :=
  inv_of_idle rfl h.legal h.data h.buffer h.tables h.extent h.pointers (inv_error_nofault (s := s) h hm)

theorem inv_abort {s : State} (h : Inv s) : Inv (clearError s) :=
  inv_of_idle rfl h.legal h.data h.buffer h.tables h.extent h.pointers ⟨rfl, rfl⟩

/-- DEC_INIT puts the cursor on an INTERNAL root at bit 0, which is the end only of an empty stream (R45). -/
theorem inv_decInit {s : State} (h : Inv s) (hm : s.mode ≠ .fault) (hroot : (nodeAt s s.root).isInternal = true) :
    Inv { startFlags (decide (s.total = 0#64)) s with
      cursor := s.root, bitPos := 0#64, count := 0#64, mode := .decode } := by
  have he := inv_error_nofault h hm
  refine ⟨h.legal, h.data, h.buffer, h.tables, h.extent, ⟨h.pointers.1, h.pointers.1, h.pointers.2.2⟩,
    by simp [ErrorOk, he], nofun, fun _ => ⟨Nat.zero_le _, hroot, hroot, ?_, fun _ => rfl⟩⟩
  rw [startFlags_eos, decide_eq_true_iff, startFlags_total]
  exact eq_comm

/-- A bit step that ended well keeps the invariant. -/
theorem GoodStep.inv {s t : State} {b : BitStep} (h : GoodStep s b) (hb : b = .emitted t ∨ b = .moved t) : Inv t := by
  rcases hb with rfl | rfl
  · exact h
  · exact h.1

/-- The session's first bit step, from a state with SYM_VALID cleared. -/
theorem step1_clear_good {s : State} (h : Inv s) (hm : s.mode = .decode) (he : s.eos = false) :
    GoodStep (clearSymValid s) (step1 (clearSymValid s)) := step1_good (inv_clear h) hm he

theorem walk_clear_good {s : State} (h : Inv s) (hm : s.mode = .decode) (he : s.eos = false) :
    GoodStep (clearSymValid s) (walkSymbol (s.total.toNat - s.bitPos.toNat) (clearSymValid s)) :=
  walk_good _ (inv_clear h) hm he rfl

/-- The effect of every command keeps the invariant. -/
theorem inv_effect {s t : State} {i : Instr} (h : Inv s) (hf : s.mode = .fault → i.format = .z) (he : Effect s t i) :
    Inv t := by
  have hlive : i.format ≠ .z → s.mode ≠ .fault := fun hz hm => hz (hf hm)
  cases i with
  | nop => subst he; exact h
  | reset => subst he; exact inv_resetBlock h
  | abort => subst he; exact inv_abort h
  | clrTables => obtain ⟨hm, rfl⟩ := he; exact inv_clrTables h hm
  | writeNode n => obtain ⟨hm, hn, hok, rfl⟩ := he; exact inv_writeNode h hm hn hok
  | setRoot n => obtain ⟨hm, hn, rfl⟩ := he; exact inv_setRoot h hm hn
  | writeCode sym len => obtain ⟨hm, hsym, h1, hmax, rfl⟩ := he; exact inv_writeCode h hm hsym h1 hmax
  | bufWrite n => obtain ⟨hm, hn, rfl⟩ := he; exact inv_bufWrite h hm hn _
  | bufRead n => obtain ⟨-, rfl⟩ := he; exact inv_bufRead h n _
  | setLength => obtain ⟨hm, rfl, hcap, hfill⟩ := he; rw [hfill]; exact inv_setLength h hm hcap
  | encInit => subst he; exact inv_encInit h (hlive nofun)
  | encSym sym => obtain ⟨hm, -, e, hget, hfit, rfl⟩ := he; exact inv_encSym h hm hget hfit
  | encBits len => obtain ⟨hm, h1, hmax, hfit, rfl⟩ := he; exact inv_encBits h hm h1 hmax hfit
  | encEnd => obtain ⟨hm, rfl⟩ := he; exact inv_endSession h (hlive nofun)
  | decInit => obtain ⟨l, r, hroot, rfl⟩ := he; exact inv_decInit h (hlive nofun) (by rw [hroot]; rfl)
  | decBit =>
    obtain ⟨hm, ⟨-, rfl⟩ | ⟨heos, hb⟩⟩ := he
    · exact inv_clear h
    · exact (step1_clear_good h hm heos).inv hb
  | decSym =>
    obtain ⟨hm, ⟨-, rfl⟩ | ⟨heos, hb⟩⟩ := he
    · exact inv_clear h
    · exact (walk_clear_good h hm heos).inv (.inl hb)
  | decEnd => obtain ⟨hm, rfl⟩ := he; exact inv_endSession h (hlive nofun)

/-- A command's own error keeps the invariant, also after the bits a decode consumed (60_exceptions.md R247). -/
theorem inv_raises {s u : State} {e : ErrCode} {i : Instr} (h : Inv s) (hr : Raises s e u i) (w : Reg) :
    Inv (raise e w u) := by
  obtain ⟨hne, hne', -, rfl | ⟨rfl | rfl, -⟩⟩ := raises_frame hr
  · exact inv_raise h hne hne' w
  · obtain ⟨-, hm, heos, hb⟩ := hr
    have hg := step1_clear_good h hm heos
    rw [hb] at hg
    exact hg.2 w
  · obtain ⟨-, hm, heos, hb⟩ := hr
    have hg := walk_clear_good h hm heos
    rw [hb] at hg
    exact hg.2 w

/-- Every command keeps the invariant. -/
theorem inv_exec {s t : State} {i : Instr} (h : Inv s) (he : exec i s = .next t) : Inv t := by
  rcases exec_cases he with ⟨-, rfl, -⟩ | ⟨-, -, rfl⟩ | ⟨-, -, e, u, hr, rfl⟩ | ⟨-, hf, heff⟩
  · exact h
  · exact inv_raise h (by simp) (by simp) _
  · exact inv_raises h hr _
  · exact inv_effect h hf heff

theorem inv_executeWord {s t : State} {w : Reg} (h : Inv s) (he : executeWord w s = .next t) : Inv t := by
  rcases executeWord_cases he with ⟨-, rfl⟩ | ⟨-, rfl⟩ | ⟨i, -, hi⟩
  · exact h
  · exact inv_raise h (by simp) (by simp) w
  · exact inv_exec h hi

/-- Every kind of move keeps the invariant. -/
theorem inv_moveClosed : MoveClosed fun s t => Inv s → Inv t where
  turns s tu h := inv_host h s.rst s.host tu s.responses s.draws s.pending
  reset s l h := inv_host (inv_resetBlock h) l s.host s.turns s.responses s.draws none
  host s ho h := inv_host h s.rst ho s.turns s.responses s.draws s.pending
  access _ _ _ ht h := inv_hostAccess h ht
  word _ _ t ht h := inv_host (inv_executeWord h ht) t.rst t.host t.turns t.responses t.draws none
  trans _ _ _ hst htu h := htu (hst h)

/-- Settles O21: the invariant is kept by every command (`inv_effect`, `inv_raises`) and by every other kind of move. -/
theorem stepKeepsInv : Obligations.StepKeepsInv :=
  fun _ _ h ht => inv_moveClosed.of_step ht h

/-! ### What the appends and the bit steps leave -/

/-- The effect of ENC_SYM and ENC_BITS: the buffer, its extent, COUNT and the draws. -/
theorem effect_append {s t : State} {i : Instr} (h : Effect s t i)
    (hi : (∃ sym, i = .encSym sym) ∨ ∃ len, i = .encBits len) :
    s.mode = .encode ∧ ∃ m d n f w b, t =
      { s with
        buf := m, draws := d, total := n, fill := f, wordCount := w, blockCount := b, count := s.count + 1#64 } := by
  rcases hi with ⟨sym, rfl⟩ | ⟨len, rfl⟩
  · obtain ⟨hm, -, e, -, -, rfl⟩ := h
    obtain ⟨m, d, n, f, w, b, hf⟩ := append_frame s e.len e.words
    exact ⟨hm, m, d, n, f, w, b, by rw [hf]; rfl⟩
  · obtain ⟨hm, -, -, -, rfl⟩ := h
    obtain ⟨m, d, n, f, w, b, hf⟩ := append_frame s len (maskCode s.cfg.w len (dataCode s))
    exact ⟨hm, m, d, n, f, w, b, by rw [hf]; rfl⟩

/-- What a decode command that raised nothing leaves: either no symbol, or one symbol more, with EOS where the stream
ends on it (R43, 44_decoder.md R211). -/
def DecodeFrame (s t : State) : Prop :=
  (∃ p c d, t = { s with bitPos := p, cursor := c, draws := d, symValid := false }) ∨
  ∃ p o e d, t =
    { s with
      bitPos := p, outSym := o, eos := e, draws := d, symValid := true, cursor := s.root, count := s.count + 1#64 } ∧
    (e = s.eos ∨ e = true ∧ p = s.total)

theorem StepFrame.decodeFrame {s t : State} {b : BitStep} (h : StepFrame (clearSymValid s) b)
    (hb : b = .emitted t ∨ b = .moved t) : DecodeFrame s t := by
  rcases hb with rfl | rfl
  · obtain ⟨p, o, e, d, rfl, he⟩ := h
    exact .inr ⟨p, o, e, d, rfl, he⟩
  · obtain ⟨p, c, d, rfl⟩ := h
    exact .inl ⟨p, c, d, rfl⟩

/-- The effect of DEC_BIT and DEC_SYM. -/
theorem effect_decode {s t : State} {i : Instr} (h : Effect s t i) (hi : i = .decBit ∨ i = .decSym) :
    DecodeFrame s t := by
  rcases hi with rfl | rfl
  · obtain ⟨-, ⟨-, rfl⟩ | ⟨-, hb⟩⟩ := h
    · exact .inl ⟨_, _, _, rfl⟩
    · exact (step1_frame _).decodeFrame hb
  · obtain ⟨-, ⟨-, rfl⟩ | ⟨-, hb⟩⟩ := h
    · exact .inl ⟨_, _, _, rfl⟩
    · exact (walk_frame _ _).decodeFrame (.inl hb)

/-- The state `u` in which command `i`, started in `s`, raises: `s`, but for the bits that a decode consumed before its
error (60_exceptions.md R247). -/
def RaisedFrom (i : Instr) (s u : State) : Prop :=
  u = s ∨ (i = .decBit ∨ i = .decSym) ∧ ∃ p c d, u = { s with bitPos := p, cursor := c, draws := d, symValid := false }

theorem raises_raisedFrom {s u : State} {e : ErrCode} {i : Instr} (h : Raises s e u i) : RaisedFrom i s u := by
  obtain ⟨-, -, -, hu⟩ := raises_frame h
  exact hu

/-! ### Which commands write which registers -/

/-- What command `i` other than RESET leaves of each register (R25 to R41): unchanged, or `i` is one of its writers. -/
structure RegisterFrame (i : Instr) (s t : State) : Prop where
  data : t.data = s.data ∨ ∃ n, i = .bufRead n ∧ ∃ v, t.data = s.data.set 0 v
  extent : t.total = s.total ∧ t.fill = s.fill ∧ t.wordCount = s.wordCount ∧ t.blockCount = s.blockCount ∨
    i = .setLength ∨ i = .encInit ∨ (∃ sym, i = .encSym sym) ∨ ∃ len, i = .encBits len
  root : t.root = s.root ∨ i = .clrTables ∨ ∃ n, i = .setRoot n
  position : t.cursor = s.cursor ∧ t.bitPos = s.bitPos ∨ i = .decInit ∨ i = .decBit ∨ i = .decSym
  outSym : t.outSym = s.outSym ∨ i = .decBit ∨ i = .decSym
  count : t.count = s.count ∨ t.count = s.count + 1#64 ∨ t.count = 0#64 ∧ (i = .encInit ∨ i = .decInit)
  nodes : t.nodes = s.nodes ∨ i = .clrTables ∨ ∃ n, i = .writeNode n
  codes : t.codes = s.codes ∨ i = .clrTables ∨ ∃ sym len, i = .writeCode sym len
  cfg : t.cfg = s.cfg
  outside : t.pending = s.pending ∧ t.rst = s.rst ∧ t.host = s.host ∧ t.turns = s.turns ∧ t.responses = s.responses

theorem RegisterFrame.refl (i : Instr) (s : State) : RegisterFrame i s s := by
  constructor <;> simp

theorem RegisterFrame.raise {i : Instr} {s u : State} (hu : RaisedFrom i s u) (e : ErrCode) (w : Reg) :
    RegisterFrame i s (raise e w u) := by
  rcases hu with rfl | ⟨hi, p, c, d, rfl⟩
  · constructor <;> simp
  · constructor <;> simp [hi]

theorem DecodeFrame.registerFrame {s t : State} {i : Instr} (h : DecodeFrame s t) (hi : i = .decBit ∨ i = .decSym) :
    RegisterFrame i s t := by
  rcases h with ⟨p, c, d, rfl⟩ | ⟨p, o, e, d, rfl, -⟩ <;> constructor <;> simp [hi]

theorem effect_append_registerFrame {s t : State} {i : Instr} (h : Effect s t i)
    (hi : (∃ sym, i = .encSym sym) ∨ ∃ len, i = .encBits len) : RegisterFrame i s t := by
  obtain ⟨-, m, d, n, f, w, b, rfl⟩ := effect_append h hi
  constructor <;> simp [hi]

theorem effect_registerFrame {s t : State} {i : Instr} (hi : i ≠ .reset) (h : Effect s t i) : RegisterFrame i s t := by
  cases i with
  | nop => subst h; exact .refl _ _
  | reset => exact absurd rfl hi
  | abort => subst h; constructor <;> simp
  | clrTables => obtain ⟨-, rfl⟩ := h; constructor <;> simp
  | writeNode n => obtain ⟨-, -, -, rfl⟩ := h; constructor <;> simp
  | setRoot n => obtain ⟨-, -, rfl⟩ := h; constructor <;> simp
  | writeCode sym len => obtain ⟨-, -, -, -, rfl⟩ := h; constructor <;> simp
  | bufWrite n => obtain ⟨-, -, rfl⟩ := h; constructor <;> simp
  | bufRead n =>
    obtain ⟨-, rfl⟩ := h
    constructor
    case data => exact .inr ⟨n, rfl, _, by rw [dataSet_data, bufRead_data]⟩
    all_goals simp
  | setLength => obtain ⟨-, rfl, -⟩ := h; constructor <;> simp
  | encInit => subst h; constructor <;> simp
  | encSym sym => exact effect_append_registerFrame h (.inl ⟨sym, rfl⟩)
  | encBits len => exact effect_append_registerFrame h (.inr ⟨len, rfl⟩)
  | encEnd => obtain ⟨-, rfl⟩ := h; constructor <;> simp
  | decInit => obtain ⟨l, r, -, rfl⟩ := h; constructor <;> simp
  | decBit => exact (effect_decode h (.inl rfl)).registerFrame (.inl rfl)
  | decSym => exact (effect_decode h (.inr rfl)).registerFrame (.inr rfl)
  | decEnd => obtain ⟨-, rfl⟩ := h; constructor <;> simp

theorem exec_registerFrame {s t : State} {i : Instr} (hi : i ≠ .reset) (h : exec i s = .next t) :
    RegisterFrame i s t := by
  rcases exec_cases h with ⟨-, rfl, -⟩ | ⟨-, -, rfl⟩ | ⟨-, -, e, u, hr, rfl⟩ | ⟨-, -, heff⟩
  · exact .refl _ _
  · exact .raise (.inl rfl) _ _
  · exact .raise (raises_raisedFrom hr) _ _
  · exact effect_registerFrame hi heff

/-- Settles O56: the frame of an error and the frame of each command's effect. -/
theorem registerWriters : Obligations.RegisterWriters := by
  intro s t i hi h
  obtain ⟨hdata, hext, hroot, hpos, hout, hcount, hnodes, hcodes, hcfg, hside⟩ := exec_registerFrame hi h
  exact ⟨hdata, hext, hroot, hpos, hout, hcount, hnodes, hcodes, hcfg, hside⟩

/-! ### The configuration -/

/-- No command changes a parameter, RESET included (R21). -/
theorem exec_cfg {s t : State} {i : Instr} (h : exec i s = .next t) : t.cfg = s.cfg := by
  by_cases hi : i = .reset
  · subst hi
    cases h
    rfl
  · exact (exec_registerFrame hi h).cfg

theorem executeWord_cfg {s t : State} {w : Reg} (h : executeWord w s = .next t) : t.cfg = s.cfg := by
  rcases executeWord_cases h with ⟨-, rfl⟩ | ⟨-, rfl⟩ | ⟨i, -, hi⟩
  · rfl
  · rfl
  · exact exec_cfg hi

theorem hostAccess_cfg {s t : State} {op : HostOp} (h : hostAccess op s = .next t) : t.cfg = s.cfg := by
  obtain ⟨o, p, dt, ho, re, d, -, rfl⟩ := hostAccess_frame h
  rfl

theorem cfg_moveClosed : MoveClosed fun s t => t.cfg = s.cfg where
  turns _ _ := rfl
  reset _ _ := rfl
  host _ _ := rfl
  access _ _ _ h := hostAccess_cfg h
  word _ _ _ h := (endCommand_cfg _).trans (executeWord_cfg h)
  trans _ _ _ hst htu := htu.trans hst

/-- Settles O57: no kind of move writes the parameters. -/
theorem configurationConstant : Obligations.ConfigurationConstant := fun _ _ h => cfg_moveClosed.of_step h

/-! ### The flags -/

/-- What command `i` makes of SYM_VALID, EOS and OVR (R43), from `s` to `t`. -/
structure FlagFrame (i : Instr) (s t : State) : Prop where
  symValid_kept : i ∉ [Instr.decBit, .decSym, .encInit, .decInit, .abort, .reset] →
    (s.mode ≠ .fault → t.mode ≠ .fault) → t.symValid = s.symValid
  symValid_cleared : i ∈ [Instr.encInit, .decInit, .abort, .reset] → t.mode ≠ .fault → t.symValid = false
  symValid_error : s.mode ≠ .fault → t.mode = .fault → t.symValid = false
  symValid_emits : i ∈ [Instr.decBit, .decSym] → s.mode = .decode → (t.symValid = true ↔ t.count = s.count + 1#64)
  eos_kept : i ∉ [Instr.decBit, .decSym, .encInit, .decInit, .abort, .reset] → t.eos = s.eos
  eos_cleared : i ∈ [Instr.encInit, .abort, .reset] → t.mode ≠ .fault → t.eos = false
  eos_decInit : i = .decInit → t.mode ≠ .fault → t.eos = decide (t.total = 0#64)
  eos_decode : i ∈ [Instr.decBit, .decSym] → t.eos = s.eos ∨ t.eos = true ∧ t.symValid = true ∧ t.bitPos = t.total
  ovr_kept : i ∉ [Instr.abort, .reset] → t.ovr = s.ovr
  ovr_cleared : i ∈ [Instr.abort, .reset] → t.ovr = false

theorem not_abort_reset {i : Instr} (hz : i.format ≠ .z) : i ∉ [Instr.abort, .reset] := by
  intro hi
  simp only [List.mem_cons, List.not_mem_nil, or_false] at hi
  rcases hi with rfl | rfl <;> exact hz rfl

theorem format_of_not_legalIn {i : Instr} {m : Mode} (h : legalIn i m = false) : i.format ≠ .z := by
  cases i <;> simp_all [legalIn, Instr.format]

theorem raises_format {s u : State} {e : ErrCode} {i : Instr} (h : Raises s e u i) : i.format ≠ .z := by
  cases i <;> simp_all [Raises, Instr.format]

/-- A command ignored in FAULT keeps the flags; ABORT and RESET are not ignored there. -/
theorem FlagFrame.ignored {i : Instr} {s : State} (hm : s.mode = .fault) (hz : i.format ≠ .z) : FlagFrame i s s where
  symValid_kept _ _ := rfl
  symValid_cleared _ h := absurd hm h
  symValid_error h _ := absurd hm h
  symValid_emits _ h := by simp [hm] at h
  eos_kept _ := rfl
  eos_cleared _ h := absurd hm h
  eos_decInit _ h := absurd hm h
  eos_decode _ := .inl rfl
  ovr_kept _ := rfl
  ovr_cleared h := absurd h (not_abort_reset hz)

/-- An error clears SYM_VALID and keeps EOS and OVR; ABORT and RESET raise none. -/
theorem FlagFrame.raise {i : Instr} {s u : State} (hm : s.mode ≠ .fault) (hz : i.format ≠ .z) (hu : RaisedFrom i s u)
    (e : ErrCode) (w : Reg) : FlagFrame i s (raise e w u) := by
  obtain ⟨heos, hovr, hcount⟩ : u.eos = s.eos ∧ u.ovr = s.ovr ∧ u.count = s.count := by
    rcases hu with rfl | ⟨-, p, c, d, rfl⟩ <;> exact ⟨rfl, rfl, rfl⟩
  exact {
    symValid_kept := fun _ h => absurd rfl (h hm)
    symValid_cleared := fun _ h => absurd rfl h
    symValid_error := fun _ _ => rfl
    symValid_emits := fun _ _ => by simp [hcount]
    eos_kept := fun _ => heos
    eos_cleared := fun _ h => absurd rfl h
    eos_decInit := fun _ h => absurd rfl h
    eos_decode := fun _ => .inl heos
    ovr_kept := fun _ => hovr
    ovr_cleared := fun h => absurd h (not_abort_reset hz) }

theorem DecodeFrame.flagFrame {s t : State} {i : Instr} (h : DecodeFrame s t) (hi : i = .decBit ∨ i = .decSym)
    (hm : s.mode = .decode) : FlagFrame i s t := by
  rcases h with ⟨p, c, d, rfl⟩ | ⟨p, o, e, d, rfl, he⟩
  · rcases hi with rfl | rfl <;> constructor <;> simp [hm]
  · rcases hi with rfl | rfl <;> constructor <;> simp [hm, he]

/-- A command that names no flag keeps all three. -/
theorem FlagFrame.of_kept {i : Instr} {s t : State}
    (hi : i ∉ [Instr.decBit, .decSym, .encInit, .decInit, .abort, .reset])
    (hkept : t.symValid = s.symValid ∧ t.eos = s.eos ∧ t.ovr = s.ovr) (hm : s.mode ≠ .fault → t.mode ≠ .fault) :
    FlagFrame i s t := by
  obtain ⟨hsym, heos, hovr⟩ := hkept
  simp only [List.mem_cons, List.not_mem_nil, or_false, not_or] at hi
  obtain ⟨hbit, hsymb, henc, hdec, habort, hreset⟩ := hi
  constructor
  case symValid_kept => exact fun _ _ => hsym
  case symValid_error => exact fun hs ht => absurd ht (hm hs)
  case eos_kept => exact fun _ => heos
  case ovr_kept => exact fun _ => hovr
  all_goals simp [*]

theorem effect_append_flagFrame {s t : State} {i : Instr} (h : Effect s t i)
    (hi : (∃ sym, i = .encSym sym) ∨ ∃ len, i = .encBits len) : FlagFrame i s t := by
  have hm := effect_mode h
  obtain ⟨-, m, d, n, f, w, b, rfl⟩ := effect_append h hi
  refine .of_kept ?_ ⟨rfl, rfl, rfl⟩ hm
  rcases hi with ⟨sym, rfl⟩ | ⟨len, rfl⟩ <;> simp

theorem effect_flagFrame {s t : State} {i : Instr} (h : Effect s t i) : FlagFrame i s t := by
  have hm := effect_mode h
  cases i with
  | nop => subst h; exact .of_kept (by simp) ⟨rfl, rfl, rfl⟩ hm
  | reset => subst h; constructor <;> simp
  | abort => subst h; constructor <;> simp
  | clrTables => obtain ⟨-, rfl⟩ := h; exact .of_kept (by simp) ⟨rfl, rfl, rfl⟩ hm
  | writeNode n => obtain ⟨-, -, -, rfl⟩ := h; exact .of_kept (by simp) ⟨rfl, rfl, rfl⟩ hm
  | setRoot n => obtain ⟨-, -, rfl⟩ := h; exact .of_kept (by simp) ⟨rfl, rfl, rfl⟩ hm
  | writeCode sym len => obtain ⟨-, -, -, -, rfl⟩ := h; exact .of_kept (by simp) ⟨rfl, rfl, rfl⟩ hm
  | bufWrite n => obtain ⟨-, -, rfl⟩ := h; exact .of_kept (by simp) ⟨rfl, rfl, rfl⟩ hm
  | bufRead n => obtain ⟨-, rfl⟩ := h; exact .of_kept (by simp) (by simp) hm
  | setLength => obtain ⟨-, rfl, -⟩ := h; exact .of_kept (by simp) ⟨rfl, rfl, rfl⟩ hm
  | encInit => subst h; constructor <;> simp
  | encSym sym => exact effect_append_flagFrame h (.inl ⟨sym, rfl⟩)
  | encBits len => exact effect_append_flagFrame h (.inr ⟨len, rfl⟩)
  | encEnd => obtain ⟨-, rfl⟩ := h; exact .of_kept (by simp) ⟨rfl, rfl, rfl⟩ hm
  | decInit =>
    obtain ⟨l, r, -, rfl⟩ := h
    constructor
    case eos_decInit => exact fun _ _ => rfl
    all_goals simp
  | decBit => exact (effect_decode h (.inl rfl)).flagFrame (.inl rfl) h.1
  | decSym => exact (effect_decode h (.inr rfl)).flagFrame (.inr rfl) h.1
  | decEnd => obtain ⟨-, rfl⟩ := h; exact .of_kept (by simp) ⟨rfl, rfl, rfl⟩ hm

theorem exec_flagFrame {s t : State} {i : Instr} (h : exec i s = .next t) : FlagFrame i s t := by
  rcases exec_cases h with ⟨hm, rfl, hz⟩ | ⟨hm, hl, rfl⟩ | ⟨-, hm, e, u, hr, rfl⟩ | ⟨-, -, heff⟩
  · exact .ignored hm hz
  · exact .raise hm (format_of_not_legalIn hl) (.inl rfl) _ _
  · exact .raise hm (raises_format hr) (raises_raisedFrom hr) _ _
  · exact effect_flagFrame heff

/-- Settles O55: a command that is ignored keeps the flags, an error clears SYM_VALID only, and each effect writes the
flags that R43 names. -/
theorem flagUpdates : Obligations.FlagUpdates := by
  intro s t i h
  obtain ⟨hkept, hclear, herr, hemit, heos, heosClear, heosInit, heosDecode, hovr, hovrClear⟩ := exec_flagFrame h
  exact ⟨hkept, hclear, herr, hemit, heos, heosClear, heosInit, heosDecode, hovr, hovrClear⟩

/-! ### The buffer invariants -/

/-- What I4 speaks of is the same in both states. -/
def SameBuffer (s t : State) : Prop :=
  t.cfg = s.cfg ∧ t.buf = s.buf ∧ t.fill = s.fill ∧ t.wordCount = s.wordCount

theorem packed_congr {s t : State} (h : SameBuffer s t) (hp : Packed s) : Packed t := by
  obtain ⟨hcfg, hbuf, hfill, hwc⟩ := h
  simpa [Packed, hcfg, hbuf, hfill, hwc] using hp

theorem packed_resetBlock (s : State) : Packed (resetBlock s) := packed_of_zero_word rfl rfl

theorem sameBuffer_raise {i : Instr} {s u : State} (hu : RaisedFrom i s u) (e : ErrCode) (w : Reg) :
    SameBuffer s (raise e w u) := by
  rcases hu with rfl | ⟨-, p, c, d, rfl⟩ <;> exact ⟨rfl, rfl, rfl, rfl⟩

theorem DecodeFrame.sameBuffer {s t : State} (h : DecodeFrame s t) : SameBuffer s t := by
  rcases h with ⟨p, c, d, rfl⟩ | ⟨p, o, e, d, rfl, -⟩ <;> exact ⟨rfl, rfl, rfl, rfl⟩

/-- The commands that write the buffer or its extent, BUF_WRITE, SET_LENGTH and RESET apart, leave ENCODE mode. -/
theorem effect_encode_or_sameBuffer {s t : State} {i : Instr} (h : Effect s t i) (hreset : i ≠ .reset)
    (hwrite : ∀ n, i ≠ .bufWrite n) (hlength : i ≠ .setLength) : t.mode = .encode ∨ SameBuffer s t := by
  cases i with
  | nop => subst h; exact .inr ⟨rfl, rfl, rfl, rfl⟩
  | reset => exact absurd rfl hreset
  | abort => subst h; exact .inr ⟨rfl, rfl, rfl, rfl⟩
  | clrTables => obtain ⟨-, rfl⟩ := h; exact .inr ⟨rfl, rfl, rfl, rfl⟩
  | writeNode n => obtain ⟨-, -, -, rfl⟩ := h; exact .inr ⟨rfl, rfl, rfl, rfl⟩
  | setRoot n => obtain ⟨-, -, rfl⟩ := h; exact .inr ⟨rfl, rfl, rfl, rfl⟩
  | writeCode sym len => obtain ⟨-, -, -, -, rfl⟩ := h; exact .inr ⟨rfl, rfl, rfl, rfl⟩
  | bufWrite n => exact absurd rfl (hwrite n)
  | bufRead n => obtain ⟨-, rfl⟩ := h; exact .inr (by simp [SameBuffer])
  | setLength => exact absurd rfl hlength
  | encInit => subst h; exact .inl rfl
  | encSym sym =>
    obtain ⟨hm, m, d, n, f, w, b, rfl⟩ := effect_append h (.inl ⟨sym, rfl⟩)
    exact .inl hm
  | encBits len =>
    obtain ⟨hm, m, d, n, f, w, b, rfl⟩ := effect_append h (.inr ⟨len, rfl⟩)
    exact .inl hm
  | encEnd => obtain ⟨-, rfl⟩ := h; exact .inr ⟨rfl, rfl, rfl, rfl⟩
  | decInit => obtain ⟨l, r, -, rfl⟩ := h; exact .inr ⟨rfl, rfl, rfl, rfl⟩
  | decBit => exact .inr (effect_decode h (.inl rfl)).sameBuffer
  | decSym => exact .inr (effect_decode h (.inr rfl)).sameBuffer
  | decEnd => obtain ⟨-, rfl⟩ := h; exact .inr ⟨rfl, rfl, rfl, rfl⟩

theorem exec_encode_or_sameBuffer {s t : State} {i : Instr} (h : exec i s = .next t) (hreset : i ≠ .reset)
    (hwrite : ∀ n, i ≠ .bufWrite n) (hlength : i ≠ .setLength) : t.mode = .encode ∨ SameBuffer s t := by
  rcases exec_cases h with ⟨-, rfl, -⟩ | ⟨-, -, rfl⟩ | ⟨-, -, e, u, hr, rfl⟩ | ⟨-, -, heff⟩
  · exact .inr ⟨rfl, rfl, rfl, rfl⟩
  · exact .inr ⟨rfl, rfl, rfl, rfl⟩
  · exact .inr (sameBuffer_raise (raises_raisedFrom hr) _ _)
  · exact effect_encode_or_sameBuffer heff hreset hwrite hlength

/-- I4 is kept by every command but BUF_WRITE and SET_LENGTH (R32): the next state is in ENCODE mode, where the
invariant has I4, or its buffer is the same. -/
theorem exec_keeps_packed {s t : State} {i : Instr} (hinv : Inv s) (h : exec i s = .next t) (hp : Packed s)
    (hwrite : ∀ n, i ≠ .bufWrite n) (hlength : i ≠ .setLength) : Packed t := by
  by_cases hreset : i = .reset
  · subst hreset
    cases h
    exact packed_resetBlock s
  · rcases exec_encode_or_sameBuffer h hreset hwrite hlength with hm | hsame
    · exact ((inv_exec hinv h).encode hm).1
    · exact packed_congr hsame hp

/-- Settles O22: I1 to I3, and I4 in ENCODE mode, are parts of the invariant of the next state. -/
theorem bufferInvariantsKept : Obligations.BufferInvariantsKept := by
  intro s t i hinv h
  have ht := inv_exec hinv h
  obtain ⟨hfill, hwords, hblocks, -⟩ := ht.extent
  refine ⟨hfill, hwords, hblocks, exec_keeps_packed hinv h, fun hm => (ht.encode hm).1, fun hi => ?_⟩
  subst hi
  cases h
  exact packed_resetBlock s

/-- A division rounded up counts the blocks up to the one that holds the last element. -/
theorem ceilDiv_eq_last_block {n a : Nat} (hn : 1 ≤ n) (ha : 1 ≤ a) : ceilDiv n a = (n - 1) / a + 1 := by
  rw [ceilDiv, show n + a - 1 = n - 1 + a by omega, Nat.add_div_right _ ha]

/-- Settles O58: the trailing word is word WORD_COUNT - 1, below CAP_WORDS = NUM_BLOCKS * ARRAY_SIZE. -/
theorem blockCountRange : Obligations.BlockCountRange := by
  intro s h
  obtain ⟨-, -, hblocks, hcap⟩ := h.extent
  have hpos := wordCount_pos h.extent
  have hlast : s.blockCount.toNat = (s.wordCount.toNat - 1) / s.cfg.arraySize + 1 :=
    hblocks.trans (ceilDiv_eq_last_block hpos h.legal.arraySize)
  have hin : s.wordCount.toNat - 1 < s.cfg.capWords := by omega
  have hblock : (s.wordCount.toNat - 1) / s.cfg.arraySize < s.cfg.numBlocks :=
    (Nat.div_lt_iff_lt_mul h.legal.arraySize).2 hin
  exact ⟨hlast ▸ Nat.succ_pos _, hlast ▸ hblock, hlast.symm⟩

/-! ### The STATUS word -/

/-- STATUS as a number, its fields in their places (R23), and the range of each field. -/
theorem statusWord_toNat (s : State) : (statusWord s).toNat = (busy s).toNat + s.mode.code * 2 + s.symValid.toNat * 8 +
    s.eos.toNat * 16 + s.ovr.toNat * 32 + s.err.code * 256 ∧
    (busy s).toNat ≤ 1 ∧ s.mode.code ≤ 3 ∧ s.symValid.toNat ≤ 1 ∧ s.eos.toNat ≤ 1 ∧ s.ovr.toNat ≤ 1 ∧
    s.err.code ≤ 10 := by
  have hmode : s.mode.code ≤ 3 := by cases s.mode <;> decide
  have herr : s.err.code ≤ 10 := by cases s.err <;> decide
  have hbusy := (busy s).toNat_le
  have hsym := s.symValid.toNat_le
  have heos := s.eos.toNat_le
  have hovr := s.ovr.toNat_le
  refine ⟨?_, hbusy, hmode, hsym, heos, hovr, herr⟩
  rw [statusWord, BitVec.toNat_ofNat, Nat.mod_eq_of_lt (by omega)]

/-- A flag of a word, read off the word's number. -/
theorem getLsbD_of_toNat {v : Reg} {k : Nat} {b : Bool} (h : v.toNat / 2 ^ k % 2 = b.toNat) : v.getLsbD k = b := by
  rw [BitVec.getLsbD, Nat.testBit_eq_decide_div_mod_eq, h]
  cases b <;> rfl

/-- A field of a word, read off the word's number. -/
theorem extractLsb'_toNat_div (v : Reg) (k n : Nat) : (v.extractLsb' k n).toNat = v.toNat / 2 ^ k % 2 ^ n := by
  rw [BitVec.extractLsb'_toNat, Nat.shiftRight_eq_div_pow]

/-- Settles O14: the fields lie side by side in the word's number, so each is a quotient and a remainder of it. -/
theorem statusWordFields : Obligations.StatusWordFields := by
  intro s
  obtain ⟨hword, hbusy, hmode, hsym, heos, hovr, herr⟩ := statusWord_toNat s
  refine ⟨getLsbD_of_toNat ?busy, ?mode, getLsbD_of_toNat ?symValid, getLsbD_of_toNat ?eos, getLsbD_of_toNat ?ovr,
    BitVec.eq_of_toNat_eq ?low, ?err, BitVec.eq_of_toNat_eq ?high⟩
  case busy => change _ = (busy s).toNat; omega
  case mode => change _ = s.mode.code; rw [extractLsb'_toNat_div]; omega
  case symValid => omega
  case eos => omega
  case ovr => omega
  case low => rw [extractLsb'_toNat_div]; change _ = 0; omega
  case err => rw [extractLsb'_toNat_div]; omega
  case high => rw [extractLsb'_toNat_div]; change _ = 0; omega

/-! ### The reset state -/

/-- Settles O20: `inv_resetWith`, in the reference configuration and in every legal one. -/
theorem invAtReset : Obligations.InvAtReset :=
  ⟨inv_resetWith reference_legal, fun _ hl => ⟨inv_resetWith hl, packed_of_zero_word rfl rfl⟩⟩

/-- Every DATA register reads 0 at reset, also one that does not exist (20_memory.md R65). -/
theorem dataGet_resetWith (c : Params) (i : Nat) : dataGet (State.resetWith c) i = 0#64 := by
  simp [dataGet, State.resetWith]

/-- Word 0 alone is written at reset (R46). -/
theorem read_resetWith {c : Params} {i : Nat} (hi : 1 ≤ i) : Memory.read (State.resetWith c).buf i = none :=
  if_neg (by omega)

/-- Settles O19: the scalar registers are those of `State.resetWith`; DATA and the buffer are read through their own
accessors. -/
theorem resetStateValues : Obligations.ResetStateValues := by
  refine ⟨rfl, ?_⟩
  rintro c s rfl
  exact ⟨rfl, rfl, rfl, rfl, rfl, rfl, rfl, rfl, List.length_replicate, dataGet_resetWith c, rfl, rfl, rfl, rfl, rfl,
    fun i hi => read_resetWith hi, rfl, rfl, rfl, rfl, rfl, fun _ => rfl, fun _ => rfl⟩

end Sys2Proof.Machine

/-! PROOFS. Memory (20_memory.md): byte orders, the register window as the host sees it and what can stop a step. -/

namespace Sys2Proof.Machine

/-! ### Byte orders (R69, R70) -/

theorem byteLane_getLsbD {j : Nat} (hj : j < 8) (v : Reg) (k : Nat) :
    (byteLane v k).getLsbD j = v.getLsbD (8 * k + j) := by
  rw [byteLane, BitVec.getLsbD_extractLsb', decide_eq_true hj, Bool.true_and]

/-- Bit `j` from the top of stream byte `q` is bit `8q + j` from the top of the word. -/
theorem streamByte_getLsbD {w q j : Nat} (hj : j < 8) (hin : 8 * q + j < w) (hw : w % 8 = 0) (v : Word) :
    (streamByte w v q).getLsbD (7 - j) = v.getLsbD (w - 1 - (8 * q + j)) := by
  have hplace : w - 8 - 8 * q + (7 - j) = w - 1 - (8 * q + j) := by omega
  rw [streamByte, BitVec.getLsbD_extractLsb', decide_eq_true (by omega), Bool.true_and, hplace]

/-- Settles O11: with `n = W/8` bytes to a word, stream bit `8m + j` is bit `8 (m mod n) + j` from the top of word
`m div n`. -/
theorem byteOrders : Obligations.ByteOrders := by
  refine ⟨fun v k j hj => byteLane_getLsbD hj v k, ?_⟩
  intro s m j v hl hw8 hj hv
  obtain ⟨n, hn⟩ : ∃ n, s.cfg.w = 8 * n := ⟨s.cfg.w / 8, by omega⟩
  have hwpos := hl.w.1
  have hbytes : s.cfg.w / 8 = n := by omega
  rw [hbytes] at hv ⊢
  have hq : m % n < n := Nat.mod_lt m (by omega)
  have hplace : 8 * m + j = m / n * s.cfg.w + (8 * (m % n) + j) :=
    calc 8 * m + j = 8 * (n * (m / n) + m % n) + j := by rw [Nat.div_add_mod]
      _ = m / n * s.cfg.w + (8 * (m % n) + j) := by rw [hn]; ring
  have hin : 8 * (m % n) + j < s.cfg.w := by omega
  rw [streamBit_at s hin hplace, hv, Option.map_some, streamByte_getLsbD hj hin hw8]

/-! ### The register map (R61) -/

/-- A register is found at its own offset only. -/
theorem regAt_offset {c : Params} {off : Nat} {r : RegName} (h : regAt c off = some r) : off = r.offset := by
  unfold regAt at h
  split at h
  case isTrue hdata =>
    split at h
    case isTrue hreg =>
      cases h
      simp only [RegName.offset]
      omega
    case isFalse => cases h
  case isFalse => split at h <;> cases h <;> rfl

/-- The DATA registers, and the unmapped offsets behind them. -/
theorem regAt_data (c : Params) {off : Nat} (h8 : off % 8 = 0) (h : 0x100 ≤ off) :
    regAt c off = if (off - 0x100) / 8 < c.ndata then some (.data ((off - 0x100) / 8)) else none := by
  have haligned : (off - 0x100) % 8 = 0 := by omega
  unfold regAt dataOffset
  rw [if_pos h]
  simp only [haligned, true_and]

/-- STATUS and the CFG registers lie at 0x48 and at 0x00 to 0x30. -/
theorem definedWhileBusy_iff (r : RegName) : definedWhileBusy r = true ↔ r.offset = 0x48 ∨ r.offset ≤ 0x30 := by
  cases r with
  | data i => simp only [definedWhileBusy, RegName.offset, dataOffset, Bool.false_eq_true, false_iff]; omega
  | _ => decide

/-- The offsets whose reads are defined while BUSY = 1 are all mapped (R62). -/
theorem regAt_ne_none (c : Params) {off : Nat} (h8 : off % 8 = 0) (h : off = 0x48 ∨ off ≤ 0x30) :
    regAt c off ≠ none := by
  obtain ⟨k, rfl⟩ := Nat.dvd_of_mod_eq_zero h8
  obtain hcfg | rfl : k ≤ 6 ∨ k = 9 := by omega
  · interval_cases k <;> nofun
  · nofun

/-- From 0x100 on, the statement's map holds DATA. -/
theorem mappedValue_data (s : State) {off : Nat} (h : 0x100 ≤ off) :
    mappedValue s off = if (off - 0x100) / 8 < s.cfg.ndata then dataGet s ((off - 0x100) / 8) else 0#64 := by
  unfold mappedValue
  split
  case h_19 => simp only [h, true_and, dataGet]
  all_goals omega

/-- The statement's map gives every register the value that the model's gives it. -/
theorem mappedValue_mapped {s : State} {off : Nat} {r : RegName} (h8 : off % 8 = 0) (h : regAt s.cfg off = some r) :
    mappedValue s off = regValue s r := by
  obtain rfl := regAt_offset h
  cases r with
  | data i =>
    have hoff : 0x100 + 8 * i - 0x100 = 8 * i := Nat.add_sub_cancel_left _ _
    simp only [RegName.offset, dataOffset] at h8 h ⊢
    rw [regAt_data _ h8 (Nat.le_add_right _ _), hoff] at h
    rw [mappedValue_data s (Nat.le_add_right _ _), hoff]
    split at h
    case isTrue hi => rw [if_pos hi, Nat.mul_div_cancel_left i (by decide)]; rfl
    case isFalse => cases h
  | _ => rfl

/-- An offset with no register reads as 0. -/
theorem mappedValue_unmapped {s : State} {off : Nat} (h8 : off % 8 = 0) (h : regAt s.cfg off = none) :
    mappedValue s off = 0#64 := by
  by_cases hdata : 0x100 ≤ off
  · rw [regAt_data _ h8 hdata] at h
    rw [mappedValue_data s hdata]
    split at h
    case isTrue => cases h
    case isFalse hi => rw [if_neg hi]
  · unfold mappedValue
    split
    case h_19 => rw [if_neg (by omega)]
    all_goals cases h

/-! ### Reads (R62) -/

/-- A read is defined while BUSY = 0, and of STATUS and the CFG registers always. -/
abbrev ReadDefined (s : State) (off : Nat) : Prop := s.pending = none ∨ off = 0x48 ∨ off ≤ 0x30

theorem busy_eq_false_iff (s : State) : busy s = false ↔ s.pending = none := by
  rw [busy, Option.isSome_eq_false_iff, Option.isNone_iff_eq_none]

theorem busRead_defined {s : State} {off : Nat} (h8 : off % 8 = 0) (h : ReadDefined s off) :
    busRead s off = (mappedValue s off, s) := by
  unfold busRead
  split
  case h_1 r hr =>
    rw [mappedValue_mapped h8 hr, if_pos]
    rwa [busy_eq_false_iff, definedWhileBusy_iff, ← regAt_offset hr]
  case h_2 hr =>
    rw [mappedValue_unmapped h8 hr, if_pos]
    exact (busy_eq_false_iff s).2 (h.resolve_right fun hoff => regAt_ne_none _ h8 hoff hr)

theorem busRead_undefined {s : State} {off : Nat} (h : ¬ ReadDefined s off) : busRead s off = drawFree s := by
  unfold busRead
  split
  case h_1 r hr =>
    rw [if_neg]
    rwa [busy_eq_false_iff, definedWhileBusy_iff, ← regAt_offset hr]
  case h_2 =>
    rw [if_neg]
    exact fun hidle => h (.inl ((busy_eq_false_iff s).1 hidle))

/-- Settles O13: a defined read answers from the register map, and any other draws a free value. -/
theorem hostReadValue : Obligations.HostReadValue := by
  intro s off hrst h8 hin
  change _ = if ReadDefined s off then _ else _
  rw [step_atHost _ s hrst]
  simp only [hostAccess, admitAccess_ok h8 hin]
  split
  case isTrue h => rw [busRead_defined h8 h]; rfl
  case isFalse h => rw [busRead_undefined h]; rfl

/-! ### Writes (R63) -/

theorem busWrite_busy {s : State} (h : s.pending.isSome = true) (off : Nat) (v : Reg) : busWrite s off v = setOvr s :=
  if_pos h

theorem busWrite_cmd {s : State} (h : ¬ s.pending.isSome = true) (v : Reg) :
    busWrite s 0x40 v = { s with pending := some v } :=
  if_neg h

theorem busWrite_data {s : State} {off : Nat} (h : ¬ s.pending.isSome = true) (h8 : off % 8 = 0)
    (hoff : 0x100 ≤ off ∧ (off - 0x100) / 8 < s.cfg.ndata) (v : Reg) :
    busWrite s off v = dataSet s ((off - 0x100) / 8) v := by
  have hreg : regAt s.cfg off = some (.data ((off - 0x100) / 8)) := by
    rw [regAt_data _ h8 hoff.1, if_pos hoff.2]
  rw [busWrite, busy, if_neg h, hreg]

/-- A write to a read-only register or to an unmapped offset is ignored. -/
theorem busWrite_ignored {s : State} {off : Nat} (h : ¬ s.pending.isSome = true) (h8 : off % 8 = 0) (hcmd : off ≠ 0x40)
    (hdata : ¬ (0x100 ≤ off ∧ (off - 0x100) / 8 < s.cfg.ndata)) (v : Reg) : busWrite s off v = s := by
  rw [busWrite, busy, if_neg h]
  split
  case h_1 hr => exact absurd (regAt_offset hr) hcmd
  case h_2 i hr =>
    have hoff : 0x100 ≤ off := (regAt_offset hr).symm ▸ Nat.le_add_right _ _
    rw [regAt_data _ h8 hoff, if_neg fun hi => hdata ⟨hoff, hi⟩] at hr
    cases hr
  case h_3 => rfl

/-- Settles O12: the four kinds of write, in the order of R63. -/
theorem hostWriteEffect : Obligations.HostWriteEffect := by
  intro s off v hrst h8 hin
  rw [step_atHost _ s hrst]
  simp only [hostAccess, admitAccess_ok h8 hin]
  by_cases hbusy : s.pending.isSome = true
  · rw [if_pos hbusy, busWrite_busy hbusy]; rfl
  · rw [if_neg hbusy]
    by_cases hcmd : off = 0x40
    · subst hcmd
      rw [if_pos rfl, busWrite_cmd hbusy]
    · rw [if_neg hcmd]
      by_cases hdata : 0x100 ≤ off ∧ (off - 0x100) / 8 < s.cfg.ndata
      · rw [if_pos hdata, busWrite_data hbusy h8 hdata]; rfl
      · rw [if_neg hdata, busWrite_ignored hbusy h8 hcmd hdata]

/-! ### Refused accesses (R64) -/

theorem step_atHost_reset {s : State} (h : s.rst = true) (op : HostOp) :
    step (atHost op s) = .refused .accessDuringReset := by
  change (if s.rst = true then _ else _) = _
  exact if_pos h

theorem admitAccess_width {c : Params} {addr bytes : Nat} (h : bytes ≠ 8) :
    admitAccess c addr bytes = .error .accessWidth :=
  if_pos h

theorem admitAccess_outside {c : Params} {addr : Nat} (h : addr < c.base ∨ c.base + 0x200 ≤ addr) :
    admitAccess c addr 8 = .error .accessOutsideWindow :=
  if_pos h

theorem admitAccess_misaligned {c : Params} {addr : Nat} (hlow : c.base ≤ addr) (hhigh : addr < c.base + 0x200)
    (h : (addr - c.base) % 8 ≠ 0) : admitAccess c addr 8 = .error .accessMisaligned := by
  unfold admitAccess windowBytes
  rw [if_neg (by simp), if_neg (by omega), if_pos h]

/-- The refusal of a read or a write that is not admitted. -/
theorem step_atHost_refused {s : State} {addr bytes : Nat} {v : Reg} {r : Refusal} {op : HostOp} (hrst : s.rst = false)
    (h : admitAccess s.cfg addr bytes = .error r) (hop : op ∈ [HostOp.read addr bytes, HostOp.write addr bytes v]) :
    step (atHost op s) = .refused r := by
  rw [step_atHost op s hrst]
  obtain rfl | rfl : op = .read addr bytes ∨ op = .write addr bytes v := by simpa using hop
  · simp only [hostAccess, h]
  · simp only [hostAccess, h]

/-- Settles O15: width, then window, then alignment, each by the refusal of `admitAccess`. -/
theorem hostAccessRefused : Obligations.HostAccessRefused := by
  intro s addr bytes v op hop
  refine ⟨fun hrst => step_atHost_reset hrst op, fun hrst hb => ?_, fun hrst hb hout => ?_,
    fun hrst hb hlow hhigh hmis => ?_⟩
  · exact step_atHost_refused hrst (admitAccess_width hb) hop
  · subst hb
    exact step_atHost_refused hrst (admitAccess_outside hout) hop
  · subst hb
    exact step_atHost_refused hrst (admitAccess_misaligned hlow hhigh hmis) hop

/-! ### What can stop a step -/

theorem whenLegal_completes {i : Instr} {s : State} {r : Result}
    (h : s.mode ≠ .fault → legalIn i s.mode = true → ∃ t, r = .next t) : ∃ t, whenLegal i s r = .next t := by
  rcases whenLegal_cases i s r with ⟨-, he⟩ | ⟨-, -, he⟩ | ⟨hm, hl, he⟩
  · exact ⟨_, he⟩
  · exact ⟨_, he⟩
  · obtain ⟨t, ht⟩ := h hm hl
    exact ⟨t, he.trans ht⟩

/-- A code that fits is appended below CAP_WORDS, and one that does not raises. -/
theorem appendCode_completes {s : State} (h : Inv s) (i : Instr) {len : Nat} (hlen : 1 ≤ len) (c : List Word) :
    ∃ t, appendCode i len c s = .next t := by
  unfold appendCode
  split
  case isTrue hfit => exact ⟨_, if_pos (trailingAfter_lt_cap h.legal h.extent hlen hfit)⟩
  case isFalse => exact ⟨_, rfl⟩

theorem endWalk_completes {s : State} {b : BitStep} (i : Instr) (h : GoodStep s b) : ∃ t, endWalk i b = .next t := by
  cases b with
  | emitted u => exact ⟨_, rfl⟩
  | moved u => exact ⟨_, rfl⟩
  | raised e u => exact ⟨_, rfl⟩
  | stuck f => exact h.elim

/-- A stored code is not empty (R36). -/
theorem codeGet_len_pos {s : State} (h : Inv s) {sym : Nat} {e : CodeEntry} (hget : codeGet s.codes sym = some e) :
    1 ≤ e.len := by
  obtain ⟨-, -, -, hcodes⟩ := h.tables
  have hok := cellsAll_get hcodes hget
  simp only [codeOk, Bool.and_eq_true, decide_eq_true_eq] at hok
  obtain ⟨-, ⟨⟨⟨hlen, -⟩, -⟩, -⟩, -⟩ := hok
  exact hlen

/-- Every command completes. Only the appends and the bit steps have a fault, which the invariant excludes. -/
theorem exec_completes {s : State} (h : Inv s) (i : Instr) : ∃ t, exec i s = .next t := by
  cases i with
  | nop => exact ⟨_, rfl⟩
  | reset => exact ⟨_, rfl⟩
  | abort => exact ⟨_, rfl⟩
  | clrTables => exact whenLegal_completes fun _ _ => ⟨_, rfl⟩
  | writeNode n =>
    refine whenLegal_completes fun _ _ => ?_
    split
    · exact ⟨_, rfl⟩
    · split <;> exact ⟨_, rfl⟩
  | setRoot n => refine whenLegal_completes fun _ _ => ?_; split <;> exact ⟨_, rfl⟩
  | writeCode sym len =>
    refine whenLegal_completes fun _ _ => ?_
    split
    · exact ⟨_, rfl⟩
    · split
      · exact ⟨_, rfl⟩
      · split <;> exact ⟨_, rfl⟩
  | bufWrite n => refine whenLegal_completes fun _ _ => ?_; split <;> exact ⟨_, rfl⟩
  | bufRead n => refine whenLegal_completes fun _ _ => ?_; split <;> exact ⟨_, rfl⟩
  | setLength =>
    refine whenLegal_completes fun _ _ => ?_
    dsimp only
    split
    · exact ⟨_, rfl⟩
    · split <;> exact ⟨_, rfl⟩
  | encInit => exact whenLegal_completes fun _ _ => ⟨_, rfl⟩
  | encSym sym =>
    refine whenLegal_completes fun _ _ => ?_
    split
    · exact ⟨_, rfl⟩
    · split
      case h_1 => exact ⟨_, rfl⟩
      case h_2 e hget => exact appendCode_completes h _ (codeGet_len_pos h hget) _
  | encBits len =>
    refine whenLegal_completes fun _ _ => ?_
    split
    · exact ⟨_, rfl⟩
    · split
      · exact ⟨_, rfl⟩
      · exact appendCode_completes h _ (by omega) _
  | encEnd => exact whenLegal_completes fun _ _ => ⟨_, rfl⟩
  | decInit => refine whenLegal_completes fun _ _ => ?_; split <;> exact ⟨_, rfl⟩
  | decBit =>
    refine whenLegal_completes fun _ hl => ?_
    split
    case isTrue => exact ⟨_, rfl⟩
    case isFalse heos =>
      exact endWalk_completes _ (step1_clear_good h (by simpa [legalIn] using hl) (by simpa using heos))
  | decSym =>
    refine whenLegal_completes fun _ hl => ?_
    split
    case isTrue => exact ⟨_, rfl⟩
    case isFalse heos =>
      exact endWalk_completes _ (walk_clear_good h (by simpa [legalIn] using hl) (by simpa using heos))
  | decEnd => exact whenLegal_completes fun _ _ => ⟨_, rfl⟩

theorem executeWord_completes {s : State} (h : Inv s) (w : Reg) : ∃ t, executeWord w s = .next t := by
  cases hd : decode w with
  | ok i => exact executeWord_ok hd ▸ exec_completes h i
  | error e => rw [executeWord_error hd]; split <;> exact ⟨_, rfl⟩

theorem blockTurn_completes {s : State} (h : Inv s) : ∃ t, blockTurn s = .next t := by
  unfold blockTurn
  split
  · exact ⟨_, rfl⟩
  · split
    case h_1 => exact ⟨_, rfl⟩
    case h_2 w _ =>
      obtain ⟨t, ht⟩ := executeWord_completes h w
      exact ⟨endCommand t, by rw [ht, complete_next]⟩

/-- The outcome `out` of a step from `s` is a next state, or a stop at the host's next access: a CHECK that fails, or a
refusal of 20_memory.md R64 and 70_reset_and_hazards.md R270. -/
def StopsAtHostOnly (s : State) (out : Result) : Prop :=
  (∃ t, out = .next t) ∨ (∃ rest, s.host = .check :: rest ∧ s.err ≠ .noError ∧ out = .fault .checkFailed) ∨
  ∃ op rest r, s.host = op :: rest ∧ out = .refused r ∧
    r ∈ [Refusal.accessWidth, .accessOutsideWindow, .accessMisaligned, .accessDuringReset]

theorem admitAccess_refusal {c : Params} {addr bytes : Nat} {r : Refusal} (h : admitAccess c addr bytes = .error r) :
    r ∈ [Refusal.accessWidth, .accessOutsideWindow, .accessMisaligned, .accessDuringReset] := by
  unfold admitAccess at h
  split at h
  · cases h; decide
  · split at h
    · cases h; decide
    · split at h
      · cases h; decide
      · cases h

theorem hostAccess_stops {s : State} {op : HostOp} {rest : List HostOp} (hhost : s.host = op :: rest) :
    StopsAtHostOnly s (hostAccess op { s with host := rest }) := by
  cases op with
  | read addr bytes =>
    simp only [hostAccess]
    split
    case h_1 => exact .inl ⟨_, rfl⟩
    case h_2 r hr => exact .inr (.inr ⟨_, _, r, hhost, rfl, admitAccess_refusal hr⟩)
  | write addr bytes v =>
    simp only [hostAccess]
    split
    case h_1 => exact .inl ⟨_, rfl⟩
    case h_2 r hr => exact .inr (.inr ⟨_, _, r, hhost, rfl, admitAccess_refusal hr⟩)
  | wait =>
    simp only [hostAccess]
    split <;> exact .inl ⟨_, rfl⟩
  | check =>
    simp only [hostAccess]
    split
    case isTrue => exact .inl ⟨_, rfl⟩
    case isFalse herr => exact .inr (.inl ⟨rest, hhost, herr, rfl⟩)

theorem hostTurn_stops (s : State) : StopsAtHostOnly s (hostTurn s) := by
  unfold hostTurn
  split
  case h_1 => exact .inl ⟨_, rfl⟩
  case h_2 op rest hhost =>
    split
    · exact .inr (.inr ⟨op, rest, _, hhost, rfl, by decide⟩)
    · exact hostAccess_stops hhost

/-- A step is a move of the host, of the block or of the reset input, from a state that differs in its schedule only. -/
theorem step_cases (s : State) :
    ∃ tu, step s = hostTurn { s with turns := tu } ∨ step s = blockTurn { s with turns := tu } ∨
      ∃ level, step s = .next (driveReset level { s with turns := tu }) := by
  unfold step takeTurn
  split
  case h_1 =>
    refine ⟨s.turns, ?_⟩
    unfold defaultTurn
    split
    · exact .inr (.inl rfl)
    · exact .inl rfl
  case h_2 rest _ => exact ⟨rest, .inl rfl⟩
  case h_3 rest _ => exact ⟨rest, .inr (.inl rfl)⟩
  case h_4 level rest _ => exact ⟨rest, .inr (.inr ⟨level, rfl⟩)⟩

/-- Settles O24: the block's turn completes, the reset input always acts, and the host's turn has the stops named. -/
theorem onlyTheHostStops : Obligations.OnlyTheHostStops := by
  intro s h
  change StopsAtHostOnly s (step s)
  obtain ⟨tu, he | he | ⟨level, he⟩⟩ := step_cases s
  · exact he ▸ hostTurn_stops { s with turns := tu }
  · exact .inl (he ▸ blockTurn_completes (inv_host h s.rst s.host tu s.responses s.draws s.pending))
  · exact .inl ⟨_, he⟩

end Sys2Proof.Machine

/-! PROOFS. Encoding (30_encoding.md): the masks of the command word, decoding and encoding as inverses of each other,
the decode order, the mode-legality matrix and the pseudo-instruction ISSUE. -/

namespace Sys2Proof.Machine

/-! ### The must-be-zero bits as fields (R92) -/

/-- The `len` bits of a register from bit `start` on. -/
def fieldMask (start len : Nat) : Reg := (BitVec.allOnes len).setWidth 64 <<< start

theorem fieldMask_getLsbD (start len j : Nat) :
    (fieldMask start len).getLsbD j = decide (j < 64 ∧ start ≤ j ∧ j < start + len) := by
  rw [fieldMask, Bool.eq_iff_iff]
  simp only [BitVec.getLsbD_shiftLeft, BitVec.getLsbD_setWidth, BitVec.getLsbD_allOnes, Bool.and_eq_true,
    Bool.not_eq_true', decide_eq_true_eq, decide_eq_false_iff_not]
  omega

/-- A field is 0 exactly when no bit under its mask is 1. -/
theorem and_fieldMask_eq_zero_iff (w : Reg) (start len : Nat) :
    w &&& fieldMask start len = 0#64 ↔ w.extractLsb' start len = 0#len := by
  constructor
  · intro h
    apply BitVec.eq_of_getLsbD_eq
    intro j hj
    by_cases hin : start + j < 64
    · have hbit := congrArg (·.getLsbD (start + j)) h
      simpa [-BitVec.getLsbD_eq_getElem, fieldMask_getLsbD, hj, hin] using hbit
    · simp [BitVec.getLsbD_of_ge w _ (Nat.le_of_not_lt hin)]
  · intro h
    apply BitVec.eq_of_getLsbD_eq
    intro i hi
    rw [BitVec.getLsbD_and, fieldMask_getLsbD, BitVec.getLsbD_zero, Bool.and_eq_false_iff, decide_eq_false_iff_not,
      or_iff_not_imp_right, not_not]
    rintro ⟨-, hlow, hhigh⟩
    obtain ⟨j, rfl⟩ := Nat.exists_eq_add_of_le hlow
    have hbit := congrArg (·.getLsbD j) h
    simpa [-BitVec.getLsbD_eq_getElem, show j < len by omega] using hbit

theorem and_mustBeZero_n (w : Reg) : w &&& Format.n.mustBeZero = 0#64 ↔ w.extractLsb' 8 56 = 0#56 :=
  and_fieldMask_eq_zero_iff w 8 56

theorem and_mustBeZero_b (w : Reg) : w &&& Format.b.mustBeZero = 0#64 ↔ w.extractLsb' 8 24 = 0#24 :=
  and_fieldMask_eq_zero_iff w 8 24

theorem and_mustBeZero_ab (w : Reg) : w &&& Format.ab.mustBeZero = 0#64 ↔ w.extractLsb' 8 8 = 0#8 :=
  and_fieldMask_eq_zero_iff w 8 8

theorem and_mustBeZero_a (w : Reg) :
    w &&& Format.a.mustBeZero = 0#64 ↔ w.extractLsb' 32 32 = 0#32 ∧ w.extractLsb' 8 8 = 0#8 := by
  have hmask : Format.a.mustBeZero = fieldMask 32 32 ||| fieldMask 8 8 := by decide
  rw [hmask, BitVec.and_or_distrib_left, BitVec.or_eq_zero_iff, and_fieldMask_eq_zero_iff, and_fieldMask_eq_zero_iff]

/-! ### Decoding as matching (R93) -/

/-- What `decode` checks: the OPC and the fields name a command, and that command's must-be-zero bits are 0. -/
theorem decode_eq_ok_iff {w : Reg} {i : Instr} :
    decode w = .ok i ↔ commandOf (opcField w) (fieldA w) (fieldB w) = some i ∧ w &&& i.format.mustBeZero = 0#64 := by
  unfold decode
  split
  case h_1 hc => simp [hc]
  case h_2 j hc =>
    rw [hc, Option.some_inj]
    constructor
    · intro h
      split at h
      case isTrue hbits => cases h; exact ⟨rfl, hbits⟩
      case isFalse => cases h
    · rintro ⟨rfl, hbits⟩
      exact if_pos hbits

/-- Field A of a word as an operand: 0 where the format has no A. -/
def operandA (f : Format) (a : Nat) : Nat := if f = .a ∨ f = .ab then a else 0

/-- Field B of a word as an operand: 0 where the format has no B. -/
def operandB (f : Format) (b : Nat) : Nat := if f = .b ∨ f = .ab then b else 0

theorem operandA_valueA (i : Instr) : operandA i.format i.valueA = i.valueA := by cases i <;> rfl

theorem operandB_valueB (i : Instr) : operandB i.format i.valueB = i.valueB := by cases i <;> rfl

/-- Only the fields that the format carries are read. -/
theorem commandOf_operands (i : Instr) (a b : Nat) :
    commandOf i.opc a b = commandOf i.opc (operandA i.format a) (operandB i.format b) := by cases i <;> rfl

theorem commandOf_eq_some_iff {o a b : Nat} {i : Instr} :
    commandOf o a b = some i ↔ o = i.opc ∧ i.valueA = operandA i.format a ∧ i.valueB = operandB i.format b := by
  constructor
  · intro h
    unfold commandOf at h
    split at h <;> cases h <;> exact ⟨rfl, rfl, rfl⟩
  · rintro ⟨rfl, ha, hb⟩
    rw [commandOf_operands, ← ha, ← hb, commandOf_self]

/-- Every format's mask keeps the OPC. -/
theorem opcField_and_tableMask (w : Reg) (f : Format) : opcField (w &&& tableMask f) = opcField w := by
  have hmask : (tableMask f).extractLsb' 0 8 = BitVec.allOnes 8 := by cases f <;> rfl
  rw [opcField, BitVec.extractLsb'_and, hmask, BitVec.and_allOnes, opcField]

/-- Every format's mask keeps the must-be-zero bits. -/
theorem tableMask_and_mustBeZero (f : Format) : tableMask f &&& f.mustBeZero = f.mustBeZero := by cases f <;> rfl

/-- A format's mask is its must-be-zero bits and the OPC. -/
theorem tableMask_eq (f : Format) : tableMask f = f.mustBeZero ||| 0xFF#64 := by cases f <;> rfl

/-- An OPC lies below every must-be-zero bit. -/
theorem opc_and_mustBeZero (i : Instr) : BitVec.ofNat 64 i.opc &&& i.format.mustBeZero = 0#64 := by
  cases i <;> simp [Instr.opc, Instr.format, Format.mustBeZero]

theorem opcField_opc (i : Instr) : opcField (BitVec.ofNat 64 i.opc) = i.opc := by cases i <;> rfl

theorem and_opcMask (w : Reg) : w &&& 0xFF#64 = BitVec.ofNat 64 (opcField w) := by
  apply BitVec.eq_of_toNat_eq
  have hmask : (0xFF#64).toNat = 2 ^ 8 - 1 := rfl
  rw [BitVec.toNat_and, hmask, Nat.and_two_pow_sub_one_eq_mod, BitVec.toNat_ofNat, opcField_eq]
  omega

/-- `word & mask = match` is the OPC's value and the must-be-zero bits' being 0. -/
theorem masked_eq_opc_iff (w : Reg) (i : Instr) :
    w &&& tableMask i.format = BitVec.ofNat 64 i.opc ↔ opcField w = i.opc ∧ w &&& i.format.mustBeZero = 0#64 := by
  constructor
  · intro h
    constructor
    · rw [← opcField_and_tableMask w i.format, h, opcField_opc]
    · rw [← tableMask_and_mustBeZero, ← BitVec.and_assoc, h, opc_and_mustBeZero]
  · rintro ⟨hopc, hbits⟩
    rw [tableMask_eq, BitVec.and_or_distrib_left, hbits, and_opcMask, hopc, BitVec.zero_or]

/-- A word decodes to a command exactly when it matches the command's row of R93 and holds its operands. -/
theorem decode_eq_ok_iff_match {w : Reg} {i : Instr} :
    decode w = .ok i ↔ w &&& tableMask i.format = BitVec.ofNat 64 i.opc ∧
      i.valueA = operandA i.format (fieldA w) ∧ i.valueB = operandB i.format (fieldB w) := by
  rw [decode_eq_ok_iff, commandOf_eq_some_iff, masked_eq_opc_iff]
  exact and_right_comm

/-- The word of a well-formed command decodes to the command. -/
theorem decode_encode {i : Instr} (h : i.wf = true) : decode (encode i) = .ok i := by
  rw [decode_eq_ok_iff_match, fieldA_encode h, fieldB_encode h, operandA_valueA, operandB_valueB]
  exact ⟨encode_masked h, rfl, rfl⟩

/-- Settles O1: the command's word matches its row of R93, and its fields hold its operands. -/
theorem decodeOfEncode : Obligations.DecodeOfEncode := fun _ h => decode_encode h

/-- Settles O3: `decode_eq_ok_iff_match`, with the fields spelt as numbers of the word. -/
theorem wordIsCommandIffMatch : Obligations.WordIsCommandIffMatch := by
  intro w i
  rw [← fieldA_eq, ← fieldB_eq]
  exact decode_eq_ok_iff_match

/-! ### The word of a decoded command (R92, R99) -/

theorem operandA_le (f : Format) (a : Nat) : operandA f a ≤ a := by unfold operandA; split <;> omega

theorem operandB_le (f : Format) (b : Nat) : operandB f b ≤ b := by unfold operandB; split <;> omega

/-- A command whose operands fit their fields is well formed. -/
theorem wf_of_fields_lt {i : Instr} (ha : i.valueA < 2 ^ 16) (hb : i.valueB < 2 ^ 32) : i.wf = true := by
  cases i <;> simp_all [Instr.wf, Instr.valueA, Instr.valueB, fitsFieldA, fitsFieldB]

theorem wf_of_decode {w : Reg} {i : Instr} (h : decode w = .ok i) : i.wf = true := by
  obtain ⟨-, ha, hb⟩ := decode_eq_ok_iff_match.1 h
  have hA : fieldA w < 2 ^ 16 := BitVec.isLt _
  have hB : fieldB w < 2 ^ 32 := BitVec.isLt _
  exact wf_of_fields_lt (ha ▸ (operandA_le _ _).trans_lt hA) (hb ▸ (operandB_le _ _).trans_lt hB)

/-- Where the must-be-zero bits of a format are 0, a word is its OPC and the fields the format carries. -/
theorem toNat_eq_fields {w : Reg} {f : Format} (hf : f ≠ .z) (h : w &&& f.mustBeZero = 0#64) :
    w.toNat = opcField w + operandA f (fieldA w) * 2 ^ 16 + operandB f (fieldB w) * 2 ^ 32 := by
  have hlt := w.isLt
  have hzero {k n : Nat} (hk : w.extractLsb' k n = 0#n) : w.toNat / 2 ^ k % 2 ^ n = 0 := by
    rw [← extractLsb'_toNat_div, hk]; simp
  rw [opcField_eq, fieldA_eq, fieldB_eq]
  cases f with
  | z => exact absurd rfl hf
  | n =>
    have := hzero ((and_mustBeZero_n w).1 h)
    simp only [operandA, operandB, reduceCtorEq, or_self, if_false]
    omega
  | a =>
    obtain ⟨hhigh, hlow⟩ := (and_mustBeZero_a w).1 h
    have := hzero hhigh
    have := hzero hlow
    simp only [operandA, operandB, reduceCtorEq, or_self, or_false, if_false, if_true]
    omega
  | b =>
    have := hzero ((and_mustBeZero_b w).1 h)
    simp only [operandA, operandB, reduceCtorEq, or_self, or_false, if_false, if_true]
    omega
  | ab =>
    have := hzero ((and_mustBeZero_ab w).1 h)
    simp only [operandA, operandB, reduceCtorEq, or_true, if_true]
    omega

/-- The word of a command whose format fixes every bit. -/
theorem encode_of_decode {w : Reg} {i : Instr} (h : decode w = .ok i) (hz : i.format ≠ .z) : encode i = w := by
  obtain ⟨hmatch, ha, hb⟩ := decode_eq_ok_iff_match.1 h
  obtain ⟨hopc, hbits⟩ := (masked_eq_opc_iff w i).1 hmatch
  apply BitVec.eq_of_toNat_eq
  rw [encode_toNat (wf_of_decode h), toNat_eq_fields hz hbits, hopc, ha, hb]

/-- A command of format Z has no operands. -/
theorem encode_format_z {i : Instr} (hz : i.format = .z) : encode i = BitVec.ofNat 64 i.opc := by
  cases i with
  | nop | reset | abort => rfl
  | _ => cases hz

/-- Settles O2: in format Z the word's low 8 bits are the OPC; in every other format the mask and the operands together
are the whole word. -/
theorem encodeOfDecode : Obligations.EncodeOfDecode := by
  intro w i h
  refine ⟨wf_of_decode h, fun hz => ?_, encode_of_decode h⟩
  obtain ⟨hmatch, -, -⟩ := decode_eq_ok_iff_match.1 h
  rw [hz] at hmatch
  exact (encode_format_z hz).trans hmatch.symm

/-! ### Words that are no command (R94, R95) -/

/-- An OPC names no command exactly when it is reserved. -/
theorem commandOf_eq_none_iff {o : Nat} (ho : o < 2 ^ 8) (a b : Nat) : commandOf o a b = none ↔ reservedOpc o := by
  unfold commandOf reservedOpc
  split
  case h_19 =>
    refine iff_of_true rfl ?_
    simp only [imp_false] at *
    omega
  all_goals simp

theorem opcField_lt (w : Reg) : opcField w < 2 ^ 8 := BitVec.isLt _

theorem decode_eq_reservedOpcode_iff (w : Reg) : decode w = .error .reservedOpcode ↔ reservedOpc (opcField w) := by
  rw [← commandOf_eq_none_iff (opcField_lt w) (fieldA w) (fieldB w)]
  unfold decode
  split
  case h_1 hc => simp [hc]
  case h_2 i hc =>
    rw [hc]
    split <;> simp

/-- Settles O5: the reserved opcodes are those that name no command. -/
theorem reservedOpcodes : Obligations.ReservedOpcodes := fun w =>
  ⟨decode_eq_reservedOpcode_iff w, fun _ hres => executeWord_error ((decode_eq_reservedOpcode_iff w).2 hres)⟩

/-- The format of an OPC, if it is not reserved (R93). -/
def formatOf (o : Nat) : Option Format := (commandOf o 0 0).map Instr.format

theorem format_commandOf (o a b : Nat) : (commandOf o a b).map Instr.format = formatOf o := by
  unfold formatOf commandOf
  split <;> rfl

theorem formatOf_opc (i : Instr) : formatOf i.opc = some i.format := by cases i <;> rfl

/-- A 1 in a must-be-zero bit of the OPC's format makes the word no command. -/
theorem decode_eq_reservedBits {w : Reg} {f : Format} (hf : formatOf (opcField w) = some f)
    (hbits : w &&& f.mustBeZero ≠ 0#64) : decode w = .error .reservedBits := by
  rw [← format_commandOf _ (fieldA w) (fieldB w), Option.map_eq_some_iff] at hf
  obtain ⟨i, hc, rfl⟩ := hf
  unfold decode
  rw [hc]
  exact if_neg hbits

theorem formatOf_n : ∀ o ∈ [0x03, 0x09, 0x10, 0x13, 0x20, 0x21, 0x22, 0x23], formatOf o = some .n := by decide

theorem formatOf_a : ∀ o ∈ [0x11, 0x12], formatOf o = some .a := by decide

theorem formatOf_b : ∀ o ∈ [0x04, 0x05, 0x07, 0x08], formatOf o = some .b := by decide

/-- Settles O6: format by format, a field that R92 has as 0 is not. -/
theorem reservedBits : Obligations.ReservedBits := by
  intro w s h
  have hd : decode w = .error .reservedBits := by
    rcases h with ⟨ho, hbits⟩ | ⟨ho, hbits⟩ | ⟨ho, hbits⟩ | ⟨ho, hbits⟩
    · exact decode_eq_reservedBits (formatOf_n _ ho) (mt (and_mustBeZero_n w).1 hbits)
    · exact decode_eq_reservedBits (formatOf_a _ ho) (mt (and_mustBeZero_a w).1 (not_and_or.2 hbits))
    · exact decode_eq_reservedBits (formatOf_b _ ho) (mt (and_mustBeZero_b w).1 hbits)
    · exact decode_eq_reservedBits (f := .ab) (by rw [ho]; rfl) (mt (and_mustBeZero_ab w).1 hbits)
  exact ⟨hd, executeWord_error hd⟩

/-! ### The decode order (R96) -/

/-- Format Z is the format of the three OPCs that act in FAULT. -/
theorem format_z_iff (i : Instr) : i.format = .z ↔ i.opc ∈ [0x00, 0x01, 0x02] := by
  cases i <;> simp [Instr.format, Instr.opc]

/-- A command of format N, A, B or AB is under the mode check. -/
theorem exec_eq_whenLegal {i : Instr} (hz : i.format ≠ .z) (s : State) : ∃ r, exec i s = whenLegal i s r := by
  cases i with
  | nop | reset | abort => exact absurd rfl hz
  | _ => exact ⟨_, rfl⟩

theorem exec_fault {i : Instr} {s : State} (hz : i.format ≠ .z) (hm : s.mode = .fault) : exec i s = .next s := by
  obtain ⟨r, hr⟩ := exec_eq_whenLegal hz s
  rw [hr, whenLegal_fault hm]

theorem exec_illegal {i : Instr} {s : State} (hm : s.mode ≠ .fault) (hl : legalIn i s.mode = false) :
    exec i s = .next (raise .wrongMode (encode i) s) := by
  obtain ⟨r, hr⟩ := exec_eq_whenLegal (format_of_not_legalIn hl) s
  rw [hr, whenLegal_illegal hm hl]

/-- Past the first step of R96 a command is checked against the mode, and ERR_CMD of a WRONG_MODE is the word itself. -/
theorem executeWord_checks_mode {w : Reg} {s : State} {i : Instr} (hd : decode w = .ok i)
    (hm : s.mode = .fault → i.format = .z) :
    executeWord w s = if legalIn i s.mode = false then .next (raise .wrongMode w s) else exec i s := by
  rw [executeWord_ok hd]
  split
  case isTrue hl =>
    have hz := format_of_not_legalIn hl
    rw [exec_illegal (mt hm hz) hl, encode_of_decode hd hz]
  case isFalse => rfl

/-- The first step of R96: in FAULT a word whose OPC is not NOP, RESET or ABORT is ignored. -/
theorem executeWord_ignored {w : Reg} {s : State} (hm : s.mode = .fault) (ho : opcField w ∉ [0x00, 0x01, 0x02]) :
    executeWord w s = .next s := by
  cases hd : decode w with
  | error e => rw [executeWord_error hd, if_pos hm]
  | ok i =>
    obtain ⟨hc, -⟩ := decode_eq_ok_iff.1 hd
    obtain ⟨hopc, -, -⟩ := commandOf_eq_some_iff.1 hc
    rw [executeWord_ok hd, exec_fault (mt (format_z_iff i).1 (hopc ▸ ho)) hm]

/-- A word that is no command, past the first step of R96. -/
theorem executeWord_bad {w : Reg} {s : State} {e : DecodeError} (hd : decode w = .error e) (hm : s.mode ≠ .fault) :
    executeWord w s = .next (raise .badCommand w s) := by
  rw [executeWord_error hd, if_neg hm]

/-- Settles O7: the steps of R96 in their order. In FAULT, only format Z gets past the first one. -/
theorem commandDecodeOrder : Obligations.CommandDecodeOrder := by
  intro w s
  split
  case isTrue h => exact executeWord_ignored h.1 h.2
  case isFalse h =>
    have hlive : s.mode = .fault → opcField w ∈ [0x00, 0x01, 0x02] := fun hm => not_not.1 fun ho => h ⟨hm, ho⟩
    split
    case h_1 hc =>
      have hres := (commandOf_eq_none_iff (opcField_lt w) _ _).1 hc
      refine executeWord_bad ((decode_eq_reservedOpcode_iff w).2 hres) fun hm => ?_
      have ho := hlive hm
      simp only [List.mem_cons, List.not_mem_nil, or_false] at ho
      unfold reservedOpc at hres
      omega
    case h_2 i hc =>
      obtain ⟨hopc, -, -⟩ := commandOf_eq_some_iff.1 hc
      have hz : s.mode = .fault → i.format = .z := fun hm => (format_z_iff i).2 (hopc ▸ hlive hm)
      split
      case isTrue hbad =>
        exact executeWord_bad (decode_eq_reservedBits (hopc ▸ formatOf_opc i) hbad.2) (mt hz hbad.1)
      case isFalse hgood =>
        have hbits : w &&& i.format.mustBeZero = 0#64 := by
          by_cases hf : i.format = .z
          · rw [hf]; exact BitVec.and_zero
          · exact not_not.1 fun hne => hgood ⟨hf, hne⟩
        exact executeWord_checks_mode (decode_eq_ok_iff.2 ⟨hc, hbits⟩) hz

/-! ### The mode-legality matrix (R97) -/

/-- The last column of the matrix: the mode after a command that completes without error in mode `m`. -/
def modeAfter (m : Mode) : Instr → Mode
  | .nop | .bufRead _ => m
  | .reset | .abort | .clrTables | .writeNode _ | .setRoot _ | .writeCode _ _ | .bufWrite _ | .setLength => .idle
  | .encInit | .encSym _ | .encBits _ => .encode
  | .decInit | .decBit | .decSym => .decode
  | .encEnd | .decEnd => .idle

theorem DecodeFrame.mode {s t : State} (h : DecodeFrame s t) : t.mode = s.mode := by
  rcases h with ⟨p, c, d, rfl⟩ | ⟨p, o, e, d, rfl, -⟩ <;> rfl

theorem effect_modeAfter {s t : State} {i : Instr} (h : Effect s t i) : t.mode = modeAfter s.mode i := by
  cases i with
  | nop => subst h; rfl
  | reset => subst h; rfl
  | abort => subst h; rfl
  | clrTables => obtain ⟨hm, rfl⟩ := h; exact hm
  | writeNode n => obtain ⟨hm, -, -, rfl⟩ := h; exact hm
  | setRoot n => obtain ⟨hm, -, rfl⟩ := h; exact hm
  | writeCode sym len => obtain ⟨hm, -, -, -, rfl⟩ := h; exact hm
  | bufWrite n => obtain ⟨hm, -, rfl⟩ := h; exact hm
  | bufRead n => obtain ⟨-, rfl⟩ := h; exact bufRead_mode s n
  | setLength => obtain ⟨hm, rfl, -⟩ := h; exact hm
  | encInit => subst h; rfl
  | encSym sym =>
    obtain ⟨hm, m, d, n, f, w, b, rfl⟩ := effect_append h (.inl ⟨sym, rfl⟩)
    exact hm
  | encBits len =>
    obtain ⟨hm, m, d, n, f, w, b, rfl⟩ := effect_append h (.inr ⟨len, rfl⟩)
    exact hm
  | encEnd => obtain ⟨-, rfl⟩ := h; rfl
  | decInit => obtain ⟨l, r, -, rfl⟩ := h; rfl
  | decBit => exact (effect_decode h (.inl rfl)).mode.trans h.1
  | decSym => exact (effect_decode h (.inr rfl)).mode.trans h.1
  | decEnd => obtain ⟨-, rfl⟩ := h; rfl

/-- A command that does not end in FAULT had its effect: a raise, or being ignored, ends there. -/
theorem effect_of_exec {s t : State} {i : Instr} (h : exec i s = .next t) (ht : t.mode ≠ .fault) : Effect s t i := by
  rcases exec_cases h with ⟨hm, rfl, -⟩ | ⟨-, -, rfl⟩ | ⟨-, -, e, u, -, rfl⟩ | ⟨-, -, heff⟩
  · exact absurd hm ht
  · exact absurd rfl ht
  · exact absurd rfl ht
  · exact heff

theorem exec_modeAfter {s t : State} {i : Instr} (h : exec i s = .next t) (ht : t.mode ≠ .fault) :
    t.mode = modeAfter s.mode i := effect_modeAfter (effect_of_exec h ht)

/-- The cells of a row: a command whose mode check admits only modes of `ms` is legal only in those. -/
theorem legalOnlyIn_of_legalIn {i : Instr} {ms : List Mode} (hz : i.format ≠ .z)
    (hl : ∀ m, legalIn i m = true → m ∈ ms) : LegalOnlyIn ms i := fun s =>
  ⟨exec_fault hz, fun hm hout => exec_illegal hm (Bool.eq_false_iff.2 (mt (hl s.mode) hout))⟩

/-- A row of the matrix whose last column is one mode, read off `legalIn` and `modeAfter`. -/
def IsRow (ms : List Mode) (m : Mode) (i : Instr) : Prop :=
  i.format ≠ .z ∧ (∀ m', legalIn i m' = true → m' ∈ ms) ∧ ∀ m', modeAfter m' i = m

theorem IsRow.holds {i : Instr} {ms : List Mode} {m : Mode} (h : IsRow ms m i) :
    LegalOnlyIn ms i ∧ ∀ s t, exec i s = .next t → t.mode ≠ .fault → t.mode = m := by
  obtain ⟨hz, hl, hm⟩ := h
  exact ⟨legalOnlyIn_of_legalIn hz hl, fun s _ he ht => (exec_modeAfter he ht).trans (hm s.mode)⟩

/-- A command legal in every mode but FAULT raises no WRONG_MODE. -/
theorem exec_err_ne_wrongMode {s t : State} {i : Instr} (hl : ∀ m, m ≠ .fault → legalIn i m = true)
    (heff : Effect s t i → t.err = s.err) (hs : s.err ≠ .wrongMode) (h : exec i s = .next t) : t.err ≠ .wrongMode := by
  rcases exec_cases h with ⟨-, rfl, -⟩ | ⟨hm, hill, -⟩ | ⟨-, -, e, u, hr, rfl⟩ | ⟨-, -, he⟩
  · exact hs
  · rw [hl _ hm] at hill; cases hill
  · obtain ⟨-, -, hne, -⟩ := raises_frame hr
    exact hne
  · exact heff he ▸ hs

/-- BUF_READ, ENC_INIT and DEC_INIT are the commands of R97 that are legal in every mode but FAULT. -/
theorem legalIn_open {i : Instr} {n : Nat} (hi : i ∈ [Instr.bufRead n, .encInit, .decInit]) :
    i.format ≠ .z ∧ ∀ m, legalIn i m = true ↔ m ∈ [Mode.idle, .encode, .decode] := by
  revert i
  simp [Instr.format, legalIn, or_assoc]

/-- They leave ERR to the errors they raise. -/
theorem effect_open_err {s t : State} {i : Instr} {n : Nat} (hi : i ∈ [Instr.bufRead n, .encInit, .decInit])
    (h : Effect s t i) : t.err = s.err := by
  simp only [List.mem_cons, List.not_mem_nil, or_false] at hi
  rcases hi with rfl | rfl | rfl
  · obtain ⟨-, rfl⟩ := h; exact bufRead_err s n
  · subst h; rfl
  · obtain ⟨l, r, -, rfl⟩ := h; rfl

theorem not_fault_mem {m : Mode} (h : m ≠ .fault) : m ∈ [Mode.idle, .encode, .decode] := by
  cases m with
  | fault => exact absurd rfl h
  | _ => decide

/-- Settles O8: row by row, with NOP, RESET and ABORT evaluated. -/
theorem modeLegality : Obligations.ModeLegality := by
  intro node sym len index
  have hidle : ∀ i ∈ [Instr.clrTables, .writeNode node, .setRoot node, .writeCode sym len, .bufWrite index,
      .setLength], IsRow [.idle] .idle i := by simp [IsRow, Instr.format, legalIn, modeAfter]
  have happend : ∀ i ∈ [Instr.encSym sym, .encBits len], IsRow [.encode] .encode i := by
    simp [IsRow, Instr.format, legalIn, modeAfter]
  have hwalk : ∀ i ∈ [Instr.decBit, .decSym], IsRow [.decode] .decode i := by
    simp [IsRow, Instr.format, legalIn, modeAfter]
  have hencEnd : IsRow [.encode] .idle .encEnd := by simp [IsRow, Instr.format, legalIn, modeAfter]
  have hdecEnd : IsRow [.decode] .idle .decEnd := by simp [IsRow, Instr.format, legalIn, modeAfter]
  refine ⟨fun i hi => (hidle i hi).holds, fun i hi => (happend i hi).holds, hencEnd.holds,
    fun i hi => (hwalk i hi).holds, hdecEnd.holds, fun i hi => ?openRows, fun _ _ => exec_modeAfter,
    fun _ _ => exec_modeAfter, fun _ _ => exec_modeAfter, fun _ => ⟨_, rfl, rfl⟩, fun _ => ⟨_, rfl, rfl⟩,
    fun _ => ⟨_, rfl, rfl⟩⟩
  obtain ⟨hz, hl⟩ := legalIn_open hi
  exact ⟨legalOnlyIn_of_legalIn hz fun m => (hl m).1,
    fun _ _ => exec_err_ne_wrongMode (fun m hm => (hl m).2 (not_fault_mem hm)) (effect_open_err hi)⟩

/-! ### ISSUE (R100) -/

/-- No command touches the schedule, the reset input or the host's program, RESET included. -/
theorem exec_hostSide {s t : State} {i : Instr} (h : exec i s = .next t) :
    t.rst = s.rst ∧ t.host = s.host ∧ t.turns = s.turns := by
  by_cases hi : i = .reset
  · subst hi
    cases h
    exact ⟨rfl, rfl, rfl⟩
  · obtain ⟨-, hrst, hhost, hturns, -⟩ := (exec_registerFrame hi h).outside
    exact ⟨hrst, hhost, hturns⟩

section EmptySchedule

variable {s : State} (hturns : s.turns = []) (hrst : s.rst = false)
include hturns hrst

/-- With no schedule left and nothing latched, the host moves (log 6). -/
theorem step_host {op : HostOp} {rest : List HostOp} (hp : s.pending = none) (hhost : s.host = op :: rest) :
    step s = hostAccess op { s with host := rest } := by
  simp [step, takeTurn, hturns, defaultTurn, busy, hp, hostTurn, hhost, hrst]

/-- With no schedule left and a command latched, the block executes it (log 6). -/
theorem step_block {w : Reg} (hp : s.pending = some w) : step s = complete (executeWord w s) := by
  rw [← blockTurn_latched hrst hp]
  simp [step, takeTurn, hturns, defaultTurn, busy, hp]

end EmptySchedule

/-- `WR CMD` of an idle block latches the word. -/
theorem hostAccess_cmd {s : State} (hp : s.pending = none) (w : Reg) :
    hostAccess (.write (s.cfg.base + RegName.cmd.offset) 8 w) s = .next { s with pending := some w } := by
  have hbusy : ¬ s.pending.isSome = true := by simp [hp]
  simp only [hostAccess, RegName.offset, admitAccess_ok (c := s.cfg) (off := 0x40) (by decide) (by decide),
    busWrite_cmd hbusy]

/-- WAIT of an idle block reads STATUS once. -/
theorem hostAccess_wait {s : State} (hp : s.pending = none) :
    hostAccess .wait s = .next (respond s (statusWord s)) := by
  simp [hostAccess, busy, hp]

/-- A run continues after a step that answers a next state. -/
theorem run_succ {s t : State} (n : Nat) (h : step s = .next t) : core.run (n + 1) s = core.run n t := by
  have hs : core.step s = .next t := h
  simp only [Host.Core.run, hs]

/-- Settles O60: the CMD write latches the word, the block executes the command it decodes to and empties the latch, and
WAIT then reads STATUS once. -/
theorem issueRunsCommand : Obligations.IssueRunsCommand := by
  intro s t i ops hrst hturns hp hwf hhost hexec
  obtain ⟨htrst, hthost, htturns⟩ := exec_hostSide hexec
  have hwrite : step s = .next { s with pending := some (encode i), host := .wait :: ops } := by
    rw [step_host hturns hrst hp hhost]
    exact hostAccess_cmd (s := { s with host := .wait :: ops }) hp (encode i)
  have hblock : step { s with pending := some (encode i), host := .wait :: ops } = .next (endCommand t) := by
    rw [step_block (s := { s with pending := some (encode i), host := .wait :: ops }) hturns hrst rfl,
      executeWord_ok (decode_encode hwf), hexec, complete_next]
  have hwait : step (endCommand t) =
      .next (respond { endCommand t with host := ops } (statusWord { endCommand t with host := ops })) := by
    rw [step_host (s := endCommand t) (htturns.trans hturns) (htrst.trans hrst) rfl hthost]
    exact hostAccess_wait rfl
  rw [run_succ 2 hwrite, run_succ 1 hblock, run_succ 0 hwait]
  rfl

/-! ### Words of the vectors -/

/-- Settles O4: the decoder evaluated on each word. -/
theorem decodeSpecWords : Obligations.DecodeSpecWords :=
  ⟨by rfl, by rfl, by rfl, by rfl, by rfl, by rfl⟩

end Sys2Proof.Machine

/-! PROOFS. The control commands NOP, RESET and ABORT (40_control.md). -/

namespace Sys2Proof.Machine

/-- In format Z the OPC alone names the command: there are no operands and no must-be-zero bits (R92). -/
theorem decode_format_z {w : Reg} {i : Instr} (hz : i.format = .z) (ho : opcField w = i.opc) : decode w = .ok i := by
  rw [decode_eq_ok_iff, commandOf_eq_some_iff, ← operandA_valueA i, ← operandB_valueB i, hz]
  exact ⟨⟨ho, rfl, rfl⟩, BitVec.and_zero⟩

/-- A host write to any register of the window while a command is latched is dropped and sets OVR (R63, R250). -/
theorem step_atHost_write_dropped {s : State} {addr : Nat} (hrst : s.rst = false) (hbusy : s.pending.isSome = true)
    (hlow : s.cfg.base ≤ addr) (hhigh : addr < s.cfg.base + 0x200) (h8 : (addr - s.cfg.base) % 8 = 0) (v : Reg) :
    step (atHost (.write addr 8 v) s) = .next (setOvr s) := by
  obtain ⟨off, rfl⟩ := Nat.exists_eq_add_of_le hlow
  rw [Nat.add_sub_cancel_left] at h8
  rw [hostWriteEffect s off v hrst h8 (Nat.add_lt_add_iff_left.1 hhigh), if_pos hbusy]
  rfl

/-- Only ABORT and RESET leave FAULT: NOP changes nothing, and every other command is ignored there (R244). -/
theorem exec_leaves_fault {i : Instr} {s t : State} (hm : s.mode = .fault) (h : exec i s = .next t)
    (ht : t.mode ≠ .fault) : i = .abort ∨ i = .reset := by
  by_cases hz : i.format = .z
  · cases i with
    | nop => cases h; exact absurd hm ht
    | reset => exact .inr rfl
    | abort => exact .inl rfl
    | _ => cases hz
  · rw [exec_fault hz hm] at h
    cases h
    exact absurd hm ht

/-- Settles O29: NOP's meaning is the state itself, and the write is dropped as any write to a busy block is. -/
theorem nopRule : Obligations.NopRule :=
  ⟨fun _ => decode_format_z (i := .nop) rfl, encode_format_z rfl, fun _ => rfl,
    fun s _ v hrst hlow hhigh h8 =>
      step_atHost_write_dropped (s := { s with pending := some 0#64 }) hrst rfl hlow hhigh h8 v⟩

/-- Settles O30: RESET's meaning is `resetBlock`. -/
theorem resetRule : Obligations.ResetRule :=
  ⟨fun _ => decode_format_z (i := .reset) rfl, encode_format_z rfl, fun _ => rfl⟩

/-- Settles O31: ABORT's meaning is `clearError`; FAULT is left as `exec_leaves_fault` says. -/
theorem abortRule : Obligations.AbortRule :=
  ⟨fun _ => decode_format_z (i := .abort) rfl, encode_format_z rfl, fun _ => ⟨rfl, fun _ _ => exec_leaves_fault⟩⟩

end Sys2Proof.Machine

/-! PROOFS. The table commands CLR_TABLES, WRITE_NODE, SET_ROOT and WRITE_CODE (41_tables.md), and what a session keeps
of the tables and of the buffer. -/

namespace Sys2Proof.Machine

/-! ### The word and the mode check of a command -/

/-- The must-be-zero bits of an OPC are those of its format (R92, R95). -/
theorem refusesBits_of_formatOf {o : Nat} {f : Format} (hf : formatOf o = some f) : RefusesBits o f.mustBeZero :=
  fun _ _ hm ho hbits => executeWord_bad (decode_eq_reservedBits (ho ▸ hf) hbits) hm

/-- The word of a format B command whose operand fits. -/
theorem encode_toNat_b {i : Instr} (hf : i.format = .b) (hb : i.valueB < 2 ^ 32) :
    (encode i).toNat = i.opc + i.valueB * 2 ^ 32 := by
  have ha : i.valueA = 0 := by rw [← operandA_valueA, hf]; rfl
  rw [encode_toNat (wf_of_fields_lt (by omega) hb), ha, Nat.zero_mul, Nat.add_zero]

/-- A command whose row of R97 has only IDLE. -/
theorem legalOnlyIn_idle {i : Instr} (hl : ∀ m, legalIn i m = (m == .idle)) : LegalOnlyIn [.idle] i :=
  legalOnlyIn_of_legalIn (format_of_not_legalIn (hl .fault)) fun _ h => List.mem_singleton.2 (legalIn_idle h hl)

/-- In IDLE the mode check passes a command that is legal there. -/
theorem whenLegal_idle {i : Instr} {s : State} {r : Result} (hm : s.mode = .idle) (hl : legalIn i .idle = true) :
    whenLegal i s r = r :=
  whenLegal_legal (by simp [hm]) (hm ▸ hl)

/-! ### SET_ROOT (R142) -/

/-- Settles O33: past the mode check, SET_ROOT is its range check. -/
theorem setRootRule : Obligations.SetRootRule :=
  ⟨fun r => encode_toNat_b (i := .setRoot r) rfl, refusesBits_of_formatOf (f := .b) rfl,
    fun _ => ⟨legalOnlyIn_idle fun _ => rfl, fun _ hm => whenLegal_idle hm rfl⟩⟩

/-! ### CLR_TABLES (R141) -/

theorem exec_clrTables {s : State} (hm : s.mode = .idle) :
    exec .clrTables s = .next { s with nodes := [], codes := [], root := 0#64 } :=
  whenLegal_idle hm rfl

/-- DEC_INIT on a ROOT that names an INVALID entry (44_decoder.md R212). -/
theorem exec_decInit_badTree {s : State} (hm : s.mode = .idle) (hroot : nodeAt s s.root = .invalid) :
    exec .decInit s = .next (raise .badTree (encode .decInit) s) := by
  refine (whenLegal_idle hm rfl).trans ?_
  rw [hroot]
  rfl

/-- ENC_SYM of a symbol that has no code (43_encoder.md R187). -/
theorem exec_encSym_codeNotFound {s : State} {sym : Nat} (hm : s.mode = .encode) (hcode : codeGet s.codes sym = none) :
    exec (.encSym sym) s = .next (raise .codeNotFound (encode (.encSym sym)) s) := by
  refine (whenLegal_legal (by simp [hm]) (by rw [hm]; rfl)).trans ?_
  rw [hcode]
  exact ite_self _

/-- ENC_INIT in IDLE starts an encode session with the same code table (R186). -/
theorem exec_encInit_session {s u : State} (h : exec .encInit s = .next u) (hm : s.mode = .idle) :
    u.mode = .encode ∧ u.codes = s.codes := by
  rw [show exec .encInit s = _ from whenLegal_idle hm rfl] at h
  cases h
  exact ⟨rfl, rfl⟩

/-- Settles O32: CLR_TABLES leaves empty tables, where no node and no code is found. -/
theorem clrTablesRule : Obligations.ClrTablesRule := by
  refine ⟨rfl, refusesBits_of_formatOf (f := .n) rfl, legalOnlyIn_idle fun _ => rfl, fun s hm => ?_⟩
  refine ⟨_, exec_clrTables hm, rfl, nodeGet_nil, codeGet_nil, exec_decInit_badTree hm rfl, fun u sym hu => ?_⟩
  obtain ⟨hmode, hcodes⟩ := exec_encInit_session hu hm
  exact exec_encSym_codeNotFound hmode (hcodes ▸ codeGet_nil sym)

/-! ### WRITE_NODE (R143, R144) -/

theorem nodeKind_eq_iff (e : Reg) (k : BitVec 2) : nodeKind e = k.toNat ↔ e.extractLsb' 62 2 = k := BitVec.toNat_inj

/-- LEFT and RIGHT are 0 exactly when the low 32 bits are. -/
theorem children_eq_zero_iff (e : Reg) : nodeLeft e = 0#16 ∧ nodeRight e = 0#16 ↔ e.extractLsb' 0 32 = 0#32 := by
  have hmask : fieldMask 0 32 = fieldMask 16 16 ||| fieldMask 0 16 := by decide
  rw [nodeLeft, nodeRight, ← and_fieldMask_eq_zero_iff, ← and_fieldMask_eq_zero_iff, ← and_fieldMask_eq_zero_iff, hmask,
    BitVec.and_or_distrib_left, BitVec.or_eq_zero_iff]

/-- SYM, LEFT and RIGHT are 0 exactly when the low 48 bits are. -/
theorem contents_eq_zero_iff (e : Reg) :
    nodeSym e = 0#16 ∧ nodeLeft e = 0#16 ∧ nodeRight e = 0#16 ↔ e.extractLsb' 0 48 = 0#48 := by
  have hmask : fieldMask 0 48 = fieldMask 32 16 ||| fieldMask 0 32 := by decide
  rw [children_eq_zero_iff, nodeSym, ← and_fieldMask_eq_zero_iff, ← and_fieldMask_eq_zero_iff,
    ← and_fieldMask_eq_zero_iff, hmask, BitVec.and_or_distrib_left, BitVec.or_eq_zero_iff]

/-- R144: the reserved bits are 0, and the fields fit the kind. -/
def EntryWordOk (c : Params) (e : Reg) : Prop :=
  nodeReserved e = 0#14 ∧
    (e.extractLsb' 62 2 = 0#2 ∧ e.extractLsb' 0 48 = 0#48 ∨
      e.extractLsb' 62 2 = 1#2 ∧ (nodeSym e).toNat < 2 ^ c.symW ∧ e.extractLsb' 0 32 = 0#32 ∨
      e.extractLsb' 62 2 = 2#2 ∧ nodeSym e = 0#16 ∧ (nodeLeft e).toNat < c.maxNodes ∧
        (nodeRight e).toNat < c.maxNodes)

/-- `node_word_ok` is the check that R144 spells out, kind by kind. -/
theorem nodeWordOk_iff (c : Params) (e : Reg) : nodeWordOk c e = true ↔ EntryWordOk c e := by
  unfold nodeWordOk EntryWordOk
  rw [Bool.and_eq_true, decide_eq_true_iff, ← contents_eq_zero_iff, ← children_eq_zero_iff, ← nodeKind_eq_iff,
    ← nodeKind_eq_iff, ← nodeKind_eq_iff]
  refine and_congr_right fun _ => ?_
  split
  case h_1 hk => simp [hk, and_assoc]
  case h_2 hk => simp [hk, and_assoc]
  case h_3 hk => simp [hk, and_assoc]
  case h_4 h0 h1 h2 =>
    refine iff_of_false Bool.false_ne_true ?_
    rintro (⟨hk, -⟩ | ⟨hk, -⟩ | ⟨hk, -⟩)
    exacts [h0 hk, h1 hk, h2 hk]

/-- The entry of an entry word, by its kind (R34). -/
theorem nodeOfWord_eq (e : Reg) : nodeOfWord e =
    if e.extractLsb' 62 2 = 1#2 then .leaf (nodeSym e)
    else if e.extractLsb' 62 2 = 2#2 then .internal (nodeLeft e) (nodeRight e) else .invalid := by
  unfold nodeOfWord
  simp only [← nodeKind_eq_iff]
  split
  case h_1 hk => exact (if_pos hk).symm
  case h_2 hk => simp [hk]
  case h_3 h1 h2 => exact ((if_neg h1).trans (if_neg h2)).symm

/-- WRITE_NODE in IDLE of an index and an entry word that pass the checks. -/
theorem exec_writeNode {s : State} {n : Nat} (hm : s.mode = .idle) (hn : n < s.cfg.maxNodes)
    (hok : EntryWordOk s.cfg (dataGet s 0)) :
    exec (.writeNode n) s = .next { s with nodes := nodeSet s.nodes n (nodeOfWord (dataGet s 0)) } :=
  (whenLegal_idle hm rfl).trans <| (if_neg (Nat.not_le.2 hn)).trans (if_pos ((nodeWordOk_iff _ _).2 hok))

/-- WRITE_NODE in IDLE of an index or an entry word that fails its check. -/
theorem exec_writeNode_badCommand {s : State} {n : Nat} (hm : s.mode = .idle)
    (hbad : s.cfg.maxNodes ≤ n ∨ ¬ EntryWordOk s.cfg (dataGet s 0)) :
    exec (.writeNode n) s = .next (raise .badCommand (encode (.writeNode n)) s) := by
  refine (whenLegal_idle hm rfl).trans ?_
  by_cases hn : s.cfg.maxNodes ≤ n
  · exact if_pos hn
  · exact (if_neg hn).trans (if_neg (mt (nodeWordOk_iff _ _).1 (hbad.resolve_left hn)))

/-- Settles O34: the check is that of R144, and the entry written is the one the word gives. -/
theorem writeNodeRule : Obligations.WriteNodeRule := by
  refine ⟨fun n => encode_toNat_b (i := .writeNode n) rfl, refusesBits_of_formatOf (f := .b) rfl, fun n => ?_⟩
  refine ⟨legalOnlyIn_idle fun _ => rfl, ?_⟩
  rintro s _ hm rfl
  refine ⟨exec_writeNode_badCommand hm, fun hn hok => ⟨_, exec_writeNode hm hn hok, rfl, ?_, ?_⟩⟩
  · exact (nodeGet_set_same _ _ _).trans (nodeOfWord_eq _)
  · exact fun _ hj => nodeGet_set_other _ _ hj

/-! ### WRITE_CODE (R146) -/

/-- Code bit `k < L_MAX` lies in one of the CODE_WORDS code words (R8, R15). -/
theorem div_lt_codeWords {c : Params} (hl : c.Legal) {k : Nat} (hk : k < c.lMax) : k / c.w < c.codeWords := by
  have hlast : k / c.w ≤ (c.lMax - 1) / c.w := Nat.div_le_div_right (by omega)
  rw [Params.codeWords, ceilDiv_eq_last_block hl.lMax hl.w.1]
  omega

/-- Code word `i` is the low W bits of DATA[i] (R25). -/
theorem dataCode_getD {s : State} {i : Nat} (hi : i < s.cfg.codeWords) :
    (dataCode s).getD i 0#64 = wordOf s.cfg.w (dataGet s i) := by
  rw [dataCode, dataGet, ← wordOf_zero s.cfg.w, List.getD_map, wordOf_zero, List.getD_eq_getElem?_getD,
    List.getD_eq_getElem?_getD, List.getElem?_take_of_lt hi]

/-- Code bit `k` of DATA (R15). -/
theorem codeBit_dataCode {s : State} (hl : s.cfg.Legal) {k : Nat} (hk : k < s.cfg.lMax) :
    codeBit s.cfg.w (dataCode s) k = (dataGet s (k / s.cfg.w)).getLsbD (s.cfg.w - 1 - k % s.cfg.w) := by
  obtain ⟨hw1, hw⟩ := hl.w
  have hbit : s.cfg.w - 1 - k % s.cfg.w < s.cfg.w := by omega
  rw [codeBit, dataCode_getD (div_lt_codeWords hl hk), wordOf_getLsbD hw]
  simp [hbit]

section WriteCode

variable {s : State} {sym len : Nat} (hm : s.mode = .idle)
include hm

theorem exec_writeCode_symbol (hsym : 2 ^ s.cfg.symW ≤ sym) :
    exec (.writeCode sym len) s = .next (raise .badCommand (encode (.writeCode sym len)) s) :=
  (whenLegal_idle hm rfl).trans (if_pos hsym)

theorem exec_writeCode_zeroLength (hsym : sym < 2 ^ s.cfg.symW) (hlen : len = 0) :
    exec (.writeCode sym len) s = .next (raise .zeroLengthCode (encode (.writeCode sym len)) s) :=
  (whenLegal_idle hm rfl).trans <| (if_neg (Nat.not_le.2 hsym)).trans (if_pos hlen)

theorem exec_writeCode_tooLong (hsym : sym < 2 ^ s.cfg.symW) (hlen : s.cfg.lMax < len) :
    exec (.writeCode sym len) s = .next (raise .badCommand (encode (.writeCode sym len)) s) :=
  (whenLegal_idle hm rfl).trans <| (if_neg (Nat.not_le.2 hsym)).trans <| (if_neg (by omega)).trans (if_pos hlen)

theorem exec_writeCode (hsym : sym < 2 ^ s.cfg.symW) (h1 : 1 ≤ len) (hmax : len ≤ s.cfg.lMax) :
    exec (.writeCode sym len) s =
      .next { s with codes := codeSet s.codes sym ⟨len, maskCode s.cfg.w len (dataCode s)⟩ } :=
  (whenLegal_idle hm rfl).trans <| (if_neg (Nat.not_le.2 hsym)).trans <|
    (if_neg (by omega)).trans (if_neg (Nat.not_lt.2 hmax))

end WriteCode

/-- Settles O35: the checks in their order, and the entry is `mask_code` of the code words in DATA. -/
theorem writeCodeRule : Obligations.WriteCodeRule := by
  refine ⟨?word, refusesBits_of_formatOf (f := .ab) rfl, fun sym len => ⟨legalOnlyIn_idle fun _ => rfl, ?effect⟩⟩
  case word => exact fun sym len hsym hlen => encode_toNat (wf_of_fields_lt (i := .writeCode sym len) hsym hlen)
  case effect =>
    intro s hm hl hdata
    obtain ⟨hw1, hw⟩ := hl.w
    refine ⟨exec_writeCode_symbol hm, exec_writeCode_zeroLength hm, exec_writeCode_tooLong hm, fun hsym h1 hmax => ?_⟩
    have hlength : (maskCode s.cfg.w len (dataCode s)).length = s.cfg.codeWords := by
      rw [maskCode_length, dataCode_length hdata]
    refine ⟨_, _, exec_writeCode hm hsym h1 hmax, rfl, codeGet_set_same _ _ _, rfl, hlength, ?code, ?padding,
      ?width, ?others⟩
    case code =>
      intro k hk
      rw [codeBit_maskCode hw1 hw, codeBit_dataCode hl (hk.trans_le hmax), decide_eq_true hk, Bool.true_and]
    case padding =>
      intro k hk _
      rw [codeBit_maskCode hw1 hw, decide_eq_false (Nat.not_lt.2 hk), Bool.false_and]
    case width =>
      exact fun v hv => (wordOf_eq_iff_lt hw v).1 (maskCode_wordOf hw len (dataCode_wordOf hw) v hv)
    case others => exact fun _ hx => codeGet_set_other _ _ hx

/-! ### What a session keeps (R140, 70_reset_and_hazards.md R277) -/

/-- The tables and ROOT are the same in both states. -/
def SameTables (s t : State) : Prop := t.nodes = s.nodes ∧ t.codes = s.codes ∧ t.root = s.root

/-- The buffer and its length registers are the same in both states. -/
def SameContents (s t : State) : Prop :=
  t.buf = s.buf ∧ t.total = s.total ∧ t.fill = s.fill ∧ t.wordCount = s.wordCount ∧ t.blockCount = s.blockCount

/-- Outside IDLE a command legal in IDLE only is ignored or raises WRONG_MODE, and neither touches a table. -/
theorem exec_idleOnly_sameTables {s t : State} {i : Instr} (hl : ∀ m, legalIn i m = (m == .idle))
    (hm : s.mode ≠ .idle) (h : exec i s = .next t) : SameTables s t := by
  obtain ⟨hignored, hraised⟩ := legalOnlyIn_idle hl s
  by_cases hf : s.mode = .fault
  · rw [hignored hf] at h
    cases h
    exact ⟨rfl, rfl, rfl⟩
  · rw [hraised hf (mt List.mem_singleton.1 hm)] at h
    cases h
    exact ⟨rfl, rfl, rfl⟩

/-- The writers of the tables and of ROOT are legal in IDLE only, RESET apart. -/
theorem exec_sameTables {s t : State} {i : Instr} (hm : s.mode ≠ .idle) (hreset : i ≠ .reset)
    (h : exec i s = .next t) : SameTables s t := by
  by_cases hl : ∀ m, legalIn i m = (m == .idle)
  · exact exec_idleOnly_sameTables hl hm h
  · obtain ⟨-, -, hroot, -, -, -, hnodes, hcodes, -⟩ := exec_registerFrame hreset h
    refine ⟨hnodes.resolve_right ?_, hcodes.resolve_right ?_, hroot.resolve_right ?_⟩
    · rintro (rfl | ⟨n, rfl⟩) <;> exact hl fun _ => rfl
    · rintro (rfl | ⟨sym, len, rfl⟩) <;> exact hl fun _ => rfl
    · rintro (rfl | ⟨n, rfl⟩) <;> exact hl fun _ => rfl

theorem sameContents_raise {i : Instr} {s u : State} (hu : RaisedFrom i s u) (e : ErrCode) (w : Reg) :
    SameContents s (raise e w u) := by
  rcases hu with rfl | ⟨-, p, c, d, rfl⟩ <;> exact ⟨rfl, rfl, rfl, rfl, rfl⟩

theorem DecodeFrame.sameContents {s t : State} (h : DecodeFrame s t) : SameContents s t := by
  rcases h with ⟨p, c, d, rfl⟩ | ⟨p, o, e, d, rfl, -⟩ <;> exact ⟨rfl, rfl, rfl, rfl, rfl⟩

/-- In a session only ENC_INIT and, in ENCODE, the appends have an effect on the buffer. -/
theorem effect_contents {s t : State} {i : Instr} (hm : s.mode ≠ .idle) (hreset : i ≠ .reset) (h : Effect s t i) :
    SameContents s t ∨ i = .encInit ∨ s.mode = .encode ∧ ((∃ sym, i = .encSym sym) ∨ ∃ len, i = .encBits len) := by
  cases i with
  | nop | abort => subst h; exact .inl ⟨rfl, rfl, rfl, rfl, rfl⟩
  | reset => exact absurd rfl hreset
  | clrTables | writeNode | setRoot | writeCode | bufWrite | setLength => exact absurd h.1 hm
  | bufRead n => obtain ⟨-, rfl⟩ := h; exact .inl (by simp [SameContents])
  | encInit => exact .inr (.inl rfl)
  | encSym sym => exact .inr (.inr ⟨h.1, .inl ⟨sym, rfl⟩⟩)
  | encBits len => exact .inr (.inr ⟨h.1, .inr ⟨len, rfl⟩⟩)
  | encEnd | decEnd => obtain ⟨-, rfl⟩ := h; exact .inl ⟨rfl, rfl, rfl, rfl, rfl⟩
  | decInit => obtain ⟨l, r, -, rfl⟩ := h; exact .inl ⟨rfl, rfl, rfl, rfl, rfl⟩
  | decBit => exact .inl (effect_decode h (.inl rfl)).sameContents
  | decSym => exact .inl (effect_decode h (.inr rfl)).sameContents

theorem exec_contents {s t : State} {i : Instr} (hm : s.mode ≠ .idle) (hreset : i ≠ .reset) (h : exec i s = .next t) :
    SameContents s t ∨ i = .encInit ∨ s.mode = .encode ∧ ((∃ sym, i = .encSym sym) ∨ ∃ len, i = .encBits len) := by
  rcases exec_cases h with ⟨-, rfl, -⟩ | ⟨-, -, rfl⟩ | ⟨-, -, e, u, hr, rfl⟩ | ⟨-, -, heff⟩
  · exact .inl ⟨rfl, rfl, rfl, rfl, rfl⟩
  · exact .inl (sameContents_raise (i := i) (.inl rfl) _ _)
  · exact .inl (sameContents_raise (raises_raisedFrom hr) _ _)
  · exact effect_contents hm hreset heff

/-- Settles O54: the tables by `exec_sameTables`, the buffer by `exec_contents`. -/
theorem sessionImmutability : Obligations.SessionImmutability := by
  intro s t i hm hreset h
  obtain ⟨hnodes, hcodes, hroot⟩ := exec_sameTables hm hreset h
  exact ⟨hnodes, hcodes, hroot, exec_contents hm hreset h⟩

end Sys2Proof.Machine

/-! PROOFS. The buffer commands BUF_WRITE, BUF_READ and SET_LENGTH (42_buffer.md). -/

namespace Sys2Proof.Machine

/-! ### BUF_WRITE (R160) -/

section BufWrite

variable {s : State} {i : Nat} (hm : s.mode = .idle)
include hm

theorem exec_bufWrite_outOfRange (hi : s.cfg.capWords ≤ i) :
    exec (.bufWrite i) s = .next (raise .badCommand (encode (.bufWrite i)) s) :=
  (whenLegal_idle hm rfl).trans (if_pos hi)

theorem exec_bufWrite (hi : i < s.cfg.capWords) : exec (.bufWrite i) s = .next (bufWrite s i (dataGet s 0)) :=
  (whenLegal_idle hm rfl).trans (if_neg (Nat.not_le.2 hi))

end BufWrite

/-- Settles O36: past the index check BUF_WRITE is the buffer write, whose word is read back modulo `2^W`. -/
theorem bufWriteRule : Obligations.BufWriteRule := by
  refine ⟨fun i => encode_toNat_b (i := .bufWrite i) rfl, refusesBits_of_formatOf (f := .b) rfl, fun i => ?_⟩
  refine ⟨legalOnlyIn_idle fun _ => rfl, fun s hm hl => ⟨exec_bufWrite_outOfRange hm, fun hi => ?_⟩⟩
  exact ⟨_, _, exec_bufWrite hm hi, rfl, read_bufWrite_same s i _, wordOf_toNat hl.w.2 _,
    fun _ hj => read_bufWrite_other s _ hj⟩

/-! ### BUF_READ (R161) -/

/-- Outside FAULT the mode check passes the commands that are legal in every other mode (R97). -/
theorem whenLegal_open {i : Instr} {n : Nat} {s : State} {r : Result}
    (hi : i ∈ [Instr.bufRead n, .encInit, .decInit]) (hm : s.mode ≠ .fault) : whenLegal i s r = r :=
  whenLegal_legal hm (((legalIn_open hi).2 _).2 (not_fault_mem hm))

section BufRead

variable {s : State} {i : Nat} (hm : s.mode ≠ .fault)
include hm

theorem exec_bufRead_outOfRange (hi : s.cfg.capWords ≤ i) :
    exec (.bufRead i) s = .next (raise .badCommand (encode (.bufRead i)) s) :=
  (whenLegal_open (n := i) (List.mem_cons_self ..) hm).trans (if_pos hi)

theorem exec_bufRead (hi : i < s.cfg.capWords) :
    exec (.bufRead i) s = .next (dataSet (bufRead s i).2 0 (bufRead s i).1) :=
  (whenLegal_open (n := i) (List.mem_cons_self ..) hm).trans (if_neg (Nat.not_le.2 hi))

end BufRead

/-- Settles O37: past the index check BUF_READ is the buffer read, of a written word or of an unwritten one. -/
theorem bufReadRule : Obligations.BufReadRule := by
  refine ⟨fun i => encode_toNat_b (i := .bufRead i) rfl, refusesBits_of_formatOf (f := .b) rfl, fun i s => ?_⟩
  refine ⟨exec_fault (i := .bufRead i) nofun, fun hm => ⟨exec_bufRead_outOfRange hm, ?written, ?unwritten⟩⟩
  case written =>
    intro hi v hv
    rw [exec_bufRead hm hi, bufRead_written hv]
    rfl
  case unwritten =>
    intro hi hv
    rw [exec_bufRead hm hi, bufRead_unwritten hv]
    rfl

/-! ### SET_LENGTH (R162) -/

section SetLength

variable {s : State} (hm : s.mode = .idle)
include hm

theorem exec_setLength_mismatch
    (hbad : s.cfg.capWords < (dataGet s 0).toNat / s.cfg.w + 1 ∨
      (dataGet s 1).toNat ≠ (dataGet s 0).toNat % s.cfg.w) :
    exec .setLength s = .next (raise .lengthMismatch (encode .setLength) s) := by
  refine (whenLegal_idle hm rfl).trans ?_
  by_cases hcap : s.cfg.capWords < (dataGet s 0).toNat / s.cfg.w + 1
  · exact if_pos hcap
  · exact (if_neg hcap).trans (if_pos (hbad.resolve_left hcap))

theorem exec_setLength (hcap : (dataGet s 0).toNat / s.cfg.w + 1 ≤ s.cfg.capWords)
    (hfill : (dataGet s 1).toNat = (dataGet s 0).toNat % s.cfg.w) :
    exec .setLength s =
      .next (setExtent s (dataGet s 0).toNat (dataGet s 1).toNat ((dataGet s 0).toNat / s.cfg.w + 1)) :=
  (whenLegal_idle hm rfl).trans <| (if_neg (Nat.not_lt.2 hcap)).trans (if_neg (not_not_intro hfill))

end SetLength

/-- A length and a fill taken from registers are stored unchanged. -/
theorem setExtent_toNat (s : State) (total fill : Reg) (words : Nat) :
    setExtent s total.toNat fill.toNat words =
      { s with
        total := total
        fill := fill
        wordCount := BitVec.ofNat 64 words
        blockCount := BitVec.ofNat 64 (ceilDiv words s.cfg.arraySize) } := by
  simp [setExtent]

/-- Settles O38: the two checks raise the same error, and past them SET_LENGTH sets the extent. -/
theorem setLengthRule : Obligations.SetLengthRule := by
  refine ⟨rfl, refusesBits_of_formatOf (f := .n) rfl, legalOnlyIn_idle fun _ => rfl, fun s hm => ?_⟩
  intro t f
  split
  case isTrue hbad => exact exec_setLength_mismatch hm hbad
  case isFalse hok =>
    obtain ⟨hcap, hfill⟩ := not_or.1 hok
    rw [exec_setLength hm (Nat.not_lt.1 hcap) (not_ne_iff.1 hfill), setExtent_toNat]
    rfl

end Sys2Proof.Machine

/-! PROOFS. The encoder (43_encoder.md): what an append leaves in the stream, the commands ENC_INIT, ENC_SYM, ENC_BITS
and ENC_END, and an encode session as a whole. -/

namespace Sys2Proof.Machine

/-! ### The words and the stream (R184) -/

/-- The bits of a bit count that fits the buffer fit a register. -/
theorem toNat_ofNat_bits {c : Params} (hl : c.Legal) {t : Nat} (ht : t / c.w + 1 ≤ c.capWords) :
    (BitVec.ofNat 64 t).toNat = t := by
  have hlt := lt_capBits hl ht
  have hcap := capBits_le hl
  rw [BitVec.toNat_ofNat, Nat.mod_eq_of_lt (by omega)]

/-- So do its words. -/
theorem toNat_ofNat_words {c : Params} (hl : c.Legal) {n : Nat} (hn : n ≤ c.capWords) :
    (BitVec.ofNat 64 n).toNat = n := by
  have hcap := hl.capWords
  rw [BitVec.toNat_ofNat, Nat.mod_eq_of_lt (by omega)]

/-- The padding of a packed buffer reads as 0: the stream bits from TOTAL to the end of the trailing word. -/
theorem streamBit_padding {s : State} (hl : s.cfg.Legal) (hb : BufferOk s) (hx : ExtentOk s) (hp : Packed s) {j : Nat}
    (hj : s.total.toNat ≤ j) (hend : j < s.wordCount.toNat * s.cfg.w) : streamBit s j = some false := by
  obtain ⟨u, hu, -, hlow⟩ := trailOk_of_packed hl hb hx hp
  have hpos := append_position hx
  have hlast : s.wordCount.toNat * s.cfg.w = (s.wordCount.toNat - 1) * s.cfg.w + s.cfg.w := by
    rw [← Nat.succ_mul, Nat.succ_eq_add_one, Nat.sub_add_cancel (wordCount_pos hx)]
  rw [streamBit_at s (i := s.wordCount.toNat - 1) (r := j - (s.wordCount.toNat - 1) * s.cfg.w) (by omega) (by omega),
    hu, Option.map_some, hlow _ (by omega)]

/-- W-bit words with the same W bits, counted from the top, are equal. -/
theorem word_ext {w : Nat} (hw : w ≤ 64) {u v : Word} (hu : wordOf w u = u) (hv : wordOf w v = v)
    (h : ∀ r, r < w → u.getLsbD (w - 1 - r) = v.getLsbD (w - 1 - r)) : u = v := by
  refine BitVec.eq_of_getLsbD_eq fun k _ => ?_
  by_cases hk : k < w
  · have hbit := h (w - 1 - k) (by omega)
    rwa [show w - 1 - (w - 1 - k) = k by omega] at hbit
  · rw [(wordOf_eq_iff hw u).1 hu k (by omega), (wordOf_eq_iff hw v).1 hv k (by omega)]

/-- A trailing word with FILL = 0 is 0. -/
theorem trailing_word_zero {s : State} (hl : s.cfg.Legal) (hb : BufferOk s) (hx : ExtentOk s) (hp : Packed s)
    (hfill : s.fill.toNat = 0) : Memory.read s.buf (s.wordCount.toNat - 1) = some 0#64 := by
  obtain ⟨u, hu, hword, hlow⟩ := trailOk_of_packed hl hb hx hp
  have hzero : u = 0#64 := word_ext hl.w.2 hword (wordOf_zero _) fun r hr => by
    rw [hlow _ (by omega), BitVec.getLsbD_zero]
  rw [hu, hzero]

/-- Buffers of W-bit words whose streams agree on word `i` have the same word `i`. -/
theorem read_eq_of_streamBit {s t : State} (hl : s.cfg.Legal) (hc : t.cfg = s.cfg) (hs : BufferOk s) (ht : BufferOk t)
    {i : Nat} (h : ∀ r, r < s.cfg.w → streamBit t (i * s.cfg.w + r) = streamBit s (i * s.cfg.w + r)) :
    Memory.read t.buf i = Memory.read s.buf i := by
  obtain ⟨hw1, hw⟩ := hl.w
  have hbit : ∀ r, r < s.cfg.w → (Memory.read t.buf i).map (fun v => v.getLsbD (s.cfg.w - 1 - r)) =
      (Memory.read s.buf i).map fun v => v.getLsbD (s.cfg.w - 1 - r) := by
    intro r hr
    have hr' := h r hr
    rwa [streamBit_at t (by rwa [hc]) (by rw [hc]), streamBit_at s hr rfl, hc] at hr'
  cases hrt : Memory.read t.buf i with
  | none =>
    have h0 := hbit 0 hw1
    rw [hrt, Option.map_none, eq_comm, Option.map_eq_none_iff] at h0
    exact h0.symm
  | some u =>
    cases hrs : Memory.read s.buf i with
    | none => simpa [hrt, hrs] using hbit 0 hw1
    | some v =>
      have hu : wordOf s.cfg.w u = u := hc ▸ bufferOk_read ht hrt
      refine congrArg some (word_ext hw hu (bufferOk_read hs hrs) fun r hr => ?_)
      simpa [hrt, hrs] using hbit r hr

@[simp] theorem streamBit_countUp (s : State) (j : Nat) : streamBit (countUp s) j = streamBit s j := rfl

@[simp] theorem codeBits_length (w len : Nat) (c : List Word) : (codeBits w len c).length = len := by
  simp [codeBits]

theorem codeBits_getD {w len k : Nat} (hk : k < len) (c : List Word) :
    (codeBits w len c).getD k false = codeBit w c k := by
  simp [codeBits, hk]

/-- The streams of two appended bit strings, one behind the other. -/
theorem streamHas_append {s : State} {j : Nat} {a b : List Bool} (ha : StreamHas s j a)
    (hb : StreamHas s (j + a.length) b) : StreamHas s j (a ++ b) := by
  intro k hk
  rw [List.length_append] at hk
  by_cases hka : k < a.length
  · rw [ha k hka, List.getD_append _ _ _ _ hka]
  · have hbit := hb (k - a.length) (by omega)
    rw [show j + a.length + (k - a.length) = j + k by omega] at hbit
    rw [hbit, List.getD_append_right _ _ _ _ (by omega)]

/-- A string that ends by bit `n` is still there when the bits below `n` are kept. -/
theorem StreamHas.of_kept {s t : State} {j n : Nat} {b : List Bool} (h : StreamHas s j b) (hn : j + b.length ≤ n)
    (hkept : ∀ p, p < n → streamBit t p = streamBit s p) : StreamHas t j b :=
  fun k hk => (hkept _ (by omega)).trans (h k hk)

/-! ### The append of a code (R180, R184) -/

/-- A code that an append admits: 1 to L_MAX bits in CODE_WORDS words of W bits (10_state.md R36). -/
structure IsCode (p : Params) (len : Nat) (c : List Word) : Prop where
  pos : 1 ≤ len
  max : len ≤ p.lMax
  length : c.length = p.codeWords
  words : ∀ v ∈ c, wordOf p.w v = v

/-- A stored code is a code of a symbol of the alphabet, with its non-code bits 0. -/
theorem codeGet_isCode {s : State} (h : Inv s) {sym : Nat} {e : CodeEntry} (hget : codeGet s.codes sym = some e) :
    sym < 2 ^ s.cfg.symW ∧ IsCode s.cfg e.len e.words ∧ maskCode s.cfg.w e.len e.words = e.words := by
  obtain ⟨-, -, -, hcodes⟩ := h.tables
  have hok := cellsAll_get hcodes hget
  simp only [codeOk, Bool.and_eq_true, decide_eq_true_eq, List.all_eq_true] at hok
  obtain ⟨hsym, ⟨⟨⟨hpos, hmax⟩, hlength⟩, hwords⟩, hmask⟩ := hok
  exact ⟨hsym, ⟨hpos, hmax, hlength, hwords⟩, hmask⟩

theorem isCode_maskCode {s : State} (h : Inv s) {len : Nat} (hpos : 1 ≤ len) (hmax : len ≤ s.cfg.lMax) :
    IsCode s.cfg len (maskCode s.cfg.w len (dataCode s)) := by
  obtain ⟨hlength, hwords⟩ := maskCode_dataCode h len
  exact ⟨hpos, hmax, hlength, hwords⟩

section Append

variable {s : State} {len : Nat} {c : List Word} (h : Inv s) (hc : IsCode s.cfg len c)
  (hfit : (s.total.toNat + len) / s.cfg.w + 1 ≤ s.cfg.capWords)
include h hc hfit

/-- R184 of the append that ENC_SYM and ENC_BITS share, with COUNT one more. -/
theorem append_appendsBits (hm : s.mode = .encode) :
    AppendsBits s (countUp (append s len c)) (codeBits s.cfg.w len c) := by
  obtain ⟨hp, -, -⟩ := h.encode hm
  obtain ⟨m, heq, hnew, hold, hbeyond, hb, hx, hpk⟩ := append_spec h.legal h.buffer h.extent hp hc.pos hc.words
    (hc.length ▸ codeLength_mono hc.max) (decide_eq_true hfit)
  obtain ⟨-, hwords, -, -⟩ := h.extent
  have hcfg : (append s len c).cfg = s.cfg := by rw [heq, setExtent_cfg]
  have htotal : (append s len c).total.toNat = s.total.toNat + len := by
    rw [heq, setExtent_total, toNat_ofNat_bits h.legal hfit]
  have hwc : (append s len c).wordCount.toNat = (s.total.toNat + len) / s.cfg.w + 1 := by
    rw [heq, setExtent_wordCount, toNat_ofNat_words h.legal hfit]
  simp only [AppendsBits, StreamHas, streamBit_countUp, countUp_buf, countUp_wordCount, codeBits_length]
  refine ⟨⟨m, by rw [heq]; rfl⟩, ?new, hold, ?padding, ?words⟩
  case new => exact fun k hk => (hnew k hk).trans (congrArg some (codeBits_getD hk c).symm)
  case padding =>
    intro j hj hend
    rw [← htotal] at hj
    exact streamBit_padding (hcfg ▸ h.legal) hb hx hpk hj (hcfg ▸ hend)
  case words =>
    rintro i (hi | hi)
    · refine read_eq_of_streamBit h.legal hcfg h.buffer hb fun r hr => hold _ ?_
      have hfull : (i + 1) * s.cfg.w ≤ s.total.toNat := (Nat.le_div_iff_mul_le h.legal.w.1).1 (by omega)
      rw [Nat.succ_mul] at hfull
      omega
    · exact hbeyond i (by omega)

theorem appendCode_fits (i : Instr) : appendCode i len c s = .next (countUp (append s len c)) :=
  (if_pos (decide_eq_true hfit)).trans
    (if_pos (trailingAfter_lt_cap h.legal h.extent hc.pos (decide_eq_true hfit)))

end Append

theorem appendCode_overflow {s : State} {len : Nat} (hfull : s.cfg.capWords < (s.total.toNat + len) / s.cfg.w + 1)
    (i : Instr) (c : List Word) : appendCode i len c s = .next (raise .bufferOverflow (encode i) s) :=
  if_neg (by simpa [fits] using hfull)

/-! ### The word and the mode check -/

/-- The word of a format A command whose operand fits. -/
theorem encode_toNat_a {i : Instr} (hf : i.format = .a) (ha : i.valueA < 2 ^ 16) :
    (encode i).toNat = i.opc + i.valueA * 2 ^ 16 := by
  have hb : i.valueB = 0 := by rw [← operandB_valueB, hf]; rfl
  rw [encode_toNat (wf_of_fields_lt ha (by omega)), hb, Nat.zero_mul, Nat.add_zero]

/-- A command whose row of R97 has only ENCODE. -/
theorem legalOnlyIn_encode {i : Instr} (hl : ∀ m, legalIn i m = (m == .encode)) : LegalOnlyIn [.encode] i :=
  legalOnlyIn_of_legalIn (format_of_not_legalIn (hl .fault)) fun m h => by simpa [hl] using h

/-- In ENCODE the mode check passes a command that is legal there. -/
theorem whenLegal_encode {i : Instr} {s : State} {r : Result} (hm : s.mode = .encode)
    (hl : legalIn i .encode = true) : whenLegal i s r = r :=
  whenLegal_legal (by simp [hm]) (hm ▸ hl)

/-! ### ENC_INIT (R186) -/

/-- The state that ENC_INIT leaves: an empty buffer, in ENCODE mode. -/
def encodeStart (s : State) : State :=
  { startFlags false (setExtent (bufWrite s 0 0#64) 0 0 1) with count := 0#64, mode := .encode }

theorem exec_encInit {s : State} (hm : s.mode ≠ .fault) : exec .encInit s = .next (encodeStart s) :=
  whenLegal_open (n := 0) (by simp) hm

/-- Settles O39: one word in use is one block in use, and the write of word 0 leaves every other word. -/
theorem encInitRule : Obligations.EncInitRule := by
  obtain ⟨hz, hl⟩ := legalIn_open (i := .encInit) (n := 0) (by simp)
  refine ⟨rfl, refusesBits_of_formatOf (f := .n) rfl, legalOnlyIn_of_legalIn hz fun m => (hl m).1,
    fun s hm hlegal => ⟨(bufWrite s 0 0#64).buf, (exec_encInit hm).trans ?state, ?word, fun i hi => ?others⟩⟩
  case state =>
    have hblock : ceilDiv 1 s.cfg.arraySize = 1 := by
      rw [ceilDiv_eq_last_block (Nat.le_refl 1) hlegal.arraySize, Nat.zero_div]
    simp [encodeStart, setExtent, startFlags, bufWrite, hblock]
  case word => rw [read_bufWrite_same, wordOf_zero]
  case others => exact read_bufWrite_other s _ (by omega)

/-! ### ENC_SYM (R187) -/

section EncSym

variable {s : State} {sym : Nat} (hm : s.mode = .encode)
include hm

/-- A symbol outside the alphabet. -/
theorem exec_encSym_notInAlphabet (hsym : 2 ^ s.cfg.symW ≤ sym) :
    exec (.encSym sym) s = .next (raise .codeNotFound (encode (.encSym sym)) s) :=
  (whenLegal_encode hm rfl).trans (if_pos hsym)

/-- A symbol with a code: the append's own check is left. -/
theorem exec_encSym_found {e : CodeEntry} (hsym : sym < 2 ^ s.cfg.symW) (hget : codeGet s.codes sym = some e) :
    exec (.encSym sym) s = appendCode (.encSym sym) e.len e.words s := by
  refine (whenLegal_encode hm rfl).trans ((if_neg (Nat.not_le.2 hsym)).trans ?_)
  rw [hget]

end EncSym

/-- Settles O40: the checks in their order, then R184 of the append. -/
theorem encSymRule : Obligations.EncSymRule := by
  refine ⟨fun sym => encode_toNat_a (i := .encSym sym) rfl, refusesBits_of_formatOf (f := .a) rfl, fun sym =>
    ⟨legalOnlyIn_encode fun _ => rfl, fun s hm h => ⟨?noCode, fun e hsym hget =>
      ⟨fun hfull => ?full, fun hfit => ?fits⟩⟩⟩⟩
  case noCode => exact fun hno => hno.elim (exec_encSym_notInAlphabet hm) (exec_encSym_codeNotFound hm)
  case full => rw [exec_encSym_found hm hsym hget, appendCode_overflow hfull]
  case fits =>
    obtain ⟨-, hcode, -⟩ := codeGet_isCode h hget
    exact ⟨_, (exec_encSym_found hm hsym hget).trans (appendCode_fits h hcode hfit _),
      append_appendsBits h hcode hfit hm⟩

/-! ### ENC_BITS (R188) -/

section EncBits

variable {s : State} {len : Nat} (hm : s.mode = .encode)
include hm

theorem exec_encBits_zeroLength (hlen : len = 0) :
    exec (.encBits len) s = .next (raise .zeroLengthCode (encode (.encBits len)) s) :=
  (whenLegal_encode hm rfl).trans (if_pos hlen)

theorem exec_encBits_tooLong (hlen : s.cfg.lMax < len) :
    exec (.encBits len) s = .next (raise .badCommand (encode (.encBits len)) s) :=
  (whenLegal_encode hm rfl).trans <| (if_neg (by omega)).trans (if_pos hlen)

/-- A length in range: the append's own check is left. -/
theorem exec_encBits (hpos : 1 ≤ len) (hmax : len ≤ s.cfg.lMax) :
    exec (.encBits len) s = appendCode (.encBits len) len (maskCode s.cfg.w len (dataCode s)) s :=
  (whenLegal_encode hm rfl).trans <| (if_neg (by omega)).trans (if_neg (Nat.not_lt.2 hmax))

end EncBits

/-- The code bits of a masked code taken from DATA are bits of DATA. -/
theorem codeBits_maskCode_dataCode {s : State} (hl : s.cfg.Legal) {len : Nat} (hmax : len ≤ s.cfg.lMax) :
    codeBits s.cfg.w len (maskCode s.cfg.w len (dataCode s)) =
      (List.range len).map fun k => (dataGet s (k / s.cfg.w)).getLsbD (s.cfg.w - 1 - k % s.cfg.w) := by
  refine List.map_congr_left fun k hk => ?_
  have hk := List.mem_range.1 hk
  rw [codeBit_maskCode hl.w.1 hl.w.2, codeBit_dataCode hl (hk.trans_le hmax), decide_eq_true hk, Bool.true_and]

/-- Settles O41: the checks in their order, then R184 of the append of DATA's masked code words. -/
theorem encBitsRule : Obligations.EncBitsRule := by
  refine ⟨fun len => encode_toNat_a (i := .encBits len) rfl, refusesBits_of_formatOf (f := .a) rfl, fun len =>
    ⟨legalOnlyIn_encode fun _ => rfl, fun s hm h => ⟨exec_encBits_zeroLength hm, exec_encBits_tooLong hm,
      fun hpos hmax hfull => ?full, fun hpos hmax hfit => ?fits⟩⟩⟩
  case full => rw [exec_encBits hm hpos hmax, appendCode_overflow hfull]
  case fits =>
    have hcode := isCode_maskCode h hpos hmax
    rw [← codeBits_maskCode_dataCode h.legal hmax]
    exact ⟨_, (exec_encBits hm hpos hmax).trans (appendCode_fits h hcode hfit _),
      append_appendsBits h hcode hfit hm⟩

/-- DATA holding the words of a code gives that code. -/
theorem dataCode_eq {s : State} (h : Inv s) {len : Nat} {c : List Word} (hc : IsCode s.cfg len c)
    (hdata : ∀ k, k < s.cfg.codeWords → dataGet s k = c.getD k 0#64) : dataCode s = c := by
  have hlength := dataCode_length h.data
  refine List.ext_getElem (hlength.trans hc.length.symm) fun k hk hk' => ?_
  have hcw : k < s.cfg.codeWords := hlength ▸ hk
  rw [← List.getD_eq_getElem _ 0#64 hk, ← List.getD_eq_getElem _ 0#64 hk', dataCode_getD hcw, hdata k hcw,
    getD_wordOf hc.words]

/-- Settles O47: both append the code words of the table, which their mask leaves as they are. -/
theorem encSymEqualsEncBits : Obligations.EncSymEqualsEncBits := by
  intro s sym e h hm hget hdata hfit
  obtain ⟨hsym, hcode, hmask⟩ := codeGet_isCode h hget
  rw [exec_encBits hm hcode.pos hcode.max, exec_encSym_found hm hsym hget, dataCode_eq h hcode hdata, hmask,
    appendCode_fits h hcode hfit, appendCode_fits h hcode hfit]

/-! ### ENC_END (R189) -/

/-- Settles O42: ENC_END only leaves the mode, and in IDLE the mode check stops ENC_SYM. -/
theorem encEndRule : Obligations.EncEndRule :=
  ⟨rfl, refusesBits_of_formatOf (f := .n) rfl, legalOnlyIn_encode fun _ => rfl,
    fun _ hm => ⟨whenLegal_encode hm rfl, fun _ => exec_illegal (by simp) rfl⟩⟩

/-! ### An encode session (R190) -/

/-- The bits of the code of `sym`; none for a symbol without a code. -/
def symbolBits (w : Nat) (t : List (Nat × CodeEntry)) (sym : Nat) : List Bool :=
  match codeGet t sym with
  | some e => codeBits w e.len e.words
  | none => []

theorem symbolBits_of_codeGet {t : List (Nat × CodeEntry)} {sym : Nat} {e : CodeEntry} (hget : codeGet t sym = some e)
    (w : Nat) : symbolBits w t sym = codeBits w e.len e.words := by
  rw [symbolBits, hget]

/-- The lengths of the codes add up to the number of their bits. -/
theorem codeLengths_eq (w : Nat) (t : List (Nat × CodeEntry)) (syms : List Nat) :
    codeLengths t syms = (syms.flatMap (symbolBits w t)).length := by
  induction syms with
  | nil => rfl
  | cons sym rest ih =>
    rw [codeLengths, List.flatMap_cons, List.length_append, ih]
    cases hget : codeGet t sym <;> simp [symbolBits, hget]

/-- From `s` to `t`, both in an encode session with the same tables, `n` symbols were encoded, and the bits `b` joined
the stream behind the ones that were there. -/
structure Encoded (s t : State) (n : Nat) (b : List Bool) : Prop where
  inv : Inv t
  mode : t.mode = .encode
  cfg : t.cfg = s.cfg
  tables : SameTables s t
  total : t.total.toNat = s.total.toNat + b.length
  count : t.count = s.count + BitVec.ofNat 64 n
  old : ∀ j, j < s.total.toNat → streamBit t j = streamBit s j
  new : StreamHas t s.total.toNat b

theorem Encoded.refl {s : State} (h : Inv s) (hm : s.mode = .encode) : Encoded s s 0 [] :=
  ⟨h, hm, rfl, ⟨rfl, rfl, rfl⟩, rfl, (BitVec.add_zero _).symm, fun _ _ => rfl, nofun⟩

theorem Encoded.trans {s t u : State} {n m : Nat} {a b : List Bool} (hst : Encoded s t n a) (htu : Encoded t u m b) :
    Encoded s u (n + m) (a ++ b) where
  inv := htu.inv
  mode := htu.mode
  cfg := htu.cfg.trans hst.cfg
  tables := by
    obtain ⟨hnodes, hcodes, hroot⟩ := hst.tables
    obtain ⟨hnodes', hcodes', hroot'⟩ := htu.tables
    exact ⟨hnodes'.trans hnodes, hcodes'.trans hcodes, hroot'.trans hroot⟩
  total := by rw [htu.total, hst.total, List.length_append, Nat.add_assoc]
  count := by rw [htu.count, hst.count, BitVec.add_assoc, BitVec.ofNat_add]
  old j hj := (htu.old j (by rw [hst.total]; omega)).trans (hst.old j hj)
  new := streamHas_append (hst.new.of_kept (Nat.le_of_eq hst.total.symm) htu.old) (hst.total ▸ htu.new)

/-- One ENC_SYM that raises no error. -/
theorem encoded_encSym {s t : State} {sym : Nat} (h : Inv s) (he : exec (.encSym sym) s = .next t)
    (ht : t.mode ≠ .fault) : Encoded s t 1 (symbolBits s.cfg.w s.codes sym) := by
  obtain ⟨hm, hsym, e, hget, hfit, htapp⟩ := effect_of_exec he ht
  have hfit := of_decide_eq_true hfit
  obtain ⟨-, hcode, -⟩ := codeGet_isCode h hget
  obtain ⟨⟨m, hframe⟩, hnew, hold, -, -⟩ := htapp ▸ append_appendsBits h hcode hfit hm
  rw [symbolBits_of_codeGet hget]
  refine ⟨inv_exec h he, ?_, ?_, ?_, ?total, ?_, hold, hnew⟩
  case total =>
    rw [hframe, codeBits_length]
    exact toNat_ofNat_bits h.legal hfit
  all_goals rw [hframe]
  · exact hm
  · exact ⟨rfl, rfl, rfl⟩

/-- A sequence of commands runs its first command and then the rest. -/
theorem execAll_cons {i : Instr} {rest : List Instr} {s t : State} :
    execAll (i :: rest) s = .next t ↔ ∃ u, exec i s = .next u ∧ execAll rest u = .next t := by
  rw [execAll]
  cases exec i s <;> simp

/-- FAULT ignores every ENC_SYM (60_exceptions.md R244). -/
theorem execAll_encSym_fault {s : State} (hm : s.mode = .fault) (syms : List Nat) :
    execAll (syms.map .encSym) s = .next s := by
  induction syms with
  | nil => rfl
  | cons sym rest ih => exact execAll_cons.2 ⟨s, exec_fault nofun hm, ih⟩

/-- A sequence of ENC_SYM commands that raises no error: an error would have left the session in FAULT. -/
theorem encoded_execAll {s t : State} {syms : List Nat} (h : Inv s) (hm : s.mode = .encode)
    (he : execAll (syms.map .encSym) s = .next t) (ht : t.mode ≠ .fault) :
    Encoded s t syms.length (syms.flatMap (symbolBits s.cfg.w s.codes)) := by
  induction syms generalizing s with
  | nil =>
    cases he
    exact .refl h hm
  | cons sym rest ih =>
    obtain ⟨u, hu, hrest⟩ := execAll_cons.1 he
    have hlive : u.mode ≠ .fault := by
      intro hf
      rw [execAll_encSym_fault hf] at hrest
      cases hrest
      exact ht hf
    have hfirst := encoded_encSym h hu hlive
    have hall := hfirst.trans (ih hfirst.inv hfirst.mode hrest)
    obtain ⟨-, hcodes, -⟩ := hfirst.tables
    rwa [hfirst.cfg, hcodes, Nat.add_comm, ← List.flatMap_cons] at hall

/-- ENC_INIT and a sequence of ENC_SYM commands that raises no error. -/
theorem encoded_session {s t : State} {syms : List Nat} (h : Inv s) (hm : s.mode ≠ .fault)
    (he : execAll (.encInit :: syms.map .encSym) s = .next t) (ht : t.mode ≠ .fault) :
    Encoded (encodeStart s) t syms.length (syms.flatMap (symbolBits s.cfg.w s.codes)) := by
  obtain ⟨u, hu, hrest⟩ := execAll_cons.1 he
  obtain rfl : encodeStart s = u := by simpa [exec_encInit hm] using hu
  exact encoded_execAll (inv_encInit h hm) rfl hrest ht

/-- From an empty buffer, TOTAL is the number of bits encoded. -/
theorem Encoded.total_of_start {s t : State} {n : Nat} {b : List Bool} (h : Encoded (encodeStart s) t n b) :
    t.total.toNat = b.length :=
  h.total.trans (Nat.zero_add _)

/-- Settles O48: TOTAL by `codeLengths_eq`, FILL and WORD_COUNT by the invariant, and a trailing word with FILL = 0 is
all padding. -/
theorem encodeAccounting : Obligations.EncodeAccounting := by
  intro s t syms h hm he ht
  have henc := encoded_session h hm he ht
  have hcfg : t.cfg = s.cfg := henc.cfg
  have hinv := henc.inv
  obtain ⟨hfill, hwords, -, -⟩ := hinv.extent
  obtain ⟨hpacked, -, -⟩ := hinv.encode henc.mode
  rw [← hcfg]
  refine ⟨?total, hfill, hwords, henc.count.trans (BitVec.zero_add _), fun _ hmul => ⟨?fill, ?trailing⟩⟩
  case total => rw [henc.total_of_start, codeLengths_eq s.cfg.w]
  case fill => exact BitVec.eq_of_toNat_eq (hfill.trans hmul)
  case trailing =>
    have hzero := trailing_word_zero hinv.legal hinv.buffer hinv.extent hpacked (hfill.trans hmul)
    rwa [hwords, Nat.add_sub_cancel] at hzero

/-- Settles O49: the stream by induction on the symbols (`encoded_session`), its end by the padding of a packed
buffer. -/
theorem streamIsConcatenation : Obligations.StreamIsConcatenation := by
  intro s t syms h hm he ht
  have henc := encoded_session h hm he ht
  have hinv := henc.inv
  obtain ⟨hpacked, -, -⟩ := hinv.encode henc.mode
  have hcfg : t.cfg = s.cfg := henc.cfg
  refine ⟨henc.total_of_start, henc.new, fun j hj hend => ?_⟩
  exact streamBit_padding hinv.legal hinv.buffer hinv.extent hpacked (henc.total_of_start.trans_le hj) (hcfg ▸ hend)

end Sys2Proof.Machine

/-! PROOFS. The decoder (44_decoder.md): the bit step, the commands DEC_INIT, DEC_BIT, DEC_SYM and DEC_END, the walk of
a DEC_SYM as a run of bit steps, and a decode session as a whole. -/

namespace Sys2Proof.Machine

/-! ### The word and the mode check -/

/-- A command whose row of R97 has only DECODE. -/
theorem legalOnlyIn_decode {i : Instr} (hl : ∀ m, legalIn i m = (m == .decode)) : LegalOnlyIn [.decode] i :=
  legalOnlyIn_of_legalIn (format_of_not_legalIn (hl .fault)) fun m h => by simpa [hl] using h

/-- In DECODE the mode check passes a command that is legal there. -/
theorem whenLegal_decode {i : Instr} {s : State} {r : Result} (hm : s.mode = .decode)
    (hl : legalIn i .decode = true) : whenLegal i s r = r :=
  whenLegal_legal (by simp [hm]) (hm ▸ hl)

theorem isInternal_iff {q : Node} : q.isInternal = true ↔ ∃ l r, q = .internal l r := by
  cases q <;> simp [Node.isInternal]

/-! ### DEC_END (R215) -/

/-- Settles O46: past the mode check, DEC_END only leaves the mode. -/
theorem decEndRule : Obligations.DecEndRule :=
  ⟨rfl, refusesBits_of_formatOf (f := .n) rfl, legalOnlyIn_decode fun _ => rfl, fun _ hm => whenLegal_decode hm rfl⟩

/-! ### DEC_INIT (R212) -/

/-- The state that DEC_INIT leaves: the cursor on ROOT at bit 0, in DECODE mode. -/
def decodeStart (s : State) : State :=
  { startFlags (decide (s.total = 0#64)) s with cursor := s.root, bitPos := 0#64, count := 0#64, mode := .decode }

section DecInit

variable {s : State} (hm : s.mode ≠ .fault)
include hm

theorem exec_decInit_invalid (hroot : nodeAt s s.root = .invalid) :
    exec .decInit s = .next (raise .badTree (encode .decInit) s) :=
  (whenLegal_open (i := .decInit) (n := 0) (by simp) hm).trans (by rw [hroot]; rfl)

theorem exec_decInit_leaf {sym : BitVec 16} (hroot : nodeAt s s.root = .leaf sym) :
    exec .decInit s = .next (raise .degenerateTree (encode .decInit) s) :=
  (whenLegal_open (i := .decInit) (n := 0) (by simp) hm).trans (by rw [hroot]; rfl)

theorem exec_decInit {l r : BitVec 16} (hroot : nodeAt s s.root = .internal l r) :
    exec .decInit s = .next (decodeStart s) :=
  (whenLegal_open (i := .decInit) (n := 0) (by simp) hm).trans (by rw [hroot]; rfl)

end DecInit

/-- Settles O43: one case for each kind of root. -/
theorem decInitRule : Obligations.DecInitRule := by
  obtain ⟨hz, hl⟩ := legalIn_open (i := .decInit) (n := 0) (by simp)
  exact ⟨rfl, refusesBits_of_formatOf (f := .n) rfl, legalOnlyIn_of_legalIn hz fun m => (hl m).1,
    fun s hm => ⟨exec_decInit_invalid hm, fun _ => exec_decInit_leaf hm, fun _ _ => exec_decInit hm⟩⟩

/-! ### The bit step (R210, R211) -/

/-- The bit at BIT_POS and the draws after it are those of the buffer read (R46). -/
theorem nextBit_iff {s : State} {b : Bool} {d : Nat} :
    NextBit s b d ↔ b = stepBit s ∧ (bufRead s (s.bitPos.toNat / s.cfg.w)).2 = { s with draws := d } := by
  rcases bufRead_cases s (s.bitPos.toNat / s.cfg.w) with ⟨v, hread, hv⟩ | ⟨hread, hv⟩
  · have hdraws : s = { s with draws := d } ↔ d = s.draws := ⟨fun h => (congrArg State.draws h).symm, fun h => h ▸ rfl⟩
    simp only [NextBit, streamBit, stepBit, hread, hv, hdraws]
    simp [eq_comm]
  · have hdraws : ({ s with draws := s.draws + 1 } : State) = { s with draws := d } ↔ d = s.draws + 1 :=
      ⟨fun h => (congrArg State.draws h).symm, fun h => h ▸ rfl⟩
    simp only [NextBit, streamBit, stepBit, hread, hv, hdraws]
    simp [and_comm]

theorem exists_nextBit (s : State) : ∃ b d, NextBit s b d := by
  obtain ⟨d, hd⟩ := bufRead_state s (s.bitPos.toNat / s.cfg.w)
  exact ⟨stepBit s, d, nextBit_iff.2 ⟨rfl, hd⟩⟩

/-- A decode session before its end. -/
structure Decoding (s : State) : Prop where
  inv : Inv s
  mode : s.mode = .decode
  eos : s.eos = false

section Session

variable {s : State} (h : Decoding s)
include h

theorem Decoding.clear : Decoding (clearSymValid s) := ⟨inv_clear h.inv, h.mode, h.eos⟩

/-- Before the end of the stream a bit is left, in a word of the buffer (R45, 20_memory.md R66). -/
theorem Decoding.bitPos_lt : s.bitPos.toNat < s.total.toNat := by
  obtain ⟨hle, -, -, heos, -⟩ := h.inv.decode h.mode
  refine Nat.lt_of_le_of_ne hle fun he => ?_
  have := heos.2 (BitVec.eq_of_toNat_eq he)
  rw [h.eos] at this
  cases this

theorem Decoding.word_lt : s.bitPos.toNat / s.cfg.w < s.cfg.capWords := by
  obtain ⟨-, hwords, -, hcap⟩ := h.inv.extent
  have := Nat.div_le_div_right (c := s.cfg.w) h.bitPos_lt.le
  omega

theorem Decoding.bitPos_succ : (s.bitPos + 1#64).toNat = s.bitPos.toNat + 1 := by
  have := h.bitPos_lt
  bv_omega

/-- The cursor is on an INTERNAL node (R45). -/
theorem Decoding.cursor : ∃ l r, nodeAt s s.cursor = .internal l r := by
  obtain ⟨-, hcur, -⟩ := h.inv.decode h.mode
  exact isInternal_iff.1 hcur

/-- The bit step of a session is the descent to the child that the next bit selects. -/
theorem Decoding.step1_eq {l r : BitVec 16} {b : Bool} {d : Nat} (hc : nodeAt s s.cursor = .internal l r)
    (hb : NextBit s b d) : step1 s = descend (childIndex l r b) { s with draws := d } := by
  obtain ⟨rfl, hd⟩ := nextBit_iff.1 hb
  rw [step1_internal h.bitPos_lt h.word_lt hc, hd]

section Child

variable {l r : BitVec 16} {b : Bool} {d : Nat} (hc : nodeAt s s.cursor = .internal l r) (hb : NextBit s b d)
include hc hb

/-- An INVALID child: nothing is consumed but the draw. -/
theorem Decoding.step1_invalid (hq : nodeGet s.nodes (childIndex l r b).toNat = .invalid) :
    step1 s = .raised .badTree { s with draws := d } := by
  rw [h.step1_eq hc hb]
  simp [descend, hq]

/-- A leaf: its symbol is emitted, and the stream ends here if the bit was its last. -/
theorem Decoding.step1_leaf {sym : BitVec 16} (hq : nodeGet s.nodes (childIndex l r b).toNat = .leaf sym) :
    step1 s = .emitted { s with
      draws := d, bitPos := s.bitPos + 1#64, outSym := sym.setWidth 64, symValid := true
      count := s.count + 1#64, cursor := s.root, eos := decide (s.bitPos + 1#64 = s.total) } := by
  rw [h.step1_eq hc hb]
  simp [descend, hq, emitSymbol, countUp, h.eos]

/-- An internal node: the cursor moves there, where the stream must not end. -/
theorem Decoding.step1_inner {l' r' : BitVec 16} (hq : nodeGet s.nodes (childIndex l r b).toNat = .internal l' r') :
    step1 s =
      if s.bitPos + 1#64 = s.total then
        .raised .truncatedCode
          { s with draws := d, bitPos := s.bitPos + 1#64, cursor := (childIndex l r b).setWidth 64 }
      else .moved { s with draws := d, bitPos := s.bitPos + 1#64, cursor := (childIndex l r b).setWidth 64 } := by
  rw [h.step1_eq hc hb]
  simp [descend, hq]

end Child

theorem exec_decBit : exec .decBit s = endWalk .decBit (step1 (clearSymValid s)) :=
  (whenLegal_decode h.mode rfl).trans (if_neg (by simp [h.eos]))

theorem exec_decSym :
    exec .decSym s = endWalk .decSym (walkSymbol (s.total.toNat - s.bitPos.toNat) (clearSymValid s)) :=
  (whenLegal_decode h.mode rfl).trans (if_neg (by simp [h.eos]))

end Session

/-- At the end of the stream, DEC_BIT and DEC_SYM only clear SYM_VALID. -/
theorem exec_decode_eos {s : State} {i : Instr} (hi : i = .decBit ∨ i = .decSym) (hm : s.mode = .decode)
    (heos : s.eos = true) : exec i s = .next (clearSymValid s) := by
  rcases hi with rfl | rfl <;> exact (whenLegal_decode hm rfl).trans (if_pos heos)

/-! ### DEC_BIT (R213) -/

/-- Settles O44: in a session, one case for each node that the next bit can select. -/
theorem decBitRule : Obligations.DecBitRule := by
  refine ⟨rfl, refusesBits_of_formatOf (f := .n) rfl, legalOnlyIn_decode fun _ => rfl, fun s hm hinv =>
    ⟨exec_decode_eos (.inl rfl) hm, fun heos => ?_⟩⟩
  have h : Decoding s := ⟨hinv, hm, heos⟩
  refine ⟨?next, fun l r b d hc hb => ?_⟩
  case next =>
    obtain ⟨l, r, hc⟩ := h.cursor
    obtain ⟨b, d, hb⟩ := exists_nextBit s
    exact ⟨l, r, b, d, hc, hb⟩
  refine ⟨fun hq => ?invalid, fun sym hq => ?leaf, fun l' r' hq => ?inner⟩ <;> rw [exec_decBit h]
  case invalid => rw [h.clear.step1_invalid hc hb hq]; rfl
  case leaf => rw [h.clear.step1_leaf hc hb hq]; rfl
  case inner => rw [h.clear.step1_inner hc hb hq]; exact apply_ite (endWalk .decBit) _ _ _

/-! ### The walk as a run of bit steps (R214) -/

/-- From `s`, `n` bit steps in a row move the cursor to internal nodes and leave `u`. -/
inductive Moves (s : State) : Nat → State → Prop
  | refl : Moves s 0 s
  | step {n : Nat} {u v : State} : Moves s n u → step1 u = .moved v → Moves s (n + 1) v

theorem Moves.head {s u v : State} {n : Nat} (hs : step1 s = .moved u) (h : Moves u n v) : Moves s (n + 1) v := by
  induction h with
  | refl => exact .step .refl hs
  | step _ hv ih => exact .step ih hv

/-- The states on the way. -/
theorem Moves.take {s v : State} {n k : Nat} (h : Moves s n v) (hk : k ≤ n) : ∃ u, Moves s k u := by
  induction h with
  | refl => exact ⟨s, Nat.le_zero.1 hk ▸ .refl⟩
  | step hu hv ih =>
    rcases Nat.le_succ_iff.1 hk with hk | rfl
    · exact ih hk
    · exact ⟨_, .step hu hv⟩

/-- Moves change BIT_POS, CURSOR and the draws only. -/
theorem Moves.frame {s u : State} {n : Nat} (h : Moves s n u) :
    ∃ p c d, u = { s with bitPos := p, cursor := c, draws := d } := by
  induction h with
  | refl => exact ⟨_, _, _, rfl⟩
  | @step _ u _ _ hv ih =>
    obtain ⟨p, c, d, rfl⟩ := ih
    have hf := step1_frame { s with bitPos := p, cursor := c, draws := d }
    rw [hv] at hf
    obtain ⟨p', c', d', rfl⟩ := hf
    exact ⟨p', c', d', rfl⟩

/-- They stay in the session, one bit further at each. -/
theorem Moves.decoding {s u : State} {n : Nat} (h : Moves s n u) (hs : Decoding s) :
    Decoding u ∧ u.bitPos.toNat = s.bitPos.toNat + n := by
  induction h with
  | refl => exact ⟨hs, rfl⟩
  | step _ hv ih =>
    obtain ⟨hu, hp⟩ := ih
    have hg := step1_good hu.inv hu.mode hu.eos
    rw [hv] at hg
    obtain ⟨hinv, hm, heos, -, hnext⟩ := hg
    exact ⟨⟨hinv, hm, heos⟩, by omega⟩

theorem walkSymbol_of_moved {s u : State} (h : step1 s = .moved u) (fuel : Nat) :
    walkSymbol (fuel + 1) s = walkSymbol fuel u := by
  rw [walkSymbol_succ, h]

/-- A bit step that does not move ends the walk. -/
theorem walkSymbol_of_end {s : State} {r : BitStep} (h : step1 s = r) (hr : ∀ v, r ≠ .moved v) (fuel : Nat) :
    walkSymbol (fuel + 1) s = r := by
  rw [walkSymbol_succ, h]
  cases r with
  | moved v => exact absurd rfl (hr v)
  | _ => rfl

theorem Moves.walkSymbol_eq {s u : State} {n : Nat} (h : Moves s n u) (fuel : Nat) :
    walkSymbol (n + fuel) s = walkSymbol fuel u := by
  induction h generalizing fuel with
  | refl => rw [Nat.zero_add]
  | step _ hv ih => rw [Nat.succ_add_eq_add_succ, ih, walkSymbol_of_moved hv]

/-- A walk whose fuel lasts ends as the bit step after its moves does. -/
theorem Moves.walkSymbol_end {s u : State} {n fuel : Nat} {r : BitStep} (h : Moves s n u) (hn : n < fuel)
    (hu : step1 u = r) (hr : ∀ v, r ≠ .moved v) : walkSymbol fuel s = r := by
  obtain ⟨k, rfl⟩ := Nat.exists_eq_add_of_lt hn
  rw [Nat.add_assoc, h.walkSymbol_eq, walkSymbol_of_end hu hr]

/-- Everything a walk can do: run out of fuel, or move some bits and end with a bit step that does not move. -/
theorem walkSymbol_cases (fuel : Nat) (s : State) :
    walkSymbol fuel s = .stuck .walkPastEnd ∨
      ∃ n u, Moves s n u ∧ (∀ v, step1 u ≠ .moved v) ∧ walkSymbol fuel s = step1 u := by
  induction fuel generalizing s with
  | zero => exact .inl rfl
  | succ fuel ih =>
    by_cases hs : ∃ u, step1 s = .moved u
    · obtain ⟨u, hu⟩ := hs
      rw [walkSymbol_of_moved hu]
      rcases ih u with hw | ⟨n, v, hv, hend, hw⟩
      · exact .inl hw
      · exact .inr ⟨n + 1, v, hv.head hu, hend, hw⟩
    · have hend := not_exists.1 hs
      exact .inr ⟨0, s, .refl, hend, walkSymbol_of_end rfl hend fuel⟩

/-- A DEC_SYM before the end of the stream: some moves, and the bit step that ends the command. -/
theorem Decoding.exec_decSym_eq {s : State} (h : Decoding s) :
    ∃ n u, Moves (clearSymValid s) n u ∧ (∀ v, step1 u ≠ .moved v) ∧ exec .decSym s = endWalk .decSym (step1 u) := by
  rcases walkSymbol_cases (s.total.toNat - s.bitPos.toNat) (clearSymValid s) with hw | ⟨n, u, hu, hend, hw⟩
  · have hg := walk_clear_good h.inv h.mode h.eos
    rw [hw] at hg
    exact hg.elim
  · exact ⟨n, u, hu, hend, by rw [exec_decSym h, hw]⟩

/-! ### DEC_SYM is bounded (R214, 70_reset_and_hazards.md R279) -/

/-- What a bit step of a session does to BIT_POS (R210). -/
def StepBits (s : State) : BitStep → Prop
  | .emitted t | .moved t => t.bitPos.toNat = s.bitPos.toNat + 1
  | .raised e t => e = .badTree ∧ t.bitPos = s.bitPos ∨ e = .truncatedCode ∧ t.bitPos = s.total
  | .stuck _ => False

theorem Decoding.step1_bits {s : State} (h : Decoding s) : StepBits s (step1 s) := by
  obtain ⟨l, r, hc⟩ := h.cursor
  obtain ⟨b, d, hb⟩ := exists_nextBit s
  cases hq : nodeGet s.nodes (childIndex l r b).toNat with
  | invalid => rw [h.step1_invalid hc hb hq]; exact .inl ⟨rfl, rfl⟩
  | leaf sym => rw [h.step1_leaf hc hb hq]; exact h.bitPos_succ
  | internal l' r' =>
    rw [h.step1_inner hc hb hq]
    split
    case isTrue hend => exact .inr ⟨rfl, hend⟩
    case isFalse => exact h.bitPos_succ

/-- Settles O52: DEC_SYM ends with the bit step after its moves, which emits or raises. -/
theorem decSymBounded : Obligations.DecSymBounded := by
  intro s hinv hm
  obtain ⟨hle, -⟩ := hinv.decode hm
  cases heos : s.eos with
  | true =>
    refine ⟨_, exec_decode_eos (.inr rfl) hm heos, Nat.le_refl _, hle, rfl, nofun, fun hf => ?_⟩
    rw [clearSymValid_mode, hm] at hf
    cases hf
  | false =>
    have h : Decoding s := ⟨hinv, hm, heos⟩
    obtain ⟨n, u, hmoves, hend, hexec⟩ := h.exec_decSym_eq
    obtain ⟨hu, hpos⟩ := hmoves.decoding h.clear
    obtain ⟨p, c, d, hframe⟩ := hmoves.frame
    have htotal : u.total = s.total := by rw [hframe]; rfl
    have hlt : u.bitPos.toNat < s.total.toNat := htotal ▸ hu.bitPos_lt
    have hge : s.bitPos.toNat ≤ u.bitPos.toNat := hpos ▸ Nat.le_add_right _ n
    have hbits := hu.step1_bits
    have hstep := step1_frame u
    cases hr : step1 u with
    | emitted t =>
      rw [hr] at hbits hstep hexec
      have hbits : t.bitPos.toNat = u.bitPos.toNat + 1 := hbits
      have ht : Inv t := inv_exec hinv hexec
      obtain ⟨p', o, e, d', rfl, -⟩ := hstep
      subst hframe
      obtain ⟨-, -, -, hteos, -⟩ := ht.decode hm
      exact ⟨_, hexec, by omega, by omega, rfl, fun _ _ => ⟨rfl, by omega, rfl, rfl, hteos⟩,
        fun hf => absurd (hm.symm.trans hf) nofun⟩
    | moved t => exact absurd hr (hend t)
    | raised e t =>
      rw [hr] at hbits hstep hexec
      have hbits : e = .badTree ∧ t.bitPos = u.bitPos ∨ e = .truncatedCode ∧ t.bitPos = u.total := hbits
      rw [htotal] at hbits
      have hin : s.bitPos.toNat ≤ t.bitPos.toNat ∧ t.bitPos.toNat ≤ s.total.toNat := by
        rcases hbits with ⟨-, hb⟩ | ⟨-, hb⟩ <;> rw [hb] <;> omega
      obtain ⟨-, p', c', d', rfl⟩ := hstep
      subst hframe
      refine ⟨_, hexec, hin.1, hin.2, rfl, fun _ hf => absurd rfl hf, fun _ => ⟨rfl, rfl, heos, ?_⟩⟩
      rcases hbits with ⟨he, hb⟩ | hb
      · exact .inr ⟨he, (congrArg BitVec.toNat hb).trans_lt hlt⟩
      · exact .inl hb
    | stuck f => rw [hr] at hbits; exact hbits.elim

/-! ### DEC_SYM as repeated DEC_BIT (R213, R214) -/

theorem clearSymValid_of_false {s : State} (h : s.symValid = false) : clearSymValid s = s := by
  rw [clearSymValid, ← h]

/-- A sequence of commands runs its last command after the ones before it. -/
theorem execAll_append_singleton {i : Instr} {is : List Instr} {s t : State} :
    execAll (is ++ [i]) s = .next t ↔ ∃ u, execAll is s = .next u ∧ exec i u = .next t := by
  induction is generalizing s with
  | nil => rw [List.nil_append, execAll_cons]; simp [execAll]
  | cons j js ih =>
    simp only [List.cons_append, execAll_cons, ih]
    exact ⟨fun ⟨u, hu, v, hv, ht⟩ => ⟨v, ⟨u, hu, hv⟩, ht⟩, fun ⟨v, ⟨u, hu, hv⟩, ht⟩ => ⟨u, hu, v, hv, ht⟩⟩

/-- One more DEC_BIT in a session. -/
theorem execAll_decBit_succ {s u t : State} {n : Nat} (hu : execAll (List.replicate n .decBit) s = .next u)
    (ht : exec .decBit u = .next t) : execAll (List.replicate (n + 1) .decBit) s = .next t := by
  rw [List.replicate_succ']
  exact execAll_append_singleton.2 ⟨u, hu, ht⟩

/-- As many DEC_BITs as there are moves leave the state the moves leave, SYM_VALID cleared. -/
theorem Moves.execAll_decBit {s v : State} {n : Nat} (h : Moves (clearSymValid s) n v) (hs : Decoding s) :
    ∃ u, execAll (List.replicate n .decBit) s = .next u ∧ Decoding u ∧ clearSymValid u = v ∧
      (1 ≤ n → u.symValid = false) := by
  induction h with
  | refl => exact ⟨s, rfl, hs, rfl, nofun⟩
  | @step n v w hv hw ih =>
    obtain ⟨u, hu, hdec, rfl, -⟩ := ih
    obtain ⟨p, c, d, hframe⟩ := (hv.step hw).frame
    have hclear : w.symValid = false := by rw [hframe]; rfl
    refine ⟨w, execAll_decBit_succ hu ?_, ((hv.step hw).decoding hs.clear).1, clearSymValid_of_false hclear,
      fun _ => hclear⟩
    rw [exec_decBit hdec, hw]
    rfl

/-- Settles O51: the moves of the walk are DEC_BITs that emit nothing, and its last bit step is the DEC_BIT that
emits. -/
theorem decSymIsRepeatedDecBit : Obligations.DecSymIsRepeatedDecBit := by
  intro s t hinv hm heos hexec hsym
  have h : Decoding s := ⟨hinv, hm, heos⟩
  obtain ⟨n, v, hmoves, hend, heq⟩ := h.exec_decSym_eq
  obtain ⟨hv, hpos⟩ := hmoves.decoding h.clear
  obtain ⟨u, hu, hdec, hclear, -⟩ := hmoves.execAll_decBit h
  obtain ⟨t', ht', -, hle, -⟩ := decSymBounded s hinv hm
  obtain rfl : t' = t := by simpa [hexec] using ht'.symm
  have hbits := hv.step1_bits
  rw [heq] at hexec
  cases hr : step1 v with
  | moved w => exact absurd hr (hend w)
  | raised e w =>
    rw [hr] at hexec
    cases hexec
    cases hsym
  | stuck f => rw [hr] at hexec; cases hexec
  | emitted w =>
    rw [hr] at hexec hbits
    obtain rfl : w = t' := by cases hexec; rfl
    have hlast : exec .decBit u = .next w := by rw [exec_decBit hdec, hclear, hr]; rfl
    refine ⟨n + 1, by omega, hbits.trans ?_, hle, execAll_decBit_succ hu hlast, fun k hk => ?_⟩
    · rw [hpos]; rfl
    · obtain ⟨v', hv'⟩ := hmoves.take (Nat.le_of_lt_succ hk)
      obtain ⟨u', hu', -, -, hsilent⟩ := hv'.execAll_decBit h
      exact ⟨u', hu', hsilent⟩

/-! ### DEC_SYM over written words (R214) -/

/-- `s` with the bits consumed that lead the cursor `n` bits on, to node `k`. -/
def walkedTo (s : State) (n k : Nat) : State :=
  { s with bitPos := BitVec.ofNat 64 (s.bitPos.toNat + n), cursor := BitVec.ofNat 64 k }

theorem walkedTo_cursor (s : State) : walkedTo s 0 s.cursor.toNat = s := by
  simp [walkedTo]

/-- A path without its last bit ends on the INTERNAL node whose child that bit selects. -/
theorem treeWalk_append_singleton {t : List (Nat × Node)} {i j : Nat} {q : List Bool} {b : Bool}
    (h : treeWalk t i (q ++ [b]) = some j) :
    ∃ k l r, treeWalk t i q = some k ∧ nodeGet t k = .internal l r ∧ j = (childIndex l r b).toNat := by
  induction q generalizing i with
  | nil =>
    rw [List.nil_append, treeWalk] at h
    split at h
    case h_1 l r hi =>
      split at h
      · cases h
      · cases h
        exact ⟨i, l, r, rfl, hi, rfl⟩
    all_goals cases h
  | cons c q ih =>
    rw [List.cons_append, treeWalk] at h
    split at h
    case h_1 l r hi =>
      split at h
      case isTrue => cases h
      case isFalse hne =>
        obtain ⟨k, l', r', hk, hkn, hj⟩ := ih h
        refine ⟨k, l', r', ?_, hkn, hj⟩
        rw [treeWalk, hi]
        exact (if_neg hne).trans hk
    all_goals cases h

/-- A node index that a walk reaches fits the cursor. -/
theorem treeWalk_lt {t : List (Nat × Node)} {i j : Nat} {q : List Bool} (h : treeWalk t i q = some j)
    (hi : i < 2 ^ 64) : j < 2 ^ 64 := by
  rcases List.eq_nil_or_concat' q with rfl | ⟨q, b, rfl⟩
  · cases h; exact hi
  · obtain ⟨k, l, r, -, -, rfl⟩ := treeWalk_append_singleton h
    exact (childIndex l r b).isLt.trans (by norm_num)

/-- The bits of two strings, one behind the other. -/
theorem streamHas_append_iff {s : State} {j : Nat} {a b : List Bool} :
    StreamHas s j (a ++ b) ↔ StreamHas s j a ∧ StreamHas s (j + a.length) b := by
  refine ⟨fun h => ⟨fun k hk => ?_, fun k hk => ?_⟩, fun h => streamHas_append h.1 h.2⟩
  · rw [h k (by simp; omega), List.getD_append _ _ _ _ hk]
  · rw [Nat.add_assoc, h _ (by simp; omega), List.getD_append_right _ _ _ _ (by omega), Nat.add_sub_cancel_left]

theorem streamHas_append_singleton {s : State} {j : Nat} {q : List Bool} {b : Bool} :
    StreamHas s j (q ++ [b]) ↔ StreamHas s j q ∧ streamBit s (j + q.length) = some b := by
  rw [streamHas_append_iff]
  simp [StreamHas]

/-- A register set from a number that is at most a register's value. -/
theorem ofNat_eq_iff {n : Nat} {v : Reg} (hn : n ≤ v.toNat) : BitVec.ofNat 64 n = v ↔ n = v.toNat := by
  bv_omega

/-- BIT_POS one bit further. -/
theorem walkedTo_bitPos_succ (s : State) (n k : Nat) :
    (walkedTo s n k).bitPos + 1#64 = BitVec.ofNat 64 (s.bitPos.toNat + (n + 1)) :=
  (BitVec.ofNat_add _ 1).symm

/-- The move to an internal child. -/
theorem walkedTo_succ (s : State) (n k : Nat) (ch : BitVec 16) :
    { walkedTo s n k with
      draws := s.draws, bitPos := (walkedTo s n k).bitPos + 1#64, cursor := ch.setWidth 64 } =
      walkedTo s (n + 1) ch.toNat := by
  rw [walkedTo_bitPos_succ, walkedTo, walkedTo, BitVec.ofNat_toNat]

/-- `OnPath s q j l r`: the stream from BIT_POS on holds `q`, which leads from CURSOR to the INTERNAL node `j` before
the end of the stream. -/
structure OnPath (s : State) (q : List Bool) (j : Nat) (l r : BitVec 16) : Prop where
  stream : StreamHas s s.bitPos.toNat q
  lt : s.bitPos.toNat + q.length < s.total.toNat
  walk : treeWalk s.nodes s.cursor.toNat q = some j
  node : nodeGet s.nodes j = .internal l r

theorem OnPath.clear {s : State} {q : List Bool} {j : Nat} {l r : BitVec 16} (h : OnPath s q j l r) :
    OnPath (clearSymValid s) q j l r := ⟨h.stream, h.lt, h.walk, h.node⟩

/-- There the cursor is on node `j`. -/
theorem OnPath.nodeAt {s : State} {q : List Bool} {j : Nat} {l r : BitVec 16} (h : OnPath s q j l r) :
    nodeAt (walkedTo s q.length j) (walkedTo s q.length j).cursor = .internal l r := by
  have hj : (BitVec.ofNat 64 j).toNat = j := by
    rw [BitVec.toNat_ofNat, Nat.mod_eq_of_lt (treeWalk_lt h.walk s.cursor.isLt)]
  exact (congrArg (nodeGet s.nodes) hj).trans h.node

/-- And the next bit is the stream bit behind the path. -/
theorem OnPath.nextBit {s : State} {q : List Bool} {j : Nat} {l r : BitVec 16} (h : OnPath s q j l r) {b : Bool}
    (hb : streamBit s (s.bitPos.toNat + q.length) = some b) : NextBit (walkedTo s q.length j) b s.draws := by
  have hp : (walkedTo s q.length j).bitPos.toNat = s.bitPos.toNat + q.length := by
    have := h.lt
    simp [walkedTo]; omega
  exact .inl ⟨hp ▸ hb, rfl⟩

/-- The stream ends on the next bit, or goes on. -/
theorem OnPath.end_iff {s : State} {q : List Bool} {j : Nat} {l r : BitVec 16} (h : OnPath s q j l r) :
    (walkedTo s q.length j).bitPos + 1#64 = (walkedTo s q.length j).total ↔
      s.bitPos.toNat + (q.length + 1) = s.total.toNat := by
  rw [walkedTo_bitPos_succ]
  exact ofNat_eq_iff h.lt

/-- The bit steps follow the path. -/
theorem OnPath.moves {s : State} {q : List Bool} {j : Nat} {l r : BitVec 16} (hs : Decoding s) (h : OnPath s q j l r) :
    Moves s q.length (walkedTo s q.length j) := by
  induction q using List.reverseRecOn generalizing j l r with
  | nil =>
    obtain rfl : s.cursor.toNat = j := Option.some.inj h.walk
    rw [List.length_nil, walkedTo_cursor]
    exact .refl
  | append_singleton q b ih =>
    obtain ⟨k, l', r', hk, hkn, rfl⟩ := treeWalk_append_singleton h.walk
    obtain ⟨hstream, hb⟩ := streamHas_append_singleton.1 h.stream
    have hlt := h.lt
    rw [List.length_append, List.length_singleton] at hlt ⊢
    have hq : OnPath s q k l' r' := ⟨hstream, by omega, hk, hkn⟩
    have hmoves := ih hq
    obtain ⟨hdec, -⟩ := hmoves.decoding hs
    refine hmoves.step ?_
    rw [hdec.step1_inner hq.nodeAt (hq.nextBit hb) h.node, if_neg (mt hq.end_iff.1 (by omega)),
      walkedTo_succ]

/-- So DEC_SYM ends with the bit step behind the path, if that does not move. -/
theorem OnPath.exec_decSym_eq {s : State} {q : List Bool} {j : Nat} {l r : BitVec 16} (hs : Decoding s)
    (h : OnPath s q j l r) {e : BitStep} (he : step1 (walkedTo (clearSymValid s) q.length j) = e)
    (hend : ∀ v, e ≠ .moved v) : exec .decSym s = endWalk .decSym e := by
  have hlt := h.lt
  rw [exec_decSym hs, (h.clear.moves hs.clear).walkSymbol_end (by omega) he hend]

/-- A path that the stream holds, without its last bit `b`, is a path before the end of the stream. -/
theorem exists_onPath {s : State} {bits : List Bool} {j : Nat} (hne : bits ≠ [])
    (hs : StreamHas s s.bitPos.toNat bits) (hle : s.bitPos.toNat + bits.length ≤ s.total.toNat)
    (hw : treeWalk s.nodes s.cursor.toNat bits = some j) :
    ∃ q b k l r, bits.length = q.length + 1 ∧ OnPath s q k l r ∧
      streamBit s (s.bitPos.toNat + q.length) = some b ∧ j = (childIndex l r b).toNat := by
  rcases List.eq_nil_or_concat' bits with rfl | ⟨q, b, rfl⟩
  · exact absurd rfl hne
  · obtain ⟨k, l, r, hk, hkn, hj⟩ := treeWalk_append_singleton hw
    obtain ⟨hstream, hb⟩ := streamHas_append_singleton.1 hs
    rw [List.length_append, List.length_singleton] at hle
    exact ⟨q, b, k, l, r, List.length_append, ⟨hstream, by omega, hk, hkn⟩, hb, hj⟩

section Last

variable {s : State} (hs : Decoding s) {q : List Bool} {j : Nat} {l r : BitVec 16} (h : OnPath s q j l r) {b : Bool}
  (hb : streamBit s (s.bitPos.toNat + q.length) = some b)
include hs h

theorem OnPath.decoding : Decoding (walkedTo s q.length j) := ((h.moves hs).decoding hs).1

include hb

theorem OnPath.step1_leaf {sym : BitVec 16} (hq : nodeGet s.nodes (childIndex l r b).toNat = .leaf sym) :
    step1 (walkedTo s q.length j) = .emitted { s with
      bitPos := BitVec.ofNat 64 (s.bitPos.toNat + (q.length + 1)), outSym := sym.setWidth 64, symValid := true
      count := s.count + 1#64, cursor := s.root
      eos := decide (s.bitPos.toNat + (q.length + 1) = s.total.toNat) } := by
  rw [(h.decoding hs).step1_leaf h.nodeAt (h.nextBit hb) hq, decide_eq_decide.2 h.end_iff, walkedTo_bitPos_succ]
  rfl

/-- The last bit of the stream, on an internal node. -/
theorem OnPath.step1_cut {l' r' : BitVec 16} (hq : nodeGet s.nodes (childIndex l r b).toNat = .internal l' r')
    (hend : s.bitPos.toNat + (q.length + 1) = s.total.toNat) :
    step1 (walkedTo s q.length j) =
      .raised .truncatedCode { s with bitPos := s.total, cursor := BitVec.ofNat 64 (childIndex l r b).toNat } := by
  have hlast := h.end_iff.2 hend
  rw [(h.decoding hs).step1_inner h.nodeAt (h.nextBit hb) hq, if_pos hlast, hlast, BitVec.ofNat_toNat]
  rfl

theorem OnPath.step1_torn (hq : nodeGet s.nodes (childIndex l r b).toNat = .invalid) :
    step1 (walkedTo s q.length j) = .raised .badTree (walkedTo s q.length j) :=
  (h.decoding hs).step1_invalid h.nodeAt (h.nextBit hb) hq

end Last

/-- Bits that lead to a leaf emit its symbol. -/
theorem exec_decSym_leaf {s : State} (h : Decoding s) {bits : List Bool} {sym : BitVec 16}
    (hs : StreamHas s s.bitPos.toNat bits) (hle : s.bitPos.toNat + bits.length ≤ s.total.toNat)
    (hpath : LeafPath s.nodes s.cursor.toNat bits sym) :
    exec .decSym s = .next { s with
      bitPos := BitVec.ofNat 64 (s.bitPos.toNat + bits.length), outSym := sym.setWidth 64, symValid := true
      count := s.count + 1#64, cursor := s.root
      eos := decide (s.bitPos.toNat + bits.length = s.total.toNat) } := by
  obtain ⟨hne, j, hw, hj⟩ := hpath
  obtain ⟨q, b, k, l, r, hlen, hq, hb, rfl⟩ := exists_onPath hne hs hle hw
  rw [hlen]
  exact hq.exec_decSym_eq h (hq.clear.step1_leaf h.clear hb hj) fun _ => nofun

/-- Bits that end the stream on an internal node raise TRUNCATED_CODE. -/
theorem exec_decSym_cut {s : State} (h : Decoding s) {bits : List Bool} {j : Nat} {l r : BitVec 16}
    (hs : StreamHas s s.bitPos.toNat bits) (hend : s.bitPos.toNat + bits.length = s.total.toNat)
    (hw : treeWalk s.nodes s.cursor.toNat bits = some j) (hj : nodeGet s.nodes j = .internal l r) :
    exec .decSym s =
      .next (raise .truncatedCode (encode .decSym) { s with bitPos := s.total, cursor := BitVec.ofNat 64 j }) := by
  have hne : bits ≠ [] := by
    rintro rfl
    have := h.bitPos_lt
    simp at hend
    omega
  obtain ⟨q, b, k, l', r', hlen, hq, hb, rfl⟩ := exists_onPath hne hs hend.le hw
  exact hq.exec_decSym_eq h (hq.clear.step1_cut h.clear hb hj (hlen ▸ hend)) fun _ => nofun

/-- A bit that selects an INVALID child raises BAD_TREE. -/
theorem exec_decSym_torn {s : State} (h : Decoding s) {q : List Bool} {j : Nat} {l r : BitVec 16} {b : Bool}
    (hq : OnPath s q j l r) (hb : streamBit s (s.bitPos.toNat + q.length) = some b)
    (hbad : nodeGet s.nodes (childIndex l r b).toNat = .invalid) :
    exec .decSym s = .next (raise .badTree (encode .decSym) (walkedTo s q.length j)) :=
  hq.exec_decSym_eq h (hq.clear.step1_torn h.clear hb hbad) fun _ => nofun

/-- Settles O45: the walk follows the bits, one case for each way it ends. -/
theorem decSymRule : Obligations.DecSymRule := by
  refine ⟨rfl, refusesBits_of_formatOf (f := .n) rfl, legalOnlyIn_decode fun _ => rfl, fun s hm hinv =>
    ⟨exec_decode_eos (.inr rfl) hm, fun heos bits hs => ?_⟩⟩
  have h : Decoding s := ⟨hinv, hm, heos⟩
  exact ⟨fun _ => exec_decSym_leaf h hs, fun _ _ _ => exec_decSym_cut h hs,
    fun _ _ _ _ hlt hw hj hb hbad => exec_decSym_torn h ⟨hs, hlt, hw, hj⟩ hb hbad⟩

/-! ### The decoder reads no bit at or beyond TOTAL (R210) -/

/-- `s` with the buffer `m` in place of the one it has. -/
def setBuf (m : Memory) (s : State) : State := { s with buf := m }

/-- A bit step's outcome with the buffer `m` in place of the one it has. -/
def BitStep.withBuf (m : Memory) : BitStep → BitStep
  | .emitted s => .emitted (setBuf m s)
  | .moved s => .moved (setBuf m s)
  | .raised e s => .raised e (setBuf m s)
  | .stuck f => .stuck f

/-- A command's outcome with the buffer `m` in place of the one it has. -/
def withBuf (m : Memory) : Result → Result
  | .next s => .next (setBuf m s)
  | .fault f => .fault f
  | .refused r => .refused r

/-- `m` holds the same stream bits below TOTAL as the buffer of `s`. -/
def SameStream (m : Memory) (s : State) : Prop :=
  ∀ j, j < s.total.toNat → streamBit (setBuf m s) j = streamBit s j

theorem endWalk_withBuf (m : Memory) (i : Instr) (b : BitStep) : endWalk i (b.withBuf m) = withBuf m (endWalk i b) := by
  cases b <;> rfl

theorem whenLegal_withBuf {m : Memory} {i : Instr} {s : State} {r r' : Result} (hr : r' = withBuf m r) :
    whenLegal i (setBuf m s) r' = withBuf m (whenLegal i s r) := by
  subst hr
  rcases whenLegal_cases i s r with ⟨hm, h⟩ | ⟨hm, hl, h⟩ | ⟨hm, hl, h⟩ <;> rw [h]
  · exact whenLegal_fault hm
  · exact whenLegal_illegal hm hl
  · exact whenLegal_legal hm hl

theorem descend_withBuf (m : Memory) (ch : BitVec 16) (s : State) :
    descend ch (setBuf m s) = (descend ch s).withBuf m := by
  cases hq : nodeGet s.nodes ch.toNat with
  | invalid => simp [descend, hq, setBuf, BitStep.withBuf]
  | leaf sym => simp only [descend, setBuf, hq]; rfl
  | internal l r => by_cases he : s.bitPos + 1#64 = s.total <;> simp [descend, hq, he, setBuf, BitStep.withBuf]

/-- The read of the next bit is the same, drawn or not. -/
theorem SameStream.read {m : Memory} {s : State} (h : SameStream m s) (hp : s.bitPos.toNat < s.total.toNat) :
    stepBit (setBuf m s) = stepBit s ∧
      (bufRead (setBuf m s) (s.bitPos.toNat / s.cfg.w)).2 = setBuf m (bufRead s (s.bitPos.toNat / s.cfg.w)).2 := by
  obtain ⟨b, d, hb⟩ := exists_nextBit s
  have hb' : NextBit (setBuf m s) b d := by
    rw [NextBit, show streamBit (setBuf m s) (setBuf m s).bitPos.toNat = _ from h _ hp]
    exact hb
  obtain ⟨rfl, hread⟩ := nextBit_iff.1 hb
  obtain ⟨hbit, hread'⟩ := nextBit_iff.1 hb'
  rw [hread]
  exact ⟨hbit.symm, hread'⟩

/-- R210 gives a bit step no meaning at or beyond TOTAL. -/
theorem step1_pastEnd {s : State} (hp : s.total.toNat ≤ s.bitPos.toNat) : step1 s = .stuck .walkPastEnd := if_pos hp

/-- Nor at a word that does not exist (20_memory.md R66). -/
theorem step1_outOfRange {s : State} (hp : s.bitPos.toNat < s.total.toNat)
    (hi : s.cfg.capWords ≤ s.bitPos.toNat / s.cfg.w) : step1 s = .stuck .bufferIndexOutOfRange :=
  (if_neg (Nat.not_le.2 hp)).trans (if_pos hi)

/-- A cursor that is not on an INTERNAL node raises BAD_TREE. -/
theorem step1_not_internal {s : State} (hp : s.bitPos.toNat < s.total.toNat)
    (hi : s.bitPos.toNat / s.cfg.w < s.cfg.capWords) (hc : (nodeAt s s.cursor).isInternal = false) :
    step1 s = .raised .badTree (bufRead s (s.bitPos.toNat / s.cfg.w)).2 := by
  rcases step1_cases s with ⟨h, -⟩ | ⟨-, h, -⟩ | ⟨-, -, -, h⟩ | ⟨-, -, l, r, h, -⟩
  · omega
  · omega
  · exact h
  · rw [h] at hc; cases hc

/-- A bit step is the same over both buffers. -/
theorem step1_withBuf {m : Memory} {s : State} (h : SameStream m s) :
    step1 (setBuf m s) = (step1 s).withBuf m := by
  rcases step1_cases s with ⟨hp, hs⟩ | ⟨hp, hi, hs⟩ | ⟨hp, hi, hc, hs⟩ | ⟨hp, hi, l, r, hc, hs⟩ <;> rw [hs]
  · exact step1_pastEnd hp
  · exact step1_outOfRange hp hi
  · obtain ⟨-, hread⟩ := h.read hp
    exact (step1_not_internal (s := setBuf m s) hp hi hc).trans (congrArg (BitStep.raised .badTree) hread)
  · obtain ⟨hbit, hread⟩ := h.read hp
    refine (step1_internal (s := setBuf m s) hp hi hc).trans ?_
    rw [hbit, ← descend_withBuf, ← hread]
    rfl

/-- So is a walk, bit step by bit step. -/
theorem walkSymbol_withBuf {m : Memory} (fuel : Nat) {s : State} (h : SameStream m s) :
    walkSymbol fuel (setBuf m s) = (walkSymbol fuel s).withBuf m := by
  induction fuel generalizing s with
  | zero => rfl
  | succ fuel ih =>
    have hs := step1_withBuf h
    cases hr : step1 s with
    | moved t =>
      have hf := step1_frame s
      rw [hr] at hf hs
      obtain ⟨p, c, d, rfl⟩ := hf
      rw [walkSymbol_of_moved hr, walkSymbol_of_moved hs]
      exact ih h
    | _ =>
      rw [hr] at hs
      rw [walkSymbol_of_end hr fun _ => nofun]
      exact walkSymbol_of_end hs (fun _ => nofun) fuel

theorem exec_decInit_withBuf (m : Memory) (s : State) :
    exec .decInit (setBuf m s) = withBuf m (exec .decInit s) := by
  by_cases hm : s.mode = .fault
  · rw [exec_fault (i := .decInit) (by decide) hm]
    exact exec_fault (by decide) hm
  · cases hroot : nodeAt s s.root with
    | invalid =>
      rw [exec_decInit_invalid hm hroot]
      exact exec_decInit_invalid hm hroot
    | leaf sym =>
      rw [exec_decInit_leaf hm hroot]
      exact exec_decInit_leaf hm hroot
    | internal l r =>
      rw [exec_decInit hm hroot]
      exact exec_decInit hm hroot

theorem exec_decBit_withBuf {m : Memory} {s : State} (h : SameStream m s) :
    exec .decBit (setBuf m s) = withBuf m (exec .decBit s) := by
  refine whenLegal_withBuf ?_
  by_cases heos : s.eos = true
  · rw [if_pos heos]
    exact if_pos heos
  · rw [if_neg heos, ← endWalk_withBuf, ← step1_withBuf (s := clearSymValid s) h]
    exact if_neg heos

theorem exec_decSym_withBuf {m : Memory} {s : State} (h : SameStream m s) :
    exec .decSym (setBuf m s) = withBuf m (exec .decSym s) := by
  refine whenLegal_withBuf ?_
  by_cases heos : s.eos = true
  · rw [if_pos heos]
    exact if_pos heos
  · rw [if_neg heos, ← endWalk_withBuf, ← walkSymbol_withBuf _ (s := clearSymValid s) h]
    exact if_neg heos

/-- Settles O53: every decoder command has the same outcome over both buffers, but for the buffer itself. -/
theorem decodeIgnoresPadding : Obligations.DecodeIgnoresPadding := by
  intro s t m i hi h hexec
  have hout : exec i (setBuf m s) = withBuf m (exec i s) := by
    simp only [List.mem_cons, List.not_mem_nil, or_false] at hi
    rcases hi with rfl | rfl | rfl | rfl
    · exact exec_decInit_withBuf m s
    · exact exec_decBit_withBuf h
    · exact exec_decSym_withBuf h
    · exact whenLegal_withBuf rfl
  exact hout.trans (congrArg (withBuf m) hexec)

/-! ### A decode session (R217, R218) -/

/-- A decode session with the codes of `syms`, agreed with the tree, left to the end of the stream. -/
structure Undecoded (s : State) (syms : List Nat) : Prop where
  inv : Inv s
  mode : s.mode = .decode
  cursor : s.cursor = s.root
  agrees : ∀ sym ∈ syms, CodeAgrees s sym
  stream : StreamHas s s.bitPos.toNat (syms.flatMap (symbolBits s.cfg.w s.codes))
  total : s.bitPos.toNat + (syms.flatMap (symbolBits s.cfg.w s.codes)).length = s.total.toNat

/-- The code of a symbol is its path in the tree. -/
theorem CodeAgrees.leafPath {s : State} {sym : Nat} (h : CodeAgrees s sym) :
    LeafPath s.nodes s.root.toNat (symbolBits s.cfg.w s.codes sym) (BitVec.ofNat 16 sym) := by
  obtain ⟨e, hget, hpath⟩ := h
  rwa [symbolBits_of_codeGet hget]

/-- A symbol with a code fits the SYM field. -/
theorem CodeAgrees.lt {s : State} {sym : Nat} (h : CodeAgrees s sym) (hinv : Inv s) : sym < 2 ^ 16 := by
  obtain ⟨e, hget, -⟩ := h
  obtain ⟨hsym, -, -⟩ := codeGet_isCode hinv hget
  exact hsym.trans_le (Nat.pow_le_pow_right (by decide) hinv.legal.symW.2)

/-- Agreement depends on the tables only. -/
theorem CodeAgrees.congr {s t : State} {sym : Nat} (h : CodeAgrees s sym) (hcfg : t.cfg = s.cfg)
    (htables : SameTables s t) : CodeAgrees t sym := by
  obtain ⟨hnodes, hcodes, hroot⟩ := htables
  rwa [CodeAgrees, hcfg, hnodes, hcodes, hroot]

theorem Undecoded.eos_nil {s : State} (h : Undecoded s []) : s.eos = true := by
  obtain ⟨-, -, -, heos, -⟩ := h.inv.decode h.mode
  exact heos.2 (BitVec.eq_of_toNat_eq h.total)

theorem Undecoded.decoding {s : State} {sym : Nat} {rest : List Nat} (h : Undecoded s (sym :: rest)) : Decoding s := by
  refine ⟨h.inv, h.mode, Bool.eq_false_iff.2 fun he => ?_⟩
  obtain ⟨-, -, -, heos, -⟩ := h.inv.decode h.mode
  obtain ⟨hne, -⟩ := (h.agrees sym (by simp)).leafPath
  have hpos := List.length_pos_iff.2 hne
  have htotal := h.total
  rw [heos.1 he, List.flatMap_cons, List.length_append] at htotal
  omega

/-- One DEC_SYM decodes the next symbol. -/
theorem Undecoded.decSym_emits {s : State} {sym : Nat} {rest : List Nat} (h : Undecoded s (sym :: rest)) :
    ∃ t, exec .decSym s = .next t ∧ t.symValid = true ∧ t.outSym = BitVec.ofNat 64 sym ∧
      t.count = s.count + 1#64 ∧ Undecoded t rest := by
  have hagrees := h.agrees sym (by simp)
  obtain ⟨hstream, hrest⟩ := streamHas_append_iff.1 (List.flatMap_cons ▸ h.stream)
  have htotal := h.total
  rw [List.flatMap_cons, List.length_append] at htotal
  have hpath : LeafPath s.nodes s.cursor.toNat (symbolBits s.cfg.w s.codes sym) (BitVec.ofNat 16 sym) :=
    h.cursor ▸ hagrees.leafPath
  have hexec := exec_decSym_leaf h.decoding hstream (by omega) hpath
  have hpos : (BitVec.ofNat 64 (s.bitPos.toNat + (symbolBits s.cfg.w s.codes sym).length)).toNat =
      s.bitPos.toNat + (symbolBits s.cfg.w s.codes sym).length := by
    have := s.total.isLt
    rw [BitVec.toNat_ofNat, Nat.mod_eq_of_lt (by omega)]
  refine ⟨_, hexec, rfl, ?symbol, rfl, inv_exec h.inv hexec, h.mode, rfl,
    fun x hx => (h.agrees x (List.mem_cons_of_mem _ hx)).congr rfl ⟨rfl, rfl, rfl⟩, ?stream, ?total⟩
  case symbol =>
    have := hagrees.lt h.inv
    apply BitVec.eq_of_toNat_eq
    simp
    omega
  case stream => rw [hpos]; exact hrest
  case total => rw [hpos, ← htotal, Nat.add_assoc]

/-- So as many DEC_SYMs as `as` has symbols emit `as`, and leave the rest undecoded. -/
theorem Undecoded.emits {s : State} {as bs : List Nat} (h : Undecoded s (as ++ bs)) :
    ∃ t, emissions as.length s = some (as.map fun sym => BitVec.ofNat 64 sym, t) ∧ Undecoded t bs ∧
      t.count = s.count + BitVec.ofNat 64 as.length := by
  induction as generalizing s with
  | nil => exact ⟨s, rfl, h, (BitVec.add_zero _).symm⟩
  | cons sym rest ih =>
    obtain ⟨u, hu, hvalid, hsym, hcount, hun⟩ := h.decSym_emits
    obtain ⟨t, ht, hbs, hcount'⟩ := ih hun
    refine ⟨t, ?_, hbs, ?_⟩
    · rw [List.length_cons, emissions, hu]
      simp [hvalid, ht, hsym]
    · rw [hcount', hcount, BitVec.add_assoc, List.length_cons, Nat.add_comm, BitVec.ofNat_add]

/-- The root of a tree in which a symbol has a path is INTERNAL. -/
theorem LeafPath.root_internal {t : List (Nat × Node)} {i : Nat} {bits : List Bool} {sym : BitVec 16}
    (h : LeafPath t i bits sym) : ∃ l r, nodeGet t i = .internal l r := by
  obtain ⟨hne, j, hw, -⟩ := h
  cases bits with
  | nil => exact absurd rfl hne
  | cons b rest =>
    rw [treeWalk] at hw
    split at hw
    case h_1 l r hi => exact ⟨l, r, hi⟩
    all_goals cases hw

/-- DEC_INIT after an encode session starts a decode of the whole stream. -/
theorem Encoded.undecoded {s t : State} {syms : List Nat} (hne : syms ≠ [])
    (hagrees : ∀ sym ∈ syms, CodeAgrees s sym)
    (h : Encoded (encodeStart s) t syms.length (syms.flatMap (symbolBits s.cfg.w s.codes))) :
    exec .decInit t = .next (decodeStart t) ∧ Undecoded (decodeStart t) syms := by
  have hcfg : (decodeStart t).cfg = s.cfg := by simpa [decodeStart, encodeStart] using h.cfg
  have htables : SameTables s (decodeStart t) := by simpa [SameTables, decodeStart, encodeStart] using h.tables
  have hagrees' : ∀ sym ∈ syms, CodeAgrees (decodeStart t) sym := fun sym hsym => (hagrees sym hsym).congr hcfg htables
  obtain ⟨sym, hsym⟩ := List.exists_mem_of_ne_nil syms hne
  obtain ⟨l, r, hroot⟩ := (hagrees' sym hsym).leafPath.root_internal
  have hm : t.mode ≠ .fault := by simp [h.mode]
  have hexec : exec .decInit t = .next (decodeStart t) := exec_decInit hm hroot
  obtain ⟨-, hcodes, -⟩ := htables
  refine ⟨hexec, inv_exec h.inv hexec, rfl, rfl, hagrees', ?stream, ?total⟩ <;> rw [hcfg, hcodes]
  case stream => exact h.new
  case total => exact (Nat.zero_add _).trans h.total_of_start.symm

/-- Settles O50: the stream is the codes one behind the other (`encoded_session`), and each DEC_SYM follows one code to
its leaf. -/
theorem roundTrip : Obligations.RoundTrip := by
  intro s t syms h hm hne hagrees he ht
  obtain ⟨hexec, hun⟩ := (encoded_session h hm he ht).undecoded hne hagrees
  obtain ⟨v, hv, hend, hcount⟩ := Undecoded.emits (as := syms) (bs := []) (by rwa [List.append_nil])
  refine ⟨_, v, hexec, hv, hend.eos_nil, hend.mode, (inv_error_nofault hend.inv (by simp [hend.mode])).1,
    by simpa [decodeStart] using hcount, fun k hk => ?_⟩
  rw [← List.take_append_drop k syms] at hun
  obtain ⟨u, hu, hrest, -⟩ := hun.emits
  rw [List.length_take_of_le hk.le] at hu
  rw [List.drop_eq_getElem_cons hk] at hrest
  exact ⟨_, hu, hrest.decoding.eos⟩

end Sys2Proof.Machine

/-! PROOFS. Exceptions (60_exceptions.md): what a raise leaves, which commands raise which error, and how FAULT is
entered, left and stayed in. -/

namespace Sys2Proof.Machine

/-! ### Which commands raise which error (R240) -/

/-- Command `i` is one that the table of R240 names for the error. -/
def RaisedBy (i : Instr) : ErrCode → Prop
  | .noError | .emptyInput => False
  | .codeNotFound => ∃ sym, i = .encSym sym
  | .truncatedCode => i = .decBit ∨ i = .decSym
  | .zeroLengthCode => (∃ sym len, i = .writeCode sym len) ∨ ∃ len, i = .encBits len
  | .degenerateTree => i = .decInit
  | .badTree => i = .decInit ∨ i = .decBit ∨ i = .decSym
  | .bufferOverflow => (∃ sym, i = .encSym sym) ∨ ∃ len, i = .encBits len
  | .lengthMismatch => i = .setLength
  | .badCommand => i ≠ .nop ∧ i ≠ .reset ∧ i ≠ .abort
  | .wrongMode => i ≠ .nop ∧ i ≠ .reset ∧ i ≠ .abort ∧ (∀ n, i ≠ .bufRead n) ∧ i ≠ .encInit ∧ i ≠ .decInit

/-- No command raises code 0. -/
theorem RaisedBy.ne_noError {i : Instr} {e : ErrCode} (h : RaisedBy i e) : e ≠ .noError := by
  rintro rfl
  exact h

theorem ne_control {i : Instr} (hz : i.format ≠ .z) : i ≠ .nop ∧ i ≠ .reset ∧ i ≠ .abort := by
  refine ⟨?_, ?_, ?_⟩ <;> (rintro rfl; exact hz rfl)

/-- A WRONG_MODE outside FAULT: NOP, RESET and ABORT are legal everywhere, and BUF_READ, ENC_INIT and DEC_INIT everywhere
but in FAULT. -/
theorem raisedBy_wrongMode {i : Instr} {m : Mode} (hm : m ≠ .fault) (hl : legalIn i m = false) :
    RaisedBy i .wrongMode := by
  have hopen (n : Nat) : i ∉ [Instr.bufRead n, .encInit, .decInit] := fun hi =>
    Bool.eq_false_iff.1 hl (((legalIn_open hi).2 m).2 (not_fault_mem hm))
  simp only [List.mem_cons, List.not_mem_nil, or_false, not_or] at hopen
  obtain ⟨hnop, hreset, habort⟩ := ne_control (format_of_not_legalIn hl)
  exact ⟨hnop, hreset, habort, fun n => (hopen n).1, (hopen 0).2⟩

theorem raises_raisedBy {s u : State} {e : ErrCode} {i : Instr} (h : Raises s e u i) : RaisedBy i e := by
  have hbad := ne_control (raises_format h)
  cases i with
  | nop | reset | abort | clrTables | encInit | encEnd | decEnd => exact h.elim
  | writeNode _ | setRoot _ | bufWrite _ | bufRead _ => obtain ⟨rfl, -⟩ := h; exact hbad
  | writeCode sym len =>
    obtain ⟨rfl | rfl, -⟩ := h
    · exact hbad
    · exact .inl ⟨sym, len, rfl⟩
  | setLength => obtain ⟨rfl, -⟩ := h; rfl
  | encSym sym =>
    obtain ⟨rfl | rfl, -⟩ := h
    · exact ⟨sym, rfl⟩
    · exact .inl ⟨sym, rfl⟩
  | encBits len =>
    obtain ⟨rfl | rfl | rfl, -⟩ := h
    · exact hbad
    · exact .inr ⟨len, rfl⟩
    · exact .inr ⟨len, rfl⟩
  | decInit =>
    obtain ⟨rfl | rfl, -⟩ := h
    · exact .inl rfl
    · rfl
  | decBit =>
    obtain ⟨rfl | rfl, -⟩ := h
    · exact .inr (.inl rfl)
    · exact .inl rfl
  | decSym =>
    obtain ⟨rfl | rfl, -⟩ := h
    · exact .inr (.inr rfl)
    · exact .inr rfl

/-! ### What a raise leaves (R242) -/

/-- A command that enters FAULT raised: an effect does not lead there. -/
theorem exec_raised {s t : State} {i : Instr} (hm : s.mode ≠ .fault) (h : exec i s = .next t) (ht : t.mode = .fault) :
    ∃ e u, t = raise e (encode i) u ∧ i.format ≠ .z ∧ RaisedFrom i s u ∧ RaisedBy i e := by
  rcases exec_cases h with ⟨hs, -, -⟩ | ⟨-, hl, rfl⟩ | ⟨-, -, e, u, hr, rfl⟩ | ⟨-, -, heff⟩
  · exact absurd hs hm
  · exact ⟨_, _, rfl, format_of_not_legalIn hl, .inl rfl, raisedBy_wrongMode hm hl⟩
  · exact ⟨_, _, rfl, raises_format hr, raises_raisedFrom hr, raises_raisedBy hr⟩
  · exact absurd ht (effect_mode heff hm)

/-- Settles O25: a raise writes its four registers on the state the error was found in, which only a decode's bits can
have moved. -/
theorem errorEntryFrame : Obligations.ErrorEntryFrame := by
  intro s t i hm h ht
  obtain ⟨e, u, rfl, -, hu, hby⟩ := exec_raised hm h ht
  refine ⟨rfl, rfl, hby.ne_noError, fun hbit hsym => ?others, fun _ => ?decode⟩
  case others =>
    rcases hu with rfl | ⟨hi, -⟩
    · rfl
    · exact absurd hi (not_or.2 ⟨hbit, hsym⟩)
  case decode => rcases hu with rfl | ⟨-, p, c, d, rfl⟩ <;> rfl

/-- Settles O28: each clause is the row of its error in `RaisedBy`. -/
theorem errorCodeSources : Obligations.ErrorCodeSources := by
  refine ⟨fun e => by cases e <;> rfl, fun s t i hm h ht => ?_⟩
  obtain ⟨e, u, rfl, -, -, hby⟩ := exec_raised hm h ht
  rw [raise_err]
  refine ⟨?_, ?_, ?_, ?_, ?_, ?_, ?_, ?_, ?_, ?_, ?_⟩ <;> (rintro rfl; exact hby)

/-! ### Words in FAULT (R244) -/

theorem step_atBlock_executes {s : State} (hrst : s.rst = false) (w : Reg) :
    step (atBlock w s) = complete (executeWord w { s with pending := some w }) :=
  blockTurn_latched (s := { s with pending := some w }) hrst rfl

/-- Settles O27: the first step of R96 lets only NOP, RESET and ABORT through, and their OPC alone names those. -/
theorem faultIgnoresCommands : Obligations.FaultIgnoresCommands := by
  intro s w hrst hm
  rw [step_atBlock_executes hrst]
  refine ⟨fun ho => ?ignored, fun ho => ?nop, fun ho => ?reset, fun ho => ?abort⟩
  case ignored => rw [executeWord_ignored (s := { s with pending := some w }) hm ho]; rfl
  case nop => rw [executeWord_ok (decode_format_z (i := .nop) rfl ho)]; rfl
  case reset => rw [executeWord_ok (decode_format_z (i := .reset) rfl ho)]; rfl
  case abort => rw [executeWord_ok (decode_format_z (i := .abort) rfl ho)]; rfl

/-! ### Entry and exit (R243) -/

/-- A word that enters FAULT is the word that ERR_CMD then holds. -/
theorem executeWord_raised {s t : State} {w : Reg} (hm : s.mode ≠ .fault) (h : executeWord w s = .next t)
    (ht : t.mode = .fault) : t.errCmd = w ∧ t.symValid = false := by
  rcases executeWord_cases h with ⟨hs, -⟩ | ⟨-, rfl⟩ | ⟨i, hd, hi⟩
  · exact absurd hs hm
  · exact ⟨rfl, rfl⟩
  · obtain ⟨e, u, rfl, hz, -, -⟩ := exec_raised hm hi ht
    exact ⟨encode_of_decode hd hz, rfl⟩

/-- A word that leaves FAULT is a RESET or an ABORT. -/
theorem executeWord_leaves_fault {s t : State} {w : Reg} (hm : s.mode = .fault) (h : executeWord w s = .next t)
    (ht : t.mode ≠ .fault) : t.mode = .idle ∧ opcField w ∈ [0x01, 0x02] := by
  rcases executeWord_cases h with ⟨-, rfl⟩ | ⟨hs, -⟩ | ⟨i, hd, hi⟩
  · exact absurd hm ht
  · exact absurd hm hs
  · obtain ⟨hopc, -, -⟩ := commandOf_eq_some_iff.1 (decode_eq_ok_iff.1 hd).1
    rcases exec_leaves_fault hm hi ht with rfl | rfl
    · cases hi
      exact ⟨rfl, by simp [hopc, Instr.opc]⟩
    · cases hi
      exact ⟨rfl, by simp [hopc, Instr.opc]⟩

/-- What a step from `s` to `t` can do to MODE: nothing, the reset input's act, or the execution of the latched word. -/
def ModeChange (s t : State) : Prop :=
  t.mode = s.mode ∨
  t.mode = .idle ∧ (s.rst = true ∨ s.turns.head? = some (.rst true)) ∨
  ∃ w tu u, s.pending = some w ∧ executeWord w { s with turns := tu } = .next u ∧ t = endCommand u

theorem hostTurn_modeChange {s t : State} {tu : List Turn} (h : hostTurn { s with turns := tu } = .next t) :
    ModeChange s t := by
  unfold hostTurn at h
  split at h
  · cases h
    unfold holdReset
    split
    case isTrue hrst => exact .inr (.inl ⟨rfl, .inl hrst⟩)
    case isFalse => exact .inl rfl
  · split at h
    · cases h
    · obtain ⟨o, p, dt, ho, re, d, -, rfl⟩ := hostAccess_frame h
      exact .inl rfl

theorem blockTurn_modeChange {s t : State} {tu : List Turn} (h : blockTurn { s with turns := tu } = .next t) :
    ModeChange s t := by
  unfold blockTurn at h
  split at h
  case isTrue hrst => cases h; exact .inr (.inl ⟨rfl, .inl hrst⟩)
  case isFalse =>
    split at h
    case h_1 => cases h; exact .inl rfl
    case h_2 w hp =>
      obtain ⟨u, hu, rfl⟩ := complete_eq_next h
      exact .inr (.inr ⟨w, tu, u, hp, hu, rfl⟩)

theorem driveReset_modeChange {s : State} {level : Bool} {tu : List Turn} (hturns : s.turns = .rst level :: tu) :
    ModeChange s (driveReset level { s with turns := tu }) := by
  unfold driveReset
  split
  case isTrue h =>
    refine .inr (.inl ⟨rfl, ?_⟩)
    rcases Bool.or_eq_true_iff.1 h with rfl | hrst
    · exact .inr (by rw [hturns]; rfl)
    · exact .inl hrst
  case isFalse => exact .inl rfl

theorem step_modeChange {s t : State} (h : step s = .next t) : ModeChange s t := by
  unfold step takeTurn at h
  split at h
  case h_1 =>
    unfold defaultTurn at h
    split at h
    · exact blockTurn_modeChange (tu := s.turns) h
    · exact hostTurn_modeChange (tu := s.turns) h
  case h_2 => exact hostTurn_modeChange h
  case h_3 => exact blockTurn_modeChange h
  case h_4 hturns => cases h; exact driveReset_modeChange hturns

/-- Settles O26: ERR goes with MODE by the invariant of the next state, and `step_modeChange` names the moves that
change MODE. -/
theorem faultEntryAndExit : Obligations.FaultEntryAndExit := by
  intro s t h hstep
  have ht : Inv t := stepKeepsInv s t h hstep
  refine ⟨ht.error.1.symm, fun hs hfault => ?enter, fun hs hlive => ?leave⟩
  case enter =>
    rcases step_modeChange hstep with hsame | ⟨hidle, -⟩ | ⟨w, tu, u, hp, hw, rfl⟩
    · exact absurd (hsame.symm.trans hfault) hs
    · rw [hidle] at hfault
      cases hfault
    · obtain ⟨hcmd, hsym⟩ := executeWord_raised (s := { s with turns := tu }) hs hw hfault
      exact ⟨hp.trans (congrArg some hcmd.symm), rfl, hsym⟩
  case leave =>
    have herr := (inv_error_nofault ht hlive).1
    rcases step_modeChange hstep with hsame | ⟨hidle, hreset⟩ | ⟨w, tu, u, hp, hw, rfl⟩
    · exact absurd (hsame.trans hs) hlive
    · exact ⟨hidle, herr, .inr hreset⟩
    · obtain ⟨hidle, hopc⟩ := executeWord_leaves_fault (s := { s with turns := tu }) hs hw hlive
      exact ⟨hidle, herr, .inl ⟨w, hp, hopc⟩⟩

end Sys2Proof.Machine

/-! PROOFS. Reset and hazards (70_reset_and_hazards.md): the block step on a latched word, the reset input and the RESET
command, what a host access does while BUSY = 1, and that every command completes. -/

namespace Sys2Proof.Machine

/-! ### The reset input and the RESET command (R270, R271) -/

/-- A step that drives `rst` leaves the reset state at the level driven, if `rst` is asserted by it or was before. -/
theorem step_drivesReset {level : Bool} {s : State} {rest : List Turn} (hturns : s.turns = .rst level :: rest)
    (h : (level || s.rst) = true) : step s = .next { resetBlock s with rst := level, turns := rest } := by
  simp only [step, takeTurn, hturns, driveReset, h]
  rfl

/-- A turn of the block while `rst` is asserted leaves the reset state, whatever is latched. -/
theorem blockTurn_asserted {s : State} (h : s.rst = true) : blockTurn s = .next (resetBlock s) :=
  if_pos h

theorem resetBlock_rst_deasserted {s : State} (h : s.rst = false) :
    { resetBlock s with rst := false } = resetBlock s := by
  rw [← h]
  rfl

/-- Settles O17: each move that `rst` governs leaves `resetBlock` at the level driven. -/
theorem resetInputState : Obligations.ResetInputState := by
  intro s op
  refine ⟨step_drivesReset rfl rfl, fun hrst => ?hold, fun hrst => step_drivesReset rfl hrst,
    fun hrst => step_atHost_reset hrst op⟩
  case hold =>
    change blockTurn s = _
    rw [blockTurn_asserted hrst, resetBlock, hrst]

/-- Settles O18: both ways lead to `resetBlock`, whose buffer is the one of reset. -/
theorem resetCommandEqualsResetInput : Obligations.ResetCommandEqualsResetInput := by
  intro s hrst
  refine ⟨?_, resetBlock s, rfl, rfl, fun _ => read_resetWith (c := s.cfg)⟩
  rw [run_succ 1 (step_drivesReset rfl rfl), run_succ 0 (step_drivesReset rfl rfl)]
  exact congrArg Host.Outcome.next (resetBlock_rst_deasserted hrst)

/-! ### The block step (R274) -/

/-- The end of the command `i` that a word decodes to. -/
theorem complete_executeWord_ok {s t : State} {w : Reg} {i : Instr} (hd : decode w = .ok i) (h : exec i s = .next t) :
    complete (executeWord w s) = .next { t with pending := none } := by
  rw [executeWord_ok hd, h]
  rfl

/-- A table row's word is a command when the decoder accepts it. -/
theorem decodeTableWord_eq_some_iff {nbits v : Nat} {i : Instr} :
    decodeTableWord nbits v = some i ↔ decode (tableWord nbits v) = .ok i := by
  unfold decodeTableWord
  split
  case h_1 j hd => simp [hd]
  case h_2 e hd => simp [hd]

/-- `withFetchWord` is the block's turn on the latched word, with `rst` low (log 8). -/
theorem withFetchWord_eq_atBlock (s : State) (nbits v : Nat) :
    s.withFetchWord nbits v = atBlock (tableWord nbits v) { s with rst := false } := rfl

/-- Settles O9: each of the three ways comes to the execution of the latched word. -/
theorem stepRunsDecodedCommand : Obligations.StepRunsDecodedCommand := by
  refine ⟨?scheduled, ?default, ?fetched, ?refused⟩
  case scheduled =>
    intro s t w i hrst hd hexec
    rw [step_atBlock_executes hrst, complete_executeWord_ok hd hexec]
  case default =>
    intro s t w i hrst hturns hp hd hexec
    rw [step_block hturns hrst hp, complete_executeWord_ok hd hexec]
  case fetched =>
    intro s t nbits v i hd hexec
    rw [withFetchWord_eq_atBlock, step_atBlock_executes rfl]
    exact complete_executeWord_ok (decodeTableWord_eq_some_iff.1 hd) hexec
  case refused =>
    intro s w e hrst hd
    rw [step_atBlock_executes hrst, executeWord_error hd]
    by_cases hm : s.mode = .fault
    · rw [if_pos hm, if_pos hm]
      rfl
    · rw [if_neg hm, if_neg hm]
      rfl

/-! ### The host while BUSY = 1 (R275) -/

/-- What a host access does while a command is latched: a write sets OVR, and the rest is the host's side. -/
theorem hostAccess_busy {op : HostOp} {s t : State} (hbusy : s.pending.isSome = true) (h : hostAccess op s = .next t) :
    t = { s with ovr := s.ovr || op.isWrite, host := t.host, responses := t.responses, draws := t.draws } := by
  cases op with
  | read addr bytes =>
    simp only [hostAccess] at h
    split at h
    case h_1 off _ =>
      obtain ⟨d, hd⟩ := busRead_state s off
      rw [hd] at h
      cases h
      simp [HostOp.isWrite, respond]
    case h_2 => cases h
  | write addr bytes v =>
    simp only [hostAccess, busWrite_busy hbusy] at h
    split at h
    case h_1 => cases h; simp [HostOp.isWrite, setOvr]
    case h_2 => cases h
  | wait =>
    simp only [hostAccess] at h
    split at h <;> cases h <;> simp [HostOp.isWrite, respond]
  | check =>
    simp only [hostAccess] at h
    split at h <;> cases h
    simp [HostOp.isWrite, respond]

/-- Settles O16: the access is refused while `rst` is asserted, and is `hostAccess` else. -/
theorem busyProtectsBlock : Obligations.BusyProtectsBlock := by
  intro s t op hbusy hstep
  by_cases hrst : s.rst = true
  · rw [step_atHost_reset hrst] at hstep
    cases hstep
  · rw [step_atHost op s (Bool.eq_false_of_not_eq_true hrst)] at hstep
    exact hostAccess_busy hbusy hstep

/-! ### Completion (R279) -/

/-- Settles O23: the invariant excludes the faults of the appends and of the bit steps. -/
theorem everyCommandCompletes : Obligations.EveryCommandCompletes := fun _ i h => exec_completes h i

end Sys2Proof.Machine
